-- ==== Sys2Proof/Word.lean ====
section
/-! DEFINITION. The word types of the block: bytes, the 16-bit quantities of the wire and of the tables, and the
32-bit registers (spec 10_state.md, 20_memory.md). -/

namespace Sys2Proof

/-- One byte of a byte space (20_memory.md R70). -/
abbrev Byte := BitVec 8

/-- A 16-bit quantity: station addresses, mailbox offsets and sizes, error codes (92_eei_decisions.md D5). -/
abbrev Half := BitVec 16

/-- A 32-bit register of the host interface (10_state.md R25). -/
abbrev Word := BitVec 32

end Sys2Proof
end

