-- ==== Sys2Proof/Syntax.lean ====
section
/-! DEFINITION. The 22 commands of BCC, one constructor per row of spec/opcode_table.json, with the operands each takes
from its command word (30_encoding.md R103). Operands that travel in A0 to A2 are read by the meaning. -/

namespace Sys2Proof

/-- The two strategies (10_state.md R35); an operand of ACTIVATE. -/
inductive Strategy where
  | sync
  | async
  deriving DecidableEq, Repr

/-- A command of 30_encoding.md R103. Indices, sizes, budgets and handles are the naturals their rules count with
(00_scope.md R13); `WellFormed` says which fit their field of the word. -/
inductive Instr where
  /-- 0x01 ACQUIRE (43_driver_lifecycle.md R220). -/
  | acquire
  /-- 0x02 SLAVE_SET: slave index, station address (R221). -/
  | slaveSet (i : Nat) (station : Half)
  /-- 0x03 ACTIVATE: strategy (R223). -/
  | activate (strategy : Strategy)
  /-- 0x04 DEACTIVATE (R225). -/
  | deactivate
  /-- 0x05 RELEASE (R226). -/
  | release
  /-- 0x06 APP_DONE (42_scheduler.md R178). -/
  | appDone
  /-- 0x10 MBX_PREP_SEND: slave index, payload size (40_mailbox.md R124). -/
  | mbxPrepSend (v : Nat) (size : Nat)
  /-- 0x11 MBX_PREP_CHECK: slave index (R126). -/
  | mbxPrepCheck (v : Nat)
  /-- 0x12 MBX_CHECK: slot (R128). -/
  | mbxCheck (q : Nat)
  /-- 0x13 MBX_PREP_FETCH: slave index (R129). -/
  | mbxPrepFetch (v : Nat)
  /-- 0x14 MBX_FETCH: slot, slave index (R132). -/
  | mbxFetch (q : Nat) (v : Nat)
  /-- 0x18 MBX_XFER: slot, poll budget (42_scheduler.md R185). -/
  | mbxXfer (q : Nat) (budget : Nat)
  /-- 0x19 MBX_XSTAT (R192). -/
  | mbxXstat
  /-- 0x1A MBX_XRD: byte index (R193). -/
  | mbxXrd (i : Nat)
  /-- 0x1B MBX_XCLR (R194). -/
  | mbxXclr
  /-- 0x20 DOM_CREATE: domain index, size in bytes (41_domain.md R151). -/
  | domCreate (d : Nat) (size : Nat)
  /-- 0x21 DOM_REG_FIELD: domain index, byte offset (R152). -/
  | domRegField (d : Nat) (off : Nat)
  /-- 0x22 FLD_RD: handle (R153). -/
  | fldRd (h : Nat)
  /-- 0x23 FLD_WR: handle (R154). -/
  | fldWr (h : Nat)
  /-- 0x30 DG_RD: slot, byte index (40_mailbox.md R135). -/
  | dgRd (q : Nat) (i : Nat)
  /-- 0x31 DG_WR: slot, byte index (R136). -/
  | dgWr (q : Nat) (i : Nat)
  /-- 0x32 DG_STAT: slot (R138). -/
  | dgStat (q : Nat)
  deriving DecidableEq, Repr

end Sys2Proof
end

