-- ==== Sys2Proof/WellFormed.lean ====
section
/-! DEFINITION. Which commands have an encoding: every index fits the 8-bit field `a` and every immediate the 16-bit
field `imm` of the command word (30_encoding.md R100, R101). -/

namespace Sys2Proof

/-- An 8-bit index: a slave, a domain or a slot (field `a`, or `imm[7:0]` of MBX_FETCH). -/
def fitsIndex (n : Nat) : Bool := decide (n < 256)

/-- A 16-bit immediate (field `imm`). -/
def fitsImm (n : Nat) : Bool := decide (n < 65536)

/-- Every operand of the command fits its field of the word (30_encoding.md R100, R103). -/
def Instr.wf : Instr → Bool
  | .acquire => true
  | .slaveSet i _ => fitsIndex i
  | .activate _ => true
  | .deactivate => true
  | .release => true
  | .appDone => true
  | .mbxPrepSend v size => fitsIndex v && fitsImm size
  | .mbxPrepCheck v => fitsIndex v
  | .mbxCheck q => fitsIndex q
  | .mbxPrepFetch v => fitsIndex v
  | .mbxFetch q v => fitsIndex q && fitsIndex v
  | .mbxXfer q budget => fitsIndex q && fitsImm budget
  | .mbxXstat => true
  | .mbxXrd i => fitsImm i
  | .mbxXclr => true
  | .domCreate d size => fitsIndex d && fitsImm size
  | .domRegField d off => fitsIndex d && fitsImm off
  | .fldRd h => fitsImm h
  | .fldWr h => fitsImm h
  | .dgRd q i => fitsIndex q && fitsImm i
  | .dgWr q i => fitsIndex q && fitsImm i
  | .dgStat q => fitsIndex q

end Sys2Proof
end

