-- ==== Sys2Proof/Decode.lean ====
section
/-! DEFINITION. The command word (30_encoding.md R100 to R105): the decoder, total on every 32-bit word and rejecting a
reserved opcode by name; then the encoder, written from the same table. -/

namespace Sys2Proof

/-- Why a word is no command. A decoder looks at `op` only (30_encoding.md R104), so a reserved opcode is the one
reason (R105). -/
inductive DecodeError where
  | reservedOpcode (op : Byte)
  deriving DecidableEq, Repr

/-- `op = w[31:24]` (30_encoding.md R100). -/
def opField (w : Word) : Byte := w.extractLsb' 24 8

/-- `a = w[23:16]`, zero-extended (30_encoding.md R100, R101). -/
def aField (w : Word) : Nat := (w.extractLsb' 16 8).toNat

/-- `imm = w[15:0]` as bits (30_encoding.md R100). -/
def immBits (w : Word) : Half := w.extractLsb' 0 16

/-- `imm = w[15:0]`, zero-extended (30_encoding.md R100, R101). -/
def immField (w : Word) : Nat := (immBits w).toNat

/-- The strategy of ACTIVATE is `imm[0]`; the other bits are ignored (43_driver_lifecycle.md R223). -/
def strategyField (w : Word) : Strategy := if w.getLsbD 0 then .async else .sync

/-- The slave index of MBX_FETCH is `imm[7:0]` (40_mailbox.md R132). -/
def immLowByte (w : Word) : Nat := (w.extractLsb' 0 8).toNat

/-- The command a word stands for, by the opcode map of 30_encoding.md R103; a field a command does not use is ignored
(R104); any other opcode is reserved (R105). -/
def decode (w : Word) : Except DecodeError Instr :=
  match (opField w).toNat with
  | 0x01 => .ok .acquire
  | 0x02 => .ok (.slaveSet (aField w) (immBits w))
  | 0x03 => .ok (.activate (strategyField w))
  | 0x04 => .ok .deactivate
  | 0x05 => .ok .release
  | 0x06 => .ok .appDone
  | 0x10 => .ok (.mbxPrepSend (aField w) (immField w))
  | 0x11 => .ok (.mbxPrepCheck (aField w))
  | 0x12 => .ok (.mbxCheck (aField w))
  | 0x13 => .ok (.mbxPrepFetch (aField w))
  | 0x14 => .ok (.mbxFetch (aField w) (immLowByte w))
  | 0x18 => .ok (.mbxXfer (aField w) (immField w))
  | 0x19 => .ok .mbxXstat
  | 0x1A => .ok (.mbxXrd (immField w))
  | 0x1B => .ok .mbxXclr
  | 0x20 => .ok (.domCreate (aField w) (immField w))
  | 0x21 => .ok (.domRegField (aField w) (immField w))
  | 0x22 => .ok (.fldRd (immField w))
  | 0x23 => .ok (.fldWr (immField w))
  | 0x30 => .ok (.dgRd (aField w) (immField w))
  | 0x31 => .ok (.dgWr (aField w) (immField w))
  | 0x32 => .ok (.dgStat (aField w))
  | _ => .error (.reservedOpcode (opField w))

/-- `decode` without the reason: the instruction the block runs for `w`, or `none` where the opcode is reserved. -/
def decodeOption (w : Word) : Option Instr :=
  match decode w with
  | .ok i => some i
  | .error _ => none

/-- The instruction the decoder reads from an instruction whose bits are `w`, numbered as spec/opcode_table.json numbers
them. A command is one 32-bit word (30_encoding.md R100); bits from `nbits` up are 0. -/
def decodeTableWord (nbits w : Nat) : Option Instr := decodeOption (BitVec.ofNat 32 (w % 2 ^ nbits))

/-- The format H of 30_encoding.md R100: opcode, index, immediate. -/
def formatH (op a imm : Nat) : Word := BitVec.ofNat 8 op ++ BitVec.ofNat 8 a ++ BitVec.ofNat 16 imm

/-- The opcode of a command (30_encoding.md R103). -/
def Instr.opcode : Instr → Nat
  | .acquire => 0x01
  | .slaveSet _ _ => 0x02
  | .activate _ => 0x03
  | .deactivate => 0x04
  | .release => 0x05
  | .appDone => 0x06
  | .mbxPrepSend _ _ => 0x10
  | .mbxPrepCheck _ => 0x11
  | .mbxCheck _ => 0x12
  | .mbxPrepFetch _ => 0x13
  | .mbxFetch _ _ => 0x14
  | .mbxXfer _ _ => 0x18
  | .mbxXstat => 0x19
  | .mbxXrd _ => 0x1A
  | .mbxXclr => 0x1B
  | .domCreate _ _ => 0x20
  | .domRegField _ _ => 0x21
  | .fldRd _ => 0x22
  | .fldWr _ => 0x23
  | .dgRd _ _ => 0x30
  | .dgWr _ _ => 0x31
  | .dgStat _ => 0x32

/-- The index a command puts in `a` (30_encoding.md R103); 0 where it has none (any value would decode alike, R104). -/
def Instr.aOperand : Instr → Nat
  | .slaveSet i _ => i
  | .mbxPrepSend v _ => v
  | .mbxPrepCheck v => v
  | .mbxCheck q => q
  | .mbxPrepFetch v => v
  | .mbxFetch q _ => q
  | .mbxXfer q _ => q
  | .domCreate d _ => d
  | .domRegField d _ => d
  | .dgRd q _ => q
  | .dgWr q _ => q
  | .dgStat q => q
  | .acquire => 0
  | .activate _ => 0
  | .deactivate => 0
  | .release => 0
  | .appDone => 0
  | .mbxXstat => 0
  | .mbxXrd _ => 0
  | .mbxXclr => 0
  | .fldRd _ => 0
  | .fldWr _ => 0

/-- The strategy as bit 0 of `imm`: 0 synchronous, 1 asynchronous (43_driver_lifecycle.md R223). -/
def strategyImm : Strategy → Nat
  | .sync => 0
  | .async => 1

/-- The immediate a command puts in `imm` (30_encoding.md R103); 0 where it has none. -/
def Instr.immOperand : Instr → Nat
  | .slaveSet _ station => station.toNat
  | .activate strategy => strategyImm strategy
  | .mbxPrepSend _ size => size
  | .mbxFetch _ v => v
  | .mbxXfer _ budget => budget
  | .mbxXrd i => i
  | .domCreate _ size => size
  | .domRegField _ off => off
  | .fldRd h => h
  | .fldWr h => h
  | .dgRd _ i => i
  | .dgWr _ i => i
  | .acquire => 0
  | .deactivate => 0
  | .release => 0
  | .appDone => 0
  | .mbxPrepCheck _ => 0
  | .mbxCheck _ => 0
  | .mbxPrepFetch _ => 0
  | .mbxXstat => 0
  | .mbxXclr => 0
  | .dgStat _ => 0

/-- The command word of a command: `op << 24 | a << 16 | imm` (30_encoding.md R100, R103). -/
def encode (i : Instr) : Word := formatH i.opcode i.aOperand i.immOperand

end Sys2Proof
end

