-- ==== Sys2Proof/Config.lean ====
section
/-! DEFINITION. The parameters of a BCC (00_scope.md R8), the standard configuration of the spec's own vectors, and
the free values: constants without a body, of which nothing can be proved. -/

namespace Sys2Proof

/-- What the wire says of one datagram: the target acted on it, a response came but nothing acted on it, or nothing
came in time (20_memory.md R87). -/
inductive WireStatus where
  | ok
  | notActed
  | lost
  deriving DecidableEq, Repr, Inhabited

namespace Config

/-- The parameters of 00_scope.md R8 that are not table sizes. -/
structure Params where
  /-- DGMAX, the largest datagram data length in bytes, 16 to 65535. -/
  dgmax : Nat
  /-- MBX_STATE_ADDR, the address of the mailbox-state register, the same for every slave. -/
  mbxStateAddr : Half
  /-- ERRTAB, the partial map from an error code to its description (40_mailbox.md R133). -/
  errtab : List (Half × String)
  /-- BUDGET, the cycle time budget in time units. -/
  budget : Word
  /-- TIME_UNIT, the unit of the telemetry; no rule computes with it. -/
  timeUnit : String
  deriving DecidableEq, Repr

/-- The table sizes of 00_scope.md R8. A state carries them as the lengths of its tables. -/
structure Sizes where
  nslave : Nat
  ndom : Nat
  nfield : Nat
  ndg : Nat
  deriving DecidableEq, Repr

/-- The default ERRTAB of 40_mailbox.md R133. Row 0x0002 is the source's. PRESUMED: the other rows, which the spec
marks as general knowledge (log 15); unsafe where a claim leans on one of them. -/
def defaultErrtab : List (Half × String) :=
  [(0x0001, "MBXERR_SYNTAX"), (0x0002, "MBXERR_UNSUPPORTEDPROTOCOL"), (0x0003, "MBXERR_INVALIDCHANNEL"),
   (0x0004, "MBXERR_SERVICENOTSUPPORTED"), (0x0005, "MBXERR_INVALIDHEADER"), (0x0006, "MBXERR_SIZETOOSHORT"),
   (0x0007, "MBXERR_NOMOREMEMORY"), (0x0008, "MBXERR_INVALIDSIZE")]

/-- The parameters of the conventions of 95_test_vectors.md. DESIGN CHOICE: the spec leaves every parameter open, and
the reset state takes these (log 1); unsafe where a claim leans on one of the numbers. -/
def standard : Params where
  dgmax := 64
  mbxStateAddr := 0x0808
  errtab := defaultErrtab
  budget := 0xFFFFFFFF
  timeUnit := "time units"

/-- The table sizes of the conventions of 95_test_vectors.md. DESIGN CHOICE (log 1), as `standard`. -/
def standardSizes : Sizes where
  nslave := 4
  ndom := 2
  nfield := 8
  ndg := 4

/-- Free value: the status the wire gives at draw `n` when no answer is listed (20_memory.md R86). DESIGN CHOICE
of form (log 4); safe: nothing can be proved of it. -/
opaque freeStatus : Nat → WireStatus

/-- Free value: byte `i` of the answer of draw `n` where no byte is listed (20_memory.md R86). Safe (log 4). -/
opaque freeByte : Nat → Nat → Byte

/-- Free value: by how much the time base advances at draw `n` when no advance is listed (43_driver_lifecycle.md
R214). Safe (log 5). -/
opaque freeElapsed : Nat → Nat

end Config

end Sys2Proof
end

