-- ==== Sys2Proof/Machine/State.lean ====
section
/-! DEFINITION. The whole state of BCC as plain data (10_state.md R20), the state after reset (10_state.md R61), and the
reasons a step can stop. -/

namespace Sys2Proof.Machine

/-- The machine raises no fault: a command error is a normal outcome written to ERR and `Fatal()` is a normal step
(60_exceptions.md R262), and no treatment of the spec is `stuck` (93_implementation_defined.md section 2). The type
has no constructor, so nothing raises one: safe. -/
inductive Fault where
  deriving DecidableEq, Repr

/-- Why a step is not taken. -/
inductive Refusal where
  /-- The instruction has no meaning yet. Raised by no arm of this model. Safe. -/
  | notModelled (mnemonic : String)
  /-- HOST writes CMD while an earlier command is held: "a model refuses the write" (60_exceptions.md R262,
  42_scheduler.md R176; log 10). Raised by the register write of the host interface. Safe: the spec forbids the write. -/
  | commandWhileHeld
  deriving DecidableEq, Repr

/-- The lifecycle states (10_state.md R33). -/
inductive Life where
  | released
  | configuring
  | active
  deriving DecidableEq, Repr

/-- The scheduler phases (10_state.md R34). -/
inductive Phase where
  | idle
  | sending
  | awaitingReceive
  | processing
  | app
  deriving DecidableEq, Repr

/-- The cells of a byte space: (index, byte) pairs, indices strictly rising, no byte equal to 0. An index not listed
reads as 0, which is the content the spec gives a fresh buffer (92_eei_decisions.md D9, D20). -/
abbrev Memory := List Host.Cell

/-- A buffer: its length in bytes and its content (00_scope.md R11, 20_memory.md R70). -/
structure Buf where
  len : Nat
  mem : Memory
  deriving DecidableEq, Repr

/-- An entry of the slave table (10_state.md R40). -/
structure Slave where
  valid : Bool
  station : Half
  ring : Half
  protocols : Half
  rxOff : Half
  rxSize : Half
  txOff : Half
  txSize : Half
  deriving DecidableEq, Repr

/-- `DOM[d].wstate`: None, Ok or Fail (10_state.md R42). -/
inductive WState where
  | none
  | ok
  | fail
  deriving DecidableEq, Repr

/-- An entry of the domain table (10_state.md R42). Its `size` is the length of `buf`, stored once. -/
structure Domain where
  valid : Bool
  addr : Word
  buf : Buf
  dg : Option Nat
  wstate : WState
  deriving DecidableEq, Repr

/-- An entry of the field table (10_state.md R44). -/
structure Field where
  valid : Bool
  dom : Nat
  slave : Nat
  locator : Word
  off : Nat
  width : Nat
  deriving DecidableEq, Repr

/-- The states of a slot that is not Free (10_state.md R46, R47). -/
inductive DgState where
  | queued
  | inFlight
  | done
  deriving DecidableEq, Repr

/-- The kinds of a datagram (10_state.md R46). -/
inductive Kind where
  | read
  | write
  | exchange
  deriving DecidableEq, Repr

/-- The completion status of a slot (20_memory.md R87). -/
inductive Status where
  | pending
  | ok
  | notActed
  | lost
  deriving DecidableEq, Repr

/-- Who may touch a slot (10_state.md R46). -/
inductive Owner where
  | host
  | seq
  | dom (d : Nat)
  deriving DecidableEq, Repr

/-- A slot that is not Free (10_state.md R46). Its `len` is the length of `data`, stored once. `addr` belongs to Exchange
datagrams; a Read or Write, whose allocation does not set it (20_memory.md R81), has none (log 7). -/
structure Datagram where
  st : DgState
  kind : Kind
  station : Half
  offset : Half
  addr : Option Word
  data : Buf
  status : Status
  owner : Owner
  slv : Option Nat
  deriving DecidableEq, Repr

/-- A slot of the pool: `none` is Free. A Free slot's other fields are meaningless (10_state.md R46), so it has none
(log 7). -/
abbrev Slot := Option Datagram

/-- The states of the mailbox sequencer (10_state.md R51). -/
inductive MxState where
  | idle
  | sendWait
  | pollReady
  | pollWait
  | fetchReady
  | fetchWait
  | done
  deriving DecidableEq, Repr

/-- The mailbox sequencer MX (10_state.md R50 to R52). -/
structure Sequencer where
  st : MxState
  slave : Nat
  dg : Nat
  budget : Half
  rcode : Byte
  rknown : Bool
  rtype : BitVec 4
  rlen : Half
  rerr : Half
  rbuf : Buf
  deriving DecidableEq, Repr

/-- A diagnostic event (10_state.md R58). -/
inductive LogEvent where
  /-- `CorruptFrame(slave, bytes)`, with the whole data buffer of the datagram. -/
  | corruptFrame (slave : Nat) (bytes : List Byte)
  /-- `ErrorReply(slave, code, text)`. -/
  | errorReply (slave : Nat) (code : Half) (text : String)
  deriving DecidableEq, Repr

/-- A command held (10_state.md R23): its word and the argument registers as they were at the CMD write
(20_memory.md R95). -/
structure Held where
  word : Word
  a0 : Word
  a1 : Word
  a2 : Word
  a3 : Word
  deriving DecidableEq, Repr

/-- The steps of a cycle program (42_scheduler.md R173, R174): the micro-operations of 44_common_laws.md R230, the
changes of phase between them, and `end_cycle`, which holds FWD. -/
inductive MicroOp where
  | rel
  | queueAll
  | mbxOut
  | sendAll
  | toAwaiting
  | recvAll
  | toProcessing
  | processAll
  | mbxIn
  | toApp
  | endCycle
  deriving DecidableEq, Repr

/-- A turn of an agent (00_scope.md R15): CORE, DRIVER, HOST, HOST or MONITOR, the outside. DESIGN CHOICE (log 2):
the list of turns is the interleaving of the agents; safe, since every list is a state. -/
inductive Input where
  /-- CORE takes its next step. -/
  | core
  /-- DRIVER raises `tick` (43_driver_lifecycle.md R210). -/
  | tick
  /-- HOST writes a register (10_state.md R25). -/
  | write (offset : Nat) (value : Word)
  /-- HOST or MONITOR reads a register (10_state.md R25). -/
  | read (offset : Nat)
  /-- The reset event (70_reset_and_hazards.md R280). -/
  | reset
  deriving DecidableEq, Repr

/-- An answer of the wire to one datagram (20_memory.md R86). A byte the list does not reach is a free value. -/
structure WireAnswer where
  status : WireStatus
  bytes : List Byte
  deriving DecidableEq, Repr

/-- The state of BCC (10_state.md R20), and after it the model's own fields. -/
structure State where
  /-- The parameters (00_scope.md R8); written by no step. -/
  par : Config.Params
  /-- A0 to A3 (10_state.md R21). -/
  a0 : Word
  a1 : Word
  a2 : Word
  a3 : Word
  /-- R0 to R3 (10_state.md R22). -/
  r0 : Word
  r1 : Word
  r2 : Word
  r3 : Word
  /-- ERR (10_state.md R27). -/
  err : Word
  /-- 10_state.md R33. -/
  life : Life
  /-- 10_state.md R34. -/
  phase : Phase
  /-- 10_state.md R35. -/
  strategy : Strategy
  /-- 10_state.md R36. -/
  tickpend : Bool
  /-- 10_state.md R37. -/
  ovr : Bool
  /-- 10_state.md R38. -/
  fatal : Bool
  /-- CYCLE (10_state.md R28). -/
  cycle : Word
  /-- T_PRE, T_POST, T_FIN (10_state.md R29). -/
  tPre : Word
  tPost : Word
  tFin : Word
  /-- K, shown by KDIV (10_state.md R30). -/
  kdiv : Word
  /-- TICKCNT (10_state.md R31). -/
  tickcnt : Word
  /-- FLDCNT (10_state.md R32). -/
  fldcnt : Nat
  /-- SLV, NSLAVE entries (10_state.md R40). -/
  slv : List Slave
  /-- DOM, NDOM entries (10_state.md R42). -/
  dom : List Domain
  /-- FLD, NFIELD entries (10_state.md R44). -/
  fld : List Field
  /-- DG, NDG slots (10_state.md R46). -/
  dg : List Slot
  /-- MX (10_state.md R50). -/
  mx : Sequencer
  /-- The time the cycle under way started, hidden (10_state.md R55). -/
  t0 : Nat
  /-- LOG, oldest first (10_state.md R58). -/
  log : List LogEvent
  /-- The command held, if any (10_state.md R23, 42_scheduler.md R176). -/
  held : Option Held
  /-- What is left of the cycle program that runs (42_scheduler.md R173 to R175; log 8). -/
  todo : List MicroOp
  /-- How many `host_tick` events were emitted (43_driver_lifecycle.md R213; log 13). -/
  hostTicks : Nat
  /-- The word the last register read put on the host bus (10_state.md R25; log 14). -/
  rdata : Word
  /-- The turns of the agents to come; when empty it is CORE's turn (log 2). -/
  inputs : List Input
  /-- The wire's answers to come; when empty an answer is a free value (20_memory.md R86; log 4). -/
  wire : List WireAnswer
  /-- The advances of the time base to come; when empty an advance is a free value (log 5). -/
  elapsed : List Nat
  /-- The number of the next free value (log 4, log 5). -/
  draws : Nat
  /-- The platform's time base (43_driver_lifecycle.md R214; log 5). -/
  now : Nat
  deriving DecidableEq, Repr

/-- A slave entry after reset (10_state.md R40). -/
def Slave.empty : Slave where
  valid := false
  station := 0
  ring := 0
  protocols := 0
  rxOff := 0
  rxSize := 0
  txOff := 0
  txSize := 0

/-- A domain entry after reset (10_state.md R42). -/
def Domain.empty : Domain where
  valid := false
  addr := 0
  buf := { len := 0, mem := [] }
  dg := none
  wstate := .none

/-- A field entry after reset (10_state.md R44). -/
def Field.empty : Field where
  valid := false
  dom := 0
  slave := 0
  locator := 0
  off := 0
  width := 0

/-- The sequencer after reset, with its `DGMAX` bytes of `rbuf` all zero (10_state.md R50, R52). -/
def Sequencer.empty (dgmax : Nat) : Sequencer where
  st := .idle
  slave := 0
  dg := 0
  budget := 0
  rcode := 0
  rknown := false
  rtype := 0
  rlen := 0
  rerr := 0
  rbuf := { len := dgmax, mem := [] }

/-- The state after reset of a BCC with the given parameters and table sizes (10_state.md R61). DESIGN CHOICE: `t0`,
which the spec leaves unspecified, is 0 (log 6), and the model's own fields are empty or 0 (log 2 to log 5,
log 14). -/
def State.initial (p : Config.Params) (z : Config.Sizes) : State where
  par := p
  a0 := 0
  a1 := 0
  a2 := 0
  a3 := 0
  r0 := 0
  r1 := 0
  r2 := 0
  r3 := 0
  err := 0
  life := .released
  phase := .idle
  strategy := .sync
  tickpend := false
  ovr := false
  fatal := false
  cycle := 0
  tPre := 0
  tPost := 0
  tFin := 0
  kdiv := 1
  tickcnt := 0
  fldcnt := 0
  slv := List.replicate z.nslave Slave.empty
  dom := List.replicate z.ndom Domain.empty
  fld := List.replicate z.nfield Field.empty
  dg := List.replicate z.ndg none
  mx := Sequencer.empty p.dgmax
  t0 := 0
  log := []
  held := none
  todo := []
  hostTicks := 0
  rdata := 0
  inputs := []
  wire := []
  elapsed := []
  draws := 0
  now := 0

/-- The machine right after reset (10_state.md R61), with the parameters of the spec's own vectors (log 1). -/
def State.reset : State := State.initial Config.standard Config.standardSizes

end Sys2Proof.Machine
end

