-- ==== Sys2Proof/Machine/Memory.lean ====
section
/-! DEFINITION. Byte spaces (20_memory.md section 1): reading and writing one byte, and the multi-byte accesses of
00_scope.md R12. Byte order is decided here and nowhere else (20_memory.md R73). -/

namespace Sys2Proof.Machine

/-- The byte at index `a`; a byte not listed is 0 (92_eei_decisions.md D9, D20). -/
def Memory.read : Memory → Nat → Byte
  | [], _ => 0#8
  | (k, b) :: m, a => if k = a then b else Memory.read m a

/-- Write one byte and keep the canonical form: writing 0 takes the cell out. -/
def Memory.write : Memory → Nat → Byte → Memory
  | [], a, v => if v = 0#8 then [] else [(a, v)]
  | (k, b) :: m, a, v =>
    if a < k then (if v = 0#8 then (k, b) :: m else (a, v) :: (k, b) :: m)
    else if a = k then (if v = 0#8 then m else (k, v) :: m)
    else (k, b) :: Memory.write m a v

/-- Canonical form, cells from index `lo` up: indices strictly rising, no byte 0. -/
def Memory.wfFrom : Nat → Memory → Bool
  | _, [] => true
  | lo, (k, b) :: m => decide (lo ≤ k) && decide (b ≠ 0#8) && Memory.wfFrom (k + 1) m

/-- The canonical form of a memory. -/
def Memory.wf (m : Memory) : Bool := Memory.wfFrom 0 m

/-- The cells of a list of bytes laid out from index `k` up. -/
def Memory.ofBytes : Nat → List Byte → Memory
  | _, [] => []
  | k, b :: bs => if b = 0#8 then Memory.ofBytes (k + 1) bs else (k, b) :: Memory.ofBytes (k + 1) bs

/-- The cells below index `n`. -/
def Memory.below (n : Nat) (m : Memory) : Memory := m.filter (fun c => decide (c.1 < n))

/-- `n` zero bytes (20_memory.md R81, 41_domain.md R151). -/
def Buf.zero (n : Nat) : Buf := { len := n, mem := [] }

/-- `buf[i]` (00_scope.md R11). -/
def Buf.get (b : Buf) (i : Nat) : Byte := Memory.read b.mem i

/-- `buf[i] <- v`; nothing outside the buffer can be written (20_memory.md R78). -/
def Buf.set (b : Buf) (i : Nat) (v : Byte) : Buf :=
  if i < b.len then { b with mem := Memory.write b.mem i v } else b

/-- A buffer's content is canonical and lies inside the buffer. -/
def Buf.wf (b : Buf) : Bool := Memory.wf b.mem && b.mem.all (fun c => decide (c.1 < b.len))

/-- The buffer that holds exactly the given bytes. -/
def Buf.ofBytes (bs : List Byte) : Buf := { len := bs.length, mem := Memory.ofBytes 0 bs }

/-- All `len(buf)` bytes, byte 0 first. -/
def Buf.toBytes (b : Buf) : List Byte := (List.range b.len).map b.get

/-- `dst <- src`, all `len(dst)` bytes; the length of `dst` never changes (41_domain.md R157). -/
def Buf.copyInto (dst src : Buf) : Buf := { len := dst.len, mem := Memory.below dst.len src.mem }

/-- `dst[0..n) <- src[from..from+n)` (42_scheduler.md R191). -/
def Buf.blit (dst src : Buf) (start : Nat) : Nat → Buf
  | 0 => dst
  | n + 1 => (Buf.blit dst src start n).set n (src.get (start + n))

/-- `rd16(buf, i) = buf[i] + 256 * buf[i+1]` (00_scope.md R12). -/
def Buf.rd16 (b : Buf) (i : Nat) : Half := b.get (i + 1) ++ b.get i

/-- `wr16(buf, i, v)`: low byte first (00_scope.md R12). -/
def Buf.wr16 (b : Buf) (i : Nat) (v : Half) : Buf :=
  (b.set i (v.extractLsb' 0 8)).set (i + 1) (v.extractLsb' 8 8)

/-- The sum of `MemRead` (00_scope.md R12): `sum over k < n of sp[a+k] * 256^k`. -/
def Buf.sumBytes (b : Buf) (a : Nat) : Nat → Nat
  | 0 => 0
  | n + 1 => Buf.sumBytes b a n + (b.get (a + n)).toNat * 256 ^ n

/-- `MemRead(sp, a, n)`; `none` is `raise BufferBounds` (00_scope.md R12). -/
def Buf.memRead (b : Buf) (a n : Nat) : Option Nat :=
  if a + n ≤ b.len then some (b.sumBytes a n) else none

/-- The stores of `MemWrite` (00_scope.md R12): `sp[a+k] <- v[8k+7:8k]` for `k < n`. -/
def Buf.putBytes (b : Buf) (a : Nat) (v : Word) : Nat → Buf
  | 0 => b
  | n + 1 => (Buf.putBytes b a v n).set (a + n) (v.extractLsb' (8 * n) 8)

/-- `MemWrite(sp, a, n, v)`; `none` is `raise BufferBounds` (00_scope.md R12). -/
def Buf.memWrite (b : Buf) (a n : Nat) (v : Word) : Option Buf :=
  if a + n ≤ b.len then some (b.putBytes a v n) else none

end Sys2Proof.Machine
end

