-- ==== Sys2Proof/Machine/Operands.lean ====
section
/-! DEFINITION. The operand forms: the fields packed into A0 to A2 (30_encoding.md R102), and the entry, slot or field an
index names (the tests that raise BadIndex and BadState in the command rules). -/

namespace Sys2Proof.Machine

/-- `v[15:0]` of an argument register (30_encoding.md R102). -/
def lowHalf (w : Word) : Half := w.extractLsb' 0 16

/-- `v[31:16]` of an argument register (30_encoding.md R102). -/
def highHalf (w : Word) : Half := w.extractLsb' 16 16

/-- `v[7:0]` of an argument register (30_encoding.md R102). -/
def byte0 (w : Word) : Byte := w.extractLsb' 0 8

/-- `v[15:8]` of an argument register (30_encoding.md R102). -/
def byte1 (w : Word) : Byte := w.extractLsb' 8 8

/-- A natural as a 32-bit register value (the zero extension of 00_scope.md R13). -/
def toWord (n : Nat) : Word := BitVec.ofNat 32 n

/-- NSLAVE (00_scope.md R8). -/
def State.nslave (s : State) : Nat := s.slv.length

/-- NDOM (00_scope.md R8). -/
def State.ndom (s : State) : Nat := s.dom.length

/-- NFIELD (00_scope.md R8). -/
def State.nfield (s : State) : Nat := s.fld.length

/-- NDG (00_scope.md R8). -/
def State.ndg (s : State) : Nat := s.dg.length

/-- The slave `v` of a command; `none` when `v >= NSLAVE or SLV[v].valid == 0` (40_mailbox.md R124). -/
def State.slaveAt (s : State) (v : Nat) : Option Slave :=
  match s.slv[v]? with
  | some e => if e.valid then some e else none
  | none => none

/-- The domain `d` of a command; `none` when `d >= NDOM or DOM[d].valid == 0` (41_domain.md R152). -/
def State.domainAt (s : State) (d : Nat) : Option Domain :=
  match s.dom[d]? with
  | some x => if x.valid then some x else none
  | none => none

/-- `DG[q]`; `none` when the slot is Free (10_state.md R46). Commands test `q >= NDG` before they ask. -/
def State.slotAt (s : State) (q : Nat) : Option Datagram :=
  match s.dg[q]? with
  | some x => x
  | none => none

/-- `DG[q]` when its state is Done (20_memory.md R86). -/
def State.doneAt (s : State) (q : Nat) : Option Datagram :=
  match s.slotAt q with
  | some x => if x.st = .done then some x else none
  | none => none

/-- `FLD[h]` for a handle `h < FLDCNT` (41_domain.md R153). -/
def State.fieldAt (s : State) (h : Nat) : Option Field :=
  if h < s.fldcnt then s.fld[h]? else none

/-- `DOM[f.dom].buf` (41_domain.md R153). A field always names a domain of the table (10_state.md R60 (e)); where none
is there, the access is out of bounds (log 17). -/
def State.fieldBuf (s : State) (f : Field) : Buf :=
  match s.dom[f.dom]? with
  | some x => x.buf
  | none => Buf.zero 0

/-- Which buffer a host may write with DG_WR: Queued, Write, owned by the host (40_mailbox.md R136). -/
def Datagram.hostWritable (x : Datagram) : Bool :=
  decide (x.st = .queued) && decide (x.kind = .write) && decide (x.owner = .host)

/-- Which slots of the pool are in flight (10_state.md R26). -/
def Slot.isInFlight : Slot → Bool
  | some x => decide (x.st = .inFlight)
  | none => false

end Sys2Proof.Machine
end

