-- ==== Sys2Proof/Machine/Flags.lean ====
section
/-! DEFINITION. Every code and packed register of the host interface: error numbers (60_exceptions.md R240), ERR
(10_state.md R27), STATUS (10_state.md R26), the packings of DG_STAT (40_mailbox.md R138) and MBX_XSTAT
(42_scheduler.md R192). -/

namespace Sys2Proof.Machine

/-- The errors a command or the sequencer can report (60_exceptions.md R240). -/
inductive Err where
  | unsupportedMailbox
  | payloadTooLarge
  | corruptMailboxFrame
  | mailboxErrorReply
  | pollTimeout
  | cycleOverrun
  | domainAlreadyActive
  | transportFailure
  | transportExhausted
  | badState
  | badIndex
  | badOperand
  | bufferBounds
  | busy
  | illegalCommand
  | tableFull
  deriving DecidableEq, Repr

/-- The number of an error (60_exceptions.md R240). -/
def errNumber : Err → Byte
  | .unsupportedMailbox => 1
  | .payloadTooLarge => 2
  | .corruptMailboxFrame => 3
  | .mailboxErrorReply => 4
  | .pollTimeout => 5
  | .cycleOverrun => 6
  | .domainAlreadyActive => 7
  | .transportFailure => 8
  | .transportExhausted => 9
  | .badState => 10
  | .badIndex => 11
  | .badOperand => 12
  | .bufferBounds => 13
  | .busy => 14
  | .illegalCommand => 15
  | .tableFull => 16

/-- ERR: `code` in 7:0, `known` in 8, zeros in 15:9, `info` in 31:16 (10_state.md R27). -/
def errWord (code : Byte) (known : Bool) (info : Half) : Word :=
  info ++ 0#7 ++ BitVec.ofBool known ++ code

/-- STATUS bits 1:0 (10_state.md R26). -/
def lifeCode : Life → BitVec 2
  | .released => 0
  | .configuring => 1
  | .active => 2

/-- STATUS bits 4:2 (10_state.md R26). -/
def phaseCode : Phase → BitVec 3
  | .idle => 0
  | .sending => 1
  | .awaitingReceive => 2
  | .processing => 3
  | .app => 4

/-- STATUS bit 5 (10_state.md R26). -/
def strategyCode : Strategy → BitVec 1
  | .sync => 0
  | .async => 1

/-- STATUS bits 12:10 and R0 of MBX_XSTAT (10_state.md R26, 42_scheduler.md R192). -/
def mxCode : MxState → BitVec 3
  | .idle => 0
  | .sendWait => 1
  | .pollReady => 2
  | .pollWait => 3
  | .fetchReady => 4
  | .fetchWait => 5
  | .done => 6

/-- STATUS.inflight: some slot is InFlight (10_state.md R26). -/
def State.inflight (s : State) : Bool := s.dg.any Slot.isInFlight

/-- STATUS.cmderr: `ERR[7:0] != 0` (10_state.md R26). -/
def State.cmderr (s : State) : Bool := decide (s.err.extractLsb' 0 8 ≠ 0)

/-- STATUS, a view of other state (10_state.md R26). -/
def State.statusWord (s : State) : Word :=
  0#18 ++ BitVec.ofBool s.cmderr ++ mxCode s.mx.st ++ BitVec.ofBool s.inflight ++ BitVec.ofBool s.fatal ++
    BitVec.ofBool s.ovr ++ BitVec.ofBool s.tickpend ++ strategyCode s.strategy ++ phaseCode s.phase ++ lifeCode s.life

/-- `st` as DG_STAT shows it; 0 is Free (40_mailbox.md R138). -/
def dgStateCode : DgState → Word
  | .queued => 1
  | .inFlight => 2
  | .done => 3

/-- `status` as DG_STAT shows it (40_mailbox.md R138). -/
def statusCode : Status → Word
  | .pending => 0
  | .ok => 1
  | .notActed => 2
  | .lost => 3

/-- `kind` as DG_STAT shows it (40_mailbox.md R138). -/
def kindCode : Kind → BitVec 2
  | .read => 0
  | .write => 1
  | .exchange => 2

/-- The owner class as DG_STAT shows it (40_mailbox.md R138). -/
def ownerClass : Owner → BitVec 2
  | .host => 0
  | .seq => 1
  | .dom _ => 2

/-- The domain index of an owner, 0 when it is no domain (40_mailbox.md R138). -/
def ownerDomain : Owner → Byte
  | .host => 0
  | .seq => 0
  | .dom d => BitVec.ofNat 8 d

/-- R3 of DG_STAT: kind in 1:0, owner class in 9:8, domain index in 23:16 (40_mailbox.md R138). -/
def dgStatWord (x : Datagram) : Word :=
  0#8 ++ ownerDomain x.owner ++ 0#6 ++ ownerClass x.owner ++ 0#6 ++ kindCode x.kind

/-- R1 of MBX_XSTAT: `rcode` in 7:0, `rknown` in 8 (42_scheduler.md R192). -/
def xstatCodeWord (m : Sequencer) : Word := 0#23 ++ BitVec.ofBool m.rknown ++ m.rcode

/-- R2 of MBX_XSTAT: `rtype` in 3:0, `rlen` in 31:16 (42_scheduler.md R192). -/
def xstatLengthWord (m : Sequencer) : Word := m.rlen ++ 0#12 ++ m.rtype

/-- The status a completed slot takes from the wire's answer (20_memory.md R86, R87). -/
def statusOfWire : WireStatus → Status
  | .ok => .ok
  | .notActed => .notActed
  | .lost => .lost

/-- `failed(s)`: the status is NotActed or Lost (20_memory.md R87). -/
def Status.failed : Status → Bool
  | .pending => false
  | .ok => false
  | .notActed => true
  | .lost => true

end Sys2Proof.Machine
end

