-- ==== Sys2Proof/Machine/Frame.lean ====
section
/-! DEFINITION. The bytes of a mailbox frame as pure functions: the header (40_mailbox.md R121, R125), the readiness flag
(R127), the validation and decoding of a response (R130), and the error table (R133). -/

namespace Sys2Proof.Machine

/-- `mbx_header(payload_size, station, t)` (40_mailbox.md R125). -/
def mbxHeader (size : Nat) (station : Half) (t : Byte) : List Byte :=
  [(BitVec.ofNat 16 size).extractLsb' 0 8, (BitVec.ofNat 16 size).extractLsb' 8 8,
   station.extractLsb' 0 8, station.extractLsb' 8 8, 0, t]

/-- The header writes of MBX_PREP_SEND: length, station, channel and priority (reserved, zero), protocol type
(40_mailbox.md R124). -/
def putHeader (b : Buf) (size : Nat) (station : Half) (t : Byte) : Buf :=
  (((b.wr16 0 (BitVec.ofNat 16 size)).wr16 2 station).set 4 0).set 5 t

/-- `mbx_ready(data) = data[5][3]` (40_mailbox.md R127). -/
def mbxReady (b : Buf) : Bool := (b.get 5).getLsbD 3

/-- The outcomes of `fetch_decode` (40_mailbox.md R130). -/
inductive Fetched where
  | corrupt
  | bounds
  | errorReply (code : Half)
  | data (type : BitVec 4) (length : Half)
  deriving DecidableEq, Repr

/-- `fetch_decode(tx_size, data)` (40_mailbox.md R130), tests in the order of R131. -/
def fetchDecode (txSize : Nat) (b : Buf) : Fetched :=
  if txSize < 6 then .corrupt
  else if b.len < 6 then .bounds
  else if txSize < (b.rd16 0).toNat + 6 then .corrupt
  else if (b.get 5).extractLsb' 0 4 = 0 then
    (if b.len < 10 then .bounds else .errorReply (b.rd16 8))
  else if b.len < 6 + (b.rd16 0).toNat then .bounds
  else .data ((b.get 5).extractLsb' 0 4) (b.rd16 0)

/-- Whether ERRTAB has a code (40_mailbox.md R132). -/
def State.errKnown (s : State) (code : Half) : Bool := (s.par.errtab.lookup code).isSome

/-- `errtext(c)`: the description, or "unknown code" (40_mailbox.md R133). -/
def State.errText (s : State) (code : Half) : String := (s.par.errtab.lookup code).getD "unknown code"

end Sys2Proof.Machine
end

