-- ==== Sys2Proof/Machine/Ops.lean ====
section
/-! DEFINITION. The operations the meanings share: ending a command (60_exceptions.md R245), lending and giving back
slots (20_memory.md R81 to R83), stopping (43_driver_lifecycle.md R225, R228), the time base (R214), taking a tick and
ending its cycle (42_scheduler.md R172, R179). -/

namespace Sys2Proof.Machine

/-! ## The end of a command -/

/-- `raise E(info)`: the one way a command fails. ERR takes the error's number, `known` and `info`; nothing else changes
(60_exceptions.md R245). There is no handler and no return from an error (R245, R247). -/
def State.raiseWith (s : State) (e : Err) (known : Bool) (info : Half) : State :=
  { s with err := errWord (errNumber e) known info }

/-- `raise E` for the errors that carry no data (60_exceptions.md R240, R245). -/
def State.raise (s : State) (e : Err) : State := s.raiseWith e false 0

/-- A command that succeeds writes 0 to ERR (10_state.md R27). -/
def State.succeed (s : State) : State := { s with err := 0 }

/-- The outcome of a command that ends with `raise E`: a normal next state (60_exceptions.md R262). -/
def failCommand (s : State) (e : Err) : Host.Outcome State Fault Refusal := .next (s.raise e)

/-- The outcome of a command that succeeds in state `s`. -/
def endCommand (s : State) : Host.Outcome State Fault Refusal := .next s.succeed

/-- `log(e)` (00_scope.md R14). -/
def State.addLog (s : State) (e : LogEvent) : State := { s with log := s.log ++ [e] }

/-! ## Slots -/

/-- The lowest-numbered Free slot (20_memory.md R81). -/
def firstFree : List Slot → Option Nat
  | [] => none
  | none :: _ => some 0
  | some _ :: r => (firstFree r).map (· + 1)

/-- Put a datagram in slot `q`. -/
def State.setSlot (s : State) (q : Nat) (x : Slot) : State := { s with dg := s.dg.set q x }

/-- Take the lowest Free slot for a datagram; `none` when there is none (20_memory.md R81, R84). -/
def State.borrow (s : State) (x : Datagram) : Option (Nat × State) :=
  match firstFree s.dg with
  | some q => some (q, s.setSlot q (some x))
  | none => none

/-- The datagram of `T_READ(station, offset, len, owner, slv)`: Queued, `len` zero bytes, Pending (20_memory.md R81).
`addr` is not set: it belongs to Exchange datagrams (log 7). -/
def readDatagram (station offset : Half) (len : Nat) (owner : Owner) (slv : Option Nat) : Datagram where
  st := .queued
  kind := .read
  station := station
  offset := offset
  addr := none
  data := Buf.zero len
  status := .pending
  owner := owner
  slv := slv

/-- The datagram of `T_WRITE`: that of `T_READ` with `kind = Write` (20_memory.md R82). -/
def writeDatagram (station offset : Half) (len : Nat) (owner : Owner) (slv : Option Nat) : Datagram :=
  { readDatagram station offset len owner slv with kind := .write }

/-- The datagram of `T_EXCH(addr, len, owner)` (20_memory.md R83). -/
def exchangeDatagram (addr : Word) (len : Nat) (owner : Owner) : Datagram :=
  { readDatagram 0 0 len owner none with kind := .exchange, addr := some addr }

/-! ## Stopping -/

/-- `DOM[d].dg <- None`. -/
def Domain.unlink (x : Domain) : Domain := { x with dg := none }

/-- `halt()` (43_driver_lifecycle.md R225). No micro-operation is left to run. -/
def State.halt (s : State) : State :=
  { s with
    life := .configuring
    phase := .idle
    tickpend := false
    dg := s.dg.map (fun _ => none)
    dom := s.dom.map Domain.unlink
    mx := { s.mx with st := .idle }
    todo := [] }

/-- `Fatal()` (43_driver_lifecycle.md R228). -/
def State.fatalStop (s : State) : State := { s.halt with fatal := true }

/-- What a host command does when no slot is Free: `Fatal()`, then `raise TransportExhausted` (20_memory.md R84). -/
def exhaustedCommand (s : State) : Host.Outcome State Fault Refusal := failCommand s.fatalStop .transportExhausted

/-! ## Time -/

/-- How far the time base advances at this reading: the advance listed, else a free value (43_driver_lifecycle.md R214;
log 5). -/
def State.advance (s : State) : Nat :=
  match s.elapsed with
  | d :: _ => d
  | [] => Config.freeElapsed s.draws

/-- Read the time base: it has advanced by some amount, 0 or more (43_driver_lifecycle.md R214). -/
def State.readTime (s : State) : State :=
  { s with now := s.now + s.advance, elapsed := s.elapsed.tail, draws := s.draws + 1 }

/-- The time since cycle start as a telemetry value, below 2^32 (43_driver_lifecycle.md R214; log 5). -/
def State.sinceStart (s : State) : Word := toWord (min (s.now - s.t0) (2 ^ 32 - 1))

/-! ## The tick: taking it and ending its cycle -/

/-- The outgoing half of a cycle (42_scheduler.md R173, R174). -/
def outgoing : List MicroOp := [.rel, .queueAll, .mbxOut, .sendAll]

/-- The incoming half of a cycle, from RECV_ALL to the App window (42_scheduler.md R173, R174). -/
def incoming : List MicroOp := [.recvAll, .toProcessing, .processAll, .mbxIn, .toApp]

/-- What runs before the App window (42_scheduler.md R173, R174). -/
def cycleProgram : Strategy → List MicroOp
  | .sync => outgoing ++ .toAwaiting :: incoming
  | .async => incoming

/-- What runs after APP_DONE under the asynchronous strategy (42_scheduler.md R174). -/
def closingProgram : List MicroOp := outgoing ++ [.endCycle]

/-- The phase a cycle starts in (42_scheduler.md R172). -/
def firstPhase : Strategy → Phase
  | .sync => .sending
  | .async => .awaitingReceive

/-- `start_cycle` (42_scheduler.md R172), the block's trap entry (60_exceptions.md R254): count the cycle, mark its start
time, write T_PRE, enter the first phase of the strategy's program. -/
def State.startCycle (s : State) : State :=
  let s1 := s.readTime
  let s2 := State.readTime { s1 with t0 := s1.now }
  { s2 with
    cycle := s.cycle + 1
    tPre := s2.sinceStart
    phase := firstPhase s.strategy
    todo := cycleProgram s.strategy }

/-- FWD emits `host_tick` now: this is the K-th completed cycle since the last one (43_driver_lifecycle.md R213). The sum
is a natural and does not wrap (44_common_laws.md R231). -/
def State.ratioReached (s : State) : Bool := decide (s.kdiv.toNat ≤ s.tickcnt.toNat + 1)

/-- FWD (43_driver_lifecycle.md R213): `host_tick` on every K-th completed cycle. -/
def State.fwd (s : State) : State :=
  { s with
    tickcnt := if s.ratioReached then 0 else toWord (s.tickcnt.toNat + 1)
    hostTicks := if s.ratioReached then s.hostTicks + 1 else s.hostTicks }

/-- T_FIN and the budget test of `end_cycle` (42_scheduler.md R179, 43_driver_lifecycle.md R216 (a)). -/
def State.finishTiming (s : State) : State :=
  let s1 := s.readTime
  { s1 with tFin := s1.sinceStart, ovr := s.ovr || decide (s.par.budget.toNat < s1.sinceStart.toNat) }

/-- `end_cycle` (42_scheduler.md R179), the block's trap return (60_exceptions.md R254): timing, FWD, Idle; a pending
tick starts the next cycle in the same step (R176). -/
def State.endCycle (s : State) : State :=
  let s1 := s.finishTiming.fwd
  let s2 := { s1 with phase := .idle, todo := [] }
  if s2.tickpend then State.startCycle { s2 with tickpend := false } else s2

/-- A tick (43_driver_lifecycle.md R210, R211): ignored while not Active; starts a cycle in Idle; else waits in
`tickpend`, or is lost when one already waits; both leave `ovr`. -/
def State.tick (s : State) : State :=
  if s.life ≠ .active then s
  else if s.phase = .idle then s.startCycle
  else if s.tickpend = false then { s with tickpend := true, ovr := true }
  else { s with ovr := true }

end Sys2Proof.Machine
end

