-- ==== Sys2Proof/Machine/Micro.lean ====
section
/-! DEFINITION. The micro-operations of a cycle (44_common_laws.md R230) and the step that runs one of them. None of them
writes ERR or a result register (10_state.md R22, R27). -/

namespace Sys2Proof.Machine

/-- REL on one slot: Done goes to Free (20_memory.md R88). -/
def relSlot : Slot → Slot
  | some x => if x.st = .done then none else some x
  | none => none

/-- REL (20_memory.md R88). -/
def State.rel (s : State) : State := { s with dg := s.dg.map relSlot }

/-- The datagram QUEUE_ALL builds for domain `d`: T_EXCH, then all bytes of the exchange buffer (41_domain.md R156). -/
def queuedDatagram (d : Nat) (x : Domain) : Datagram :=
  { exchangeDatagram x.addr x.buf.len (.dom d) with data := x.buf }

/-- QUEUE_ALL from domain `d` on; no Free slot is `Fatal()` and ends the cycle (41_domain.md R156, 20_memory.md R84). -/
def queueLoop : List Domain → Nat → State → State
  | [], _, s => s
  | x :: xs, d, s =>
    if x.valid then
      match s.borrow (queuedDatagram d x) with
      | some (q, s1) => queueLoop xs (d + 1) { s1 with dom := s1.dom.set d { x with dg := some q } }
      | none => s.fatalStop
    else queueLoop xs (d + 1) s

/-- QUEUE_ALL: every valid domain, ascending index (41_domain.md R155, R156). -/
def State.queueAll (s : State) : State := queueLoop s.dom 0 s

/-- The slave entry the sequencer's exchange is with (10_state.md R50). It always names an entry; where none is there its
fields are 0 (log 17). -/
def State.mxSlave (s : State) : Slave :=
  match s.slv[s.mx.slave]? with
  | some e => e
  | none => Slave.empty

/-- Borrow a slot for the sequencer and wait for it in state `next`; no Free slot is `Fatal()` (42_scheduler.md R186). -/
def State.mxIssue (s : State) (x : Datagram) (next : MxState) : State :=
  match s.borrow x with
  | some (q, s1) => { s1 with mx := { s1.mx with dg := q, st := next } }
  | none => s.fatalStop

/-- The readiness poll of a slave: 8 bytes at MBX_STATE_ADDR (40_mailbox.md R126). -/
def State.pollDatagram (s : State) (e : Slave) (owner : Owner) (v : Nat) : Datagram :=
  readDatagram e.station s.par.mbxStateAddr 8 owner (some v)

/-- The fetch of a slave's transmit mailbox (40_mailbox.md R129). -/
def fetchDatagram (e : Slave) (owner : Owner) (v : Nat) : Datagram :=
  readDatagram e.station e.txOff e.txSize.toNat owner (some v)

/-- MBX_OUT (42_scheduler.md R186). -/
def State.mbxOut (s : State) : State :=
  match s.mx.st with
  | .pollReady => s.mxIssue (s.pollDatagram s.mxSlave .seq s.mx.slave) .pollWait
  | .fetchReady => s.mxIssue (fetchDatagram s.mxSlave .seq s.mx.slave) .fetchWait
  | .idle => s
  | .sendWait => s
  | .pollWait => s
  | .fetchWait => s
  | .done => s

/-- SEND_ALL on one slot: Queued goes to InFlight (20_memory.md R85). -/
def sendSlot : Slot → Slot
  | some x => if x.st = .queued then some { x with st := .inFlight } else some x
  | none => none

/-- SEND_ALL (20_memory.md R85). -/
def State.sendAll (s : State) : State := { s with dg := s.dg.map sendSlot }

/-- The status the wire answers with: the answer listed, else a free value (20_memory.md R86; log 4). -/
def answerStatus (wire : List WireAnswer) (n : Nat) : WireStatus :=
  match wire with
  | w :: _ => w.status
  | [] => Config.freeStatus n

/-- Byte `i` of the wire's answer: the byte listed, else a free value (20_memory.md R86; log 4). -/
def answerByte (wire : List WireAnswer) (n i : Nat) : Byte :=
  match wire with
  | w :: _ =>
    match w.bytes[i]? with
    | some b => b
    | none => Config.freeByte n i
  | [] => Config.freeByte n i

/-- The `len` bytes the wire answers with (20_memory.md R86). -/
def answerBytes (wire : List WireAnswer) (n len : Nat) : List Byte := (List.range len).map (answerByte wire n)

/-- RECV_ALL on one slot in flight: status and bytes are the answer's, the state is Done (20_memory.md R86). -/
def completeSlot (wire : List WireAnswer) (n : Nat) (x : Datagram) : Datagram :=
  { x with
    status := statusOfWire (answerStatus wire n)
    data := Buf.ofBytes (answerBytes wire n x.data.len)
    st := .done }

/-- What RECV_ALL leaves: the slots, the answers and draws not used, and whether some answer was Lost. -/
structure Received where
  slots : List Slot
  wire : List WireAnswer
  draws : Nat
  lost : Bool
  deriving DecidableEq, Repr

/-- RECV_ALL over the pool: one answer for each slot in flight (20_memory.md R86), in slot order (log 4). -/
def recvLoop : List Slot → List WireAnswer → Nat → Received
  | [], w, n => { slots := [], wire := w, draws := n, lost := false }
  | none :: r, w, n =>
    let o := recvLoop r w n
    { o with slots := none :: o.slots }
  | some x :: r, w, n =>
    if x.st = .inFlight then
      let o := recvLoop r w.tail (n + 1)
      { o with slots := some (completeSlot w n x) :: o.slots, lost := decide (answerStatus w n = .lost) || o.lost }
    else
      let o := recvLoop r w n
      { o with slots := some x :: o.slots }

/-- RECV_ALL (20_memory.md R86): a Lost answer under the synchronous strategy sets `ovr`. -/
def State.recvAll (s : State) : State :=
  let o := recvLoop s.dg s.wire s.draws
  { s with dg := o.slots, wire := o.wire, draws := o.draws, ovr := s.ovr || (decide (s.strategy = .sync) && o.lost) }

/-- PROCESS_ALL on one domain (41_domain.md R157): a Done slot is copied in when its status is Ok and only noted when it
failed; then the slot is let go. -/
def processDomain (s : State) (x : Domain) : Domain :=
  match x.dg with
  | none => x
  | some q =>
    match s.doneAt q with
    | none => x
    | some y =>
      if y.status = .ok then { x with buf := x.buf.copyInto y.data, wstate := .ok, dg := none }
      else { x with wstate := .fail, dg := none }

/-- PROCESS_ALL (41_domain.md R157). No domain's step reads or writes another domain's entry (R155). -/
def State.processAll (s : State) : State :=
  { s with dom := s.dom.map (fun x => if x.valid then processDomain s x else x) }

/-- `finish(c)` (42_scheduler.md R190). -/
def Sequencer.finish (m : Sequencer) (code : Byte) : Sequencer := { m with rcode := code, st := .done }

/-- MBX_IN in FetchWait: `fetch_decode`, the log entries of MBX_FETCH, and the payload copied out of the borrowed buffer
(42_scheduler.md R191). -/
def State.mxFetched (s : State) (x : Datagram) : State :=
  match fetchDecode s.mxSlave.txSize.toNat x.data with
  | .corrupt =>
    { s.addLog (.corruptFrame s.mx.slave x.data.toBytes) with mx := s.mx.finish (errNumber .corruptMailboxFrame) }
  | .bounds => { s with mx := s.mx.finish (errNumber .bufferBounds) }
  | .errorReply c =>
    { s.addLog (.errorReply s.mx.slave c (s.errText c)) with
      mx := Sequencer.finish { s.mx with rerr := c, rknown := s.errKnown c } (errNumber .mailboxErrorReply) }
  | .data t n =>
    { s with mx := Sequencer.finish { s.mx with rtype := t, rlen := n, rbuf := s.mx.rbuf.blit x.data 6 n.toNat } 0 }

/-- MBX_IN in PollWait: the flag leads to the fetch; without it one poll of the budget is used up
(42_scheduler.md R190, R195). The difference is a natural, never below 0 (44_common_laws.md R231). -/
def Sequencer.polled (m : Sequencer) (x : Datagram) : Sequencer :=
  if mbxReady x.data then { m with st := .fetchReady }
  else if m.budget.toNat - 1 = 0 then Sequencer.finish { m with budget := 0 } (errNumber .pollTimeout)
  else { m with budget := BitVec.ofNat 16 (m.budget.toNat - 1), st := .pollReady }

/-- MBX_IN once the slot waited for is Done and not failed (42_scheduler.md R190). -/
def State.mxAnswered (s : State) (x : Datagram) : State :=
  match s.mx.st with
  | .sendWait => { s with mx := { s.mx with st := .pollReady } }
  | .pollWait => { s with mx := s.mx.polled x }
  | .fetchWait => s.mxFetched x
  | .idle => s
  | .pollReady => s
  | .fetchReady => s
  | .done => s

/-- The sequencer waits for a slot (42_scheduler.md R190). -/
def MxState.waiting : MxState → Bool
  | .sendWait => true
  | .pollWait => true
  | .fetchWait => true
  | .idle => false
  | .pollReady => false
  | .fetchReady => false
  | .done => false

/-- MBX_IN (42_scheduler.md R190): status before bytes; a failed datagram ends the exchange. -/
def State.mbxIn (s : State) : State :=
  if s.mx.st.waiting then
    match s.doneAt s.mx.dg with
    | none => s
    | some x =>
      if x.status.failed then { s with mx := s.mx.finish (errNumber .transportFailure) } else s.mxAnswered x
  else s

/-- Entry to the App window: T_POST is written (42_scheduler.md R173, R174, 43_driver_lifecycle.md R214). -/
def State.toApp (s : State) : State :=
  let s1 := s.readTime
  { s1 with phase := .app, tPost := s1.sinceStart }

/-- One step of a cycle program (42_scheduler.md R173 to R175). -/
def State.runMicro (s : State) : MicroOp → State
  | .rel => s.rel
  | .queueAll => s.queueAll
  | .mbxOut => s.mbxOut
  | .sendAll => s.sendAll
  | .toAwaiting => { s with phase := .awaitingReceive }
  | .recvAll => s.recvAll
  | .toProcessing => { s with phase := .processing }
  | .processAll => s.processAll
  | .mbxIn => s.mbxIn
  | .toApp => s.toApp
  | .endCycle => s.endCycle

end Sys2Proof.Machine
end

