-- ==== Sys2Proof/Machine/Datagrams.lean ====
section
/-! DEFINITION. The buffer access commands DG_RD, DG_WR and DG_STAT (40_mailbox.md R135, R136, R138). -/

namespace Sys2Proof.Machine

/-- DG_RD (40_mailbox.md R135). -/
def execDgRd (q i : Nat) (s : State) : Host.Outcome State Fault Refusal :=
  if s.life ≠ .active then failCommand s .badState
  else if s.ndg ≤ q then failCommand s .badIndex
  else match s.slotAt q with
    | none => failCommand s .badState
    | some x =>
      if x.data.len ≤ i then failCommand s .bufferBounds
      else endCommand { s with r0 := (x.data.get i).setWidth 32 }

/-- DG_WR (40_mailbox.md R136). -/
def execDgWr (q i : Nat) (s : State) : Host.Outcome State Fault Refusal :=
  if s.life ≠ .active then failCommand s .badState
  else if s.ndg ≤ q then failCommand s .badIndex
  else match s.slotAt q with
    | none => failCommand s .badState
    | some x =>
      if x.hostWritable = false then failCommand s .badState
      else if i < 6 ∨ x.data.len ≤ i then failCommand s .bufferBounds
      else endCommand (s.setSlot q (some { x with data := x.data.set i (byte0 s.a0) }))

/-- DG_STAT (40_mailbox.md R138). A Free slot is no error: it answers zeros. -/
def execDgStat (q : Nat) (s : State) : Host.Outcome State Fault Refusal :=
  if s.life ≠ .active then failCommand s .badState
  else if s.ndg ≤ q then failCommand s .badIndex
  else match s.slotAt q with
    | none => endCommand { s with r0 := 0, r1 := 0, r2 := 0, r3 := 0 }
    | some x => endCommand { s with
        r0 := dgStateCode x.st
        r1 := statusCode x.status
        r2 := toWord x.data.len
        r3 := dgStatWord x }

end Sys2Proof.Machine
end

