-- ==== Sys2Proof/Machine/Domains.lean ====
section
/-! DEFINITION. The domain commands (41_domain.md R151 to R154). -/

namespace Sys2Proof.Machine

/-- The entry DOM_CREATE makes (41_domain.md R151). -/
def freshDomain (size : Nat) (addr : Word) : Domain where
  valid := true
  addr := addr
  buf := Buf.zero size
  dg := none
  wstate := .none

/-- DOM_CREATE (41_domain.md R151). -/
def execDomCreate (d size : Nat) (s : State) : Host.Outcome State Fault Refusal :=
  if s.life = .active then failCommand s .domainAlreadyActive
  else if s.life ≠ .configuring then failCommand s .badState
  else if s.ndom ≤ d ∨ (s.domainAt d).isSome = true then failCommand s .badIndex
  else if size = 0 ∨ s.par.dgmax < size then failCommand s .badOperand
  else endCommand { s with dom := s.dom.set d (freshDomain size s.a0) }

/-- The slave index operand of DOM_REG_FIELD, A0[7:0] (41_domain.md R152). -/
def fieldSlave (s : State) : Nat := (byte0 s.a0).toNat

/-- The width operand of DOM_REG_FIELD, A0[15:8] (41_domain.md R152). -/
def fieldWidth (s : State) : Nat := (byte1 s.a0).toNat

/-- The entry DOM_REG_FIELD makes (41_domain.md R152). -/
def fieldOperand (s : State) (d off : Nat) : Field where
  valid := true
  dom := d
  slave := fieldSlave s
  locator := s.a1
  off := off
  width := fieldWidth s

/-- `width in {1, 2, 4}` (41_domain.md R152). -/
def legalWidth (w : Nat) : Bool := decide (w = 1) || decide (w = 2) || decide (w = 4)

/-- DOM_REG_FIELD (41_domain.md R152). -/
def execDomRegField (d off : Nat) (s : State) : Host.Outcome State Fault Refusal :=
  if s.life = .active then failCommand s .domainAlreadyActive
  else if s.life ≠ .configuring then failCommand s .badState
  else match s.domainAt d with
    | none => failCommand s .badIndex
    | some x =>
      match s.slaveAt (fieldSlave s) with
      | none => failCommand s .badIndex
      | some _ =>
        if legalWidth (fieldWidth s) = false then failCommand s .badOperand
        else if x.buf.len < off + fieldWidth s then failCommand s .badOperand
        else if s.nfield ≤ s.fldcnt then failCommand s .tableFull
        else endCommand { s with
          fld := s.fld.set s.fldcnt (fieldOperand s d off)
          fldcnt := s.fldcnt + 1
          r0 := toWord s.fldcnt }

/-- FLD_RD (41_domain.md R153). -/
def execFldRd (h : Nat) (s : State) : Host.Outcome State Fault Refusal :=
  if s.life ≠ .active ∨ s.phase ≠ .app then failCommand s .badState
  else match s.fieldAt h with
    | none => failCommand s .badIndex
    | some f =>
      match (s.fieldBuf f).memRead f.off f.width with
      | none => failCommand s .bufferBounds
      | some n => endCommand { s with r0 := toWord n }

/-- Replace the exchange buffer of domain `d`. -/
def State.setDomBuf (s : State) (d : Nat) (b : Buf) : State :=
  { s with dom := s.dom.modify d (fun x => { x with buf := b }) }

/-- FLD_WR (41_domain.md R154). -/
def execFldWr (h : Nat) (s : State) : Host.Outcome State Fault Refusal :=
  if s.life ≠ .active ∨ s.phase ≠ .app then failCommand s .badState
  else match s.fieldAt h with
    | none => failCommand s .badIndex
    | some f =>
      match (s.fieldBuf f).memWrite f.off f.width s.a0 with
      | none => failCommand s .bufferBounds
      | some b => endCommand (s.setDomBuf f.dom b)

end Sys2Proof.Machine
end

