-- ==== Sys2Proof/Machine/Lifecycle.lean ====
section
/-! DEFINITION. The lifecycle commands (43_driver_lifecycle.md R220 to R226). -/

namespace Sys2Proof.Machine

/-- SLV, DOM and FLD at their reset values, FLDCNT 0 (43_driver_lifecycle.md R226). -/
def State.clearTables (s : State) : State :=
  { s with
    slv := s.slv.map (fun _ => Slave.empty)
    dom := s.dom.map (fun _ => Domain.empty)
    fld := s.fld.map (fun _ => Field.empty)
    fldcnt := 0 }

/-- "every piece of state except A0..A3, R0..R3 and LOG takes its reset value" (43_driver_lifecycle.md R220; 10_state.md
R61). The parameters, the outputs already given and what the environment will do are not state of the block (10_state.md
R59; log 13). -/
def State.clearSession (s : State) : State :=
  { s.clearTables with
    err := 0
    life := .released
    phase := .idle
    strategy := .sync
    tickpend := false
    ovr := false
    fatal := false
    cycle := 0
    tPre := 0
    tPost := 0
    tFin := 0
    kdiv := 1
    tickcnt := 0
    dg := s.dg.map (fun _ => none)
    mx := Sequencer.empty s.par.dgmax
    t0 := 0
    held := none
    todo := [] }

/-- The reset event (70_reset_and_hazards.md R280, R282): every piece of state takes its reset value; the trace starts
empty. -/
def State.hardReset (s : State) : State :=
  { s.clearSession with
    a0 := 0
    a1 := 0
    a2 := 0
    a3 := 0
    r0 := 0
    r1 := 0
    r2 := 0
    r3 := 0
    log := []
    hostTicks := 0
    rdata := 0 }

/-- ACQUIRE (43_driver_lifecycle.md R220). -/
def execAcquire (s : State) : Host.Outcome State Fault Refusal :=
  if s.life ≠ .released then failCommand s .badState
  else endCommand { s.clearSession with life := .configuring }

/-- The entry SLAVE_SET writes, from the station address and A0 to A2 (43_driver_lifecycle.md R221). -/
def slaveOperand (s : State) (station : Half) : Slave where
  valid := true
  station := station
  ring := lowHalf s.a0
  protocols := highHalf s.a0
  rxOff := lowHalf s.a1
  rxSize := highHalf s.a1
  txOff := lowHalf s.a2
  txSize := highHalf s.a2

/-- SLAVE_SET (43_driver_lifecycle.md R221). -/
def execSlaveSet (i : Nat) (station : Half) (s : State) : Host.Outcome State Fault Refusal :=
  if s.life ≠ .configuring then failCommand s .badState
  else if s.nslave ≤ i then failCommand s .badIndex
  else if s.par.dgmax < (highHalf s.a1).toNat ∨ s.par.dgmax < (highHalf s.a2).toNat then failCommand s .badOperand
  else endCommand { s with slv := s.slv.set i (slaveOperand s station) }

/-- `DOM[d].dg <- None ; DOM[d].wstate <- None` (43_driver_lifecycle.md R223). -/
def Domain.restart (x : Domain) : Domain := { x with dg := none, wstate := .none }

/-- The writes of ACTIVATE (43_driver_lifecycle.md R223). -/
def State.activated (s : State) (strategy : Strategy) : State :=
  { s with
    strategy := strategy
    kdiv := s.a0
    cycle := 0
    tickcnt := 0
    tickpend := false
    tPre := 0
    tPost := 0
    tFin := 0
    dg := s.dg.map (fun _ => none)
    dom := s.dom.map Domain.restart
    mx := { s.mx with st := .idle }
    phase := .idle
    todo := []
    life := .active }

/-- ACTIVATE (43_driver_lifecycle.md R223). -/
def execActivate (strategy : Strategy) (s : State) : Host.Outcome State Fault Refusal :=
  if s.life ≠ .configuring ∨ s.fatal = true then failCommand s .badState
  else if s.a0 = 0 then failCommand s .badOperand
  else endCommand (s.activated strategy)

/-- DEACTIVATE (43_driver_lifecycle.md R225). -/
def execDeactivate (s : State) : Host.Outcome State Fault Refusal :=
  if s.life ≠ .active then failCommand s .badState else endCommand s.halt

/-- RELEASE (43_driver_lifecycle.md R226). -/
def execRelease (s : State) : Host.Outcome State Fault Refusal :=
  if s.life ≠ .configuring then failCommand s .badState
  else endCommand { s.clearTables with life := .released }

end Sys2Proof.Machine
end

