-- ==== Sys2Proof/Machine/Mailbox.lean ====
section
/-! DEFINITION. The mailbox engine's commands (40_mailbox.md R124 to R132). They are legal only while Active (R137). -/

namespace Sys2Proof.Machine

/-- The request MBX_PREP_SEND frames: a Write of the whole receive mailbox with the header in its first 6 bytes
(40_mailbox.md R124). -/
def requestDatagram (e : Slave) (v size : Nat) (t : Byte) : Datagram :=
  { writeDatagram e.station e.rxOff e.rxSize.toNat .host (some v) with
    data := putHeader (Buf.zero e.rxSize.toNat) size e.station t }

/-- MBX_PREP_SEND (40_mailbox.md R124). -/
def execMbxPrepSend (v size : Nat) (s : State) : Host.Outcome State Fault Refusal :=
  if s.life ≠ .active then failCommand s .badState
  else match s.slaveAt v with
    | none => failCommand s .badIndex
    | some e =>
      if e.protocols = 0 then failCommand s .unsupportedMailbox
      else if e.rxSize.toNat < size + 6 then failCommand s .payloadTooLarge
      else match s.borrow (requestDatagram e v size (byte0 s.a0)) with
        | none => exhaustedCommand s
        | some (q, s1) => endCommand { s1 with r0 := toWord q, r1 := 6, r2 := toWord (e.rxSize.toNat - 6) }

/-- What MBX_PREP_CHECK and MBX_PREP_FETCH do with the datagram they build (40_mailbox.md R126, R129). -/
def prepareRead (s : State) (x : Datagram) : Host.Outcome State Fault Refusal :=
  match s.borrow x with
  | none => exhaustedCommand s
  | some (q, s1) => endCommand { s1 with r0 := toWord q }

/-- MBX_PREP_CHECK (40_mailbox.md R126). -/
def execMbxPrepCheck (v : Nat) (s : State) : Host.Outcome State Fault Refusal :=
  if s.life ≠ .active then failCommand s .badState
  else match s.slaveAt v with
    | none => failCommand s .badIndex
    | some e => prepareRead s (s.pollDatagram e .host v)

/-- MBX_CHECK (40_mailbox.md R128). -/
def execMbxCheck (q : Nat) (s : State) : Host.Outcome State Fault Refusal :=
  if s.life ≠ .active then failCommand s .badState
  else if s.ndg ≤ q then failCommand s .badIndex
  else match s.doneAt q with
    | none => failCommand s .badState
    | some x =>
      if x.data.len < 6 then failCommand s .bufferBounds
      else endCommand { s with r0 := (BitVec.ofBool (mbxReady x.data)).setWidth 32 }

/-- MBX_PREP_FETCH (40_mailbox.md R129). -/
def execMbxPrepFetch (v : Nat) (s : State) : Host.Outcome State Fault Refusal :=
  if s.life ≠ .active then failCommand s .badState
  else match s.slaveAt v with
    | none => failCommand s .badIndex
    | some e => prepareRead s (fetchDatagram e .host v)

/-- The outcome of MBX_FETCH on a completed slot (40_mailbox.md R132): the two reports are logged before the `raise`. -/
def fetchOutcome (s : State) (v : Nat) (e : Slave) (x : Datagram) : Host.Outcome State Fault Refusal :=
  match fetchDecode e.txSize.toNat x.data with
  | .corrupt => failCommand (s.addLog (.corruptFrame v x.data.toBytes)) .corruptMailboxFrame
  | .bounds => failCommand s .bufferBounds
  | .errorReply c =>
    .next ((s.addLog (.errorReply v c (s.errText c))).raiseWith .mailboxErrorReply (s.errKnown c) c)
  | .data t n => endCommand { s with r0 := t.setWidth 32, r1 := 6, r2 := n.setWidth 32 }

/-- MBX_FETCH (40_mailbox.md R132). -/
def execMbxFetch (q v : Nat) (s : State) : Host.Outcome State Fault Refusal :=
  if s.life ≠ .active then failCommand s .badState
  else if s.ndg ≤ q then failCommand s .badIndex
  else match s.slaveAt v with
    | none => failCommand s .badIndex
    | some e =>
      match s.doneAt q with
      | none => failCommand s .badState
      | some x => fetchOutcome s v e x

end Sys2Proof.Machine
end

