-- ==== Sys2Proof/Machine/Scheduler.lean ====
section
/-! DEFINITION. The commands of the scheduler and of its mailbox sequencer (42_scheduler.md R178, R185, R192 to R194). -/

namespace Sys2Proof.Machine

/-- What APP_DONE does in the App window (42_scheduler.md R178): the cycle ends, or under the asynchronous strategy its
outgoing half begins. -/
def State.closeWindow (s : State) : State :=
  match s.strategy with
  | .sync => s.endCycle
  | .async => { s with phase := .sending, todo := closingProgram }

/-- APP_DONE (42_scheduler.md R178). -/
def execAppDone (s : State) : Host.Outcome State Fault Refusal :=
  if s.life ≠ .active ∨ s.phase ≠ .app then failCommand s .badState else endCommand s.closeWindow

/-- The record MBX_XFER starts; `rbuf` keeps its bytes (42_scheduler.md R185). -/
def Sequencer.start (m : Sequencer) (slave q budget : Nat) : Sequencer :=
  { m with
    st := .sendWait
    slave := slave
    dg := q
    budget := BitVec.ofNat 16 budget
    rcode := 0
    rknown := false
    rtype := 0
    rlen := 0
    rerr := 0 }

/-- Hand slot `q` with its datagram over to the sequencer (42_scheduler.md R185). -/
def State.handOver (s : State) (q : Nat) (x : Datagram) (slave budget : Nat) : State :=
  { s.setSlot q (some { x with owner := .seq }) with mx := s.mx.start slave q budget }

/-- MBX_XFER (42_scheduler.md R185). -/
def execMbxXfer (q budget : Nat) (s : State) : Host.Outcome State Fault Refusal :=
  if s.life ≠ .active then failCommand s .badState
  else if s.ndg ≤ q then failCommand s .badIndex
  else if s.mx.st ≠ .idle then failCommand s .busy
  else match s.slotAt q with
    | none => failCommand s .badState
    | some x =>
      match x.slv with
      | none => failCommand s .badState
      | some v =>
        if x.hostWritable = false then failCommand s .badState
        else if budget = 0 then failCommand s .badOperand
        else endCommand (s.handOver q x v budget)

/-- MBX_XSTAT (42_scheduler.md R192). DESIGN CHOICE (log 25): R192's corner case says that R1 to R3 show zeros while MX.st is
not Done, its pseudocode and R194 say that they show fields that outlive the Done state; the pseudocode is followed. -/
def execMbxXstat (s : State) : Host.Outcome State Fault Refusal :=
  if s.life ≠ .active then failCommand s .badState
  else endCommand { s with
    r0 := (mxCode s.mx.st).setWidth 32
    r1 := xstatCodeWord s.mx
    r2 := xstatLengthWord s.mx
    r3 := s.mx.rerr.setWidth 32 }

/-- MBX_XRD (42_scheduler.md R193). -/
def execMbxXrd (i : Nat) (s : State) : Host.Outcome State Fault Refusal :=
  if s.life ≠ .active then failCommand s .badState
  else if s.mx.st ≠ .done ∨ s.mx.rcode ≠ 0 then failCommand s .badState
  else if s.mx.rlen.toNat ≤ i then failCommand s .bufferBounds
  else endCommand { s with r0 := (s.mx.rbuf.get i).setWidth 32 }

/-- MBX_XCLR (42_scheduler.md R194). -/
def execMbxXclr (s : State) : Host.Outcome State Fault Refusal :=
  if s.life ≠ .active then failCommand s .badState
  else if s.mx.st ≠ .done then failCommand s .badState
  else endCommand { s with mx := { s.mx with st := .idle } }

end Sys2Proof.Machine
end

