-- ==== Sys2Proof/Machine/Dispatch.lean ====
section
/-! DEFINITION. The meaning of every command: one arm per constructor of Instr, one direct call each. -/

namespace Sys2Proof.Machine

def exec (i : Instr) (s : State) : Host.Outcome State Fault Refusal :=
  match i with
  | .acquire => Sys2Proof.Machine.execAcquire s
  | .slaveSet i' station => Sys2Proof.Machine.execSlaveSet i' station s
  | .activate strategy => Sys2Proof.Machine.execActivate strategy s
  | .deactivate => Sys2Proof.Machine.execDeactivate s
  | .release => Sys2Proof.Machine.execRelease s
  | .appDone => Sys2Proof.Machine.execAppDone s
  | .mbxPrepSend v size => Sys2Proof.Machine.execMbxPrepSend v size s
  | .mbxPrepCheck v => Sys2Proof.Machine.execMbxPrepCheck v s
  | .mbxCheck q => Sys2Proof.Machine.execMbxCheck q s
  | .mbxPrepFetch v => Sys2Proof.Machine.execMbxPrepFetch v s
  | .mbxFetch q v => Sys2Proof.Machine.execMbxFetch q v s
  | .mbxXfer q budget => Sys2Proof.Machine.execMbxXfer q budget s
  | .mbxXstat => Sys2Proof.Machine.execMbxXstat s
  | .mbxXrd n => Sys2Proof.Machine.execMbxXrd n s
  | .mbxXclr => Sys2Proof.Machine.execMbxXclr s
  | .domCreate d size => Sys2Proof.Machine.execDomCreate d size s
  | .domRegField d off => Sys2Proof.Machine.execDomRegField d off s
  | .fldRd h => Sys2Proof.Machine.execFldRd h s
  | .fldWr h => Sys2Proof.Machine.execFldWr h s
  | .dgRd q n => Sys2Proof.Machine.execDgRd q n s
  | .dgWr q n => Sys2Proof.Machine.execDgWr q n s
  | .dgStat q => Sys2Proof.Machine.execDgStat q s

end Sys2Proof.Machine
end

