-- ==== Sys2Proof/Machine/Interface.lean ====
section
/-! DEFINITION. The host interface: the register map (10_state.md R25), presenting and holding a command (10_state.md R23,
42_scheduler.md R176), and the turn of each agent (00_scope.md R15). -/

namespace Sys2Proof.Machine

/-- A read of the register map (10_state.md R25). CMD reads 0 (R23), and so does every offset not in the table, a multiple
of 4 or not (log 11). -/
def State.readReg (s : State) (offset : Nat) : Word :=
  match offset with
  | 0x04 => s.a0
  | 0x08 => s.a1
  | 0x0C => s.a2
  | 0x10 => s.a3
  | 0x14 => s.r0
  | 0x18 => s.r1
  | 0x1C => s.r2
  | 0x20 => s.r3
  | 0x24 => s.statusWord
  | 0x28 => s.err
  | 0x2C => s.cycle
  | 0x30 => s.tPre
  | 0x34 => s.tPost
  | 0x38 => s.tFin
  | 0x3C => s.kdiv
  | 0x40 => s.tickcnt
  | 0x44 => toWord s.fldcnt
  | _ => 0

/-- CORE executes the command of a word with the argument registers as they stand. A reserved opcode ends with
`raise IllegalCommand` (30_encoding.md R105). -/
def runWord (w : Word) (s : State) : Host.Outcome State Fault Refusal :=
  match decode w with
  | .ok i => exec i s
  | .error _ => failCommand s .illegalCommand

/-- A command can execute: `phase` is Idle or App (10_state.md R23). -/
def State.accepting (s : State) : Bool := decide (s.phase = .idle) || decide (s.phase = .app)

/-- The state with the argument registers of a held command. -/
def State.withArgs (s : State) (h : Held) : State := { s with a0 := h.a0, a1 := h.a1, a2 := h.a2, a3 := h.a3 }

/-- Put the argument registers of `s` into `t`. -/
def State.restoreArgs (s t : State) : State := { t with a0 := s.a0, a1 := s.a1, a2 := s.a2, a3 := s.a3 }

/-- The held command executes with the arguments sampled when it was written; A0 to A3 themselves keep what HOST has put
there since (20_memory.md R95, 10_state.md R21). -/
def runHeld (h : Held) (s : State) : Host.Outcome State Fault Refusal :=
  match runWord h.word (State.withArgs { s with held := none } h) with
  | .next t => .next (s.restoreArgs t)
  | .fault f => .fault f
  | .refused r => .refused r

/-- A write of CMD (10_state.md R23): the command executes in Idle or App and is held else. A second write while one is
held is refused (42_scheduler.md R176, 60_exceptions.md R262). -/
def presentCommand (w : Word) (s : State) : Host.Outcome State Fault Refusal :=
  if s.held.isSome then .refused .commandWhileHeld
  else if s.accepting then runWord w s
  else .next { s with held := some { word := w, a0 := s.a0, a1 := s.a1, a2 := s.a2, a3 := s.a3 } }

/-- A write of the register map (10_state.md R25). A write to a read-only register or to an offset not in the table is
ignored (log 11). -/
def writeReg (offset : Nat) (w : Word) (s : State) : Host.Outcome State Fault Refusal :=
  match offset with
  | 0x00 => presentCommand w s
  | 0x04 => .next { s with a0 := w }
  | 0x08 => .next { s with a1 := w }
  | 0x0C => .next { s with a2 := w }
  | 0x10 => .next { s with a3 := w }
  | _ => .next s

/-- CORE's turn: the next micro-operation of the running program (42_scheduler.md R175), else the held command (R176),
else CORE waits (60_exceptions.md R261; log 12). -/
def coreTurn (s : State) : Host.Outcome State Fault Refusal :=
  match s.todo with
  | op :: rest => .next (State.runMicro { s with todo := rest } op)
  | [] =>
    match s.held with
    | some h => if s.accepting then runHeld h s else .next s
    | none => .next s

/-- The held command can execute: `phase` has become Idle or App (42_scheduler.md R176). -/
def State.commandDue (s : State) : Bool := s.held.isSome && s.accepting

/-- HOST or MONITOR reads or writes a register in this turn (10_state.md R25). -/
def Input.isAccess : Input → Bool
  | .write _ _ => true
  | .read _ => true
  | .core => false
  | .tick => false
  | .reset => false

/-- Nobody sees `phase` Idle or App before the held command has executed (70_reset_and_hazards.md R290): a register access
waits while a command is due. A tick or a reset need not (43_driver_lifecycle.md R212, 70_reset_and_hazards.md R282;
log 9). -/
def State.accessWaits (s : State) (e : Input) : Bool := e.isAccess && s.commandDue

/-- One turn of an agent. -/
def takeTurn (e : Input) (s : State) : Host.Outcome State Fault Refusal :=
  match e with
  | .core => coreTurn s
  | .tick => .next s.tick
  | .write offset w => writeReg offset w s
  | .read offset => .next { s with rdata := s.readReg offset }
  | .reset => .next s.hardReset

/-- The agent whose turn is listed first takes it; when none is listed, or the access listed first has to wait, it is
CORE's turn (log 2). -/
def nextTurn (s : State) : Host.Outcome State Fault Refusal :=
  match s.inputs with
  | [] => coreTurn s
  | e :: rest => if s.accessWaits e then coreTurn s else takeTurn e { s with inputs := rest }

end Sys2Proof.Machine
end

