-- ==== Sys2Proof/Machine/Step.lean ====
section
/-! DEFINITION. One step of the block, and how a test puts a command in front of it. -/

namespace Sys2Proof.Machine

/-- One step: the turn of one agent (00_scope.md R15, 20_memory.md R76). -/
def step (s : State) : Host.Outcome State Fault Refusal := nextTurn s

/-- `s` with HOST's write of the command word to CMD as the next turn (10_state.md R23, R24: BCC fetches nothing, commands
arrive from HOST; log 3). -/
def State.withFetchWord (s : State) (nbits w : Nat) : State :=
  { s with inputs := .write 0x00 (BitVec.ofNat 32 (w % 2 ^ nbits)) :: s.inputs }

end Sys2Proof.Machine
end

