-- ==== Sys2Proof/Safety.lean ====
section
/-! DEFINITION. The terms the statements use: how a command ends, the permission table, the invariants of the spec, the
echo oracle, and the measure of a mailbox exchange. -/

namespace Sys2Proof.Machine

/-! ## How a command ends -/

/-- The command ends with ERR = `code` and changes nothing else (60_exceptions.md R245, R246). -/
def failsWith (s : State) (code : Word) : Host.Outcome State Fault Refusal := .next { s with err := code }

/-- `t` has the argument, result and error registers of `s` (10_state.md R21, R22, R27). -/
def State.sameHostRegisters (s t : State) : Prop :=
  t.a0 = s.a0 ∧ t.a1 = s.a1 ∧ t.a2 = s.a2 ∧ t.a3 = s.a3 ∧ t.r0 = s.r0 ∧ t.r1 = s.r1 ∧ t.r2 = s.r2 ∧ t.r3 = s.r3 ∧
    t.err = s.err

/-- The error a command ends with in a state that does not permit it, by the table of 60_exceptions.md R242; `none` is
the table's `ok`. -/
def denial (i : Instr) (s : State) : Option Err :=
  match i with
  | .acquire => if s.life = .released then none else some .badState
  | .slaveSet _ _ => if s.life = .configuring then none else some .badState
  | .activate _ => if s.life = .configuring ∧ s.fatal = false then none else some .badState
  | .deactivate => if s.life = .active then none else some .badState
  | .release => if s.life = .configuring then none else some .badState
  | .appDone => if s.life = .active ∧ s.phase = .app then none else some .badState
  | .domCreate _ _ =>
    if s.life = .configuring then none else if s.life = .active then some .domainAlreadyActive else some .badState
  | .domRegField _ _ =>
    if s.life = .configuring then none else if s.life = .active then some .domainAlreadyActive else some .badState
  | .fldRd _ => if s.life = .active ∧ s.phase = .app then none else some .badState
  | .fldWr _ => if s.life = .active ∧ s.phase = .app then none else some .badState
  | .mbxPrepSend _ _ => if s.life = .active then none else some .badState
  | .mbxPrepCheck _ => if s.life = .active then none else some .badState
  | .mbxCheck _ => if s.life = .active then none else some .badState
  | .mbxPrepFetch _ => if s.life = .active then none else some .badState
  | .mbxFetch _ _ => if s.life = .active then none else some .badState
  | .mbxXfer _ _ => if s.life = .active then none else some .badState
  | .mbxXstat => if s.life = .active then none else some .badState
  | .mbxXrd _ => if s.life = .active then none else some .badState
  | .mbxXclr => if s.life = .active then none else some .badState
  | .dgRd _ _ => if s.life = .active then none else some .badState
  | .dgWr _ _ => if s.life = .active then none else some .badState
  | .dgStat _ => if s.life = .active then none else some .badState

/-- The reserved opcodes as 30_encoding.md R105 lists them. -/
def reservedOpcode (op : Nat) : Prop :=
  op = 0x00 ∨ (0x07 ≤ op ∧ op ≤ 0x0F) ∨ (0x15 ≤ op ∧ op ≤ 0x17) ∨ (0x1C ≤ op ∧ op ≤ 0x1F) ∨
    (0x24 ≤ op ∧ op ≤ 0x2F) ∨ (0x33 ≤ op ∧ op ≤ 0xFF)

/-! ## Slots -/

/-- The place of a slot in Free → Queued → InFlight → Done (10_state.md R47). -/
def slotRank : Slot → Nat
  | none => 0
  | some x =>
    match x.st with
    | .queued => 1
    | .inFlight => 2
    | .done => 3

/-- One move along Free → Queued → InFlight → Done → Free, or none (10_state.md R47). -/
def slotMove (a b : Slot) : Prop :=
  slotRank b = slotRank a ∨ slotRank b = slotRank a + 1 ∨ (slotRank a = 3 ∧ slotRank b = 0)

/-- What is fixed about a domain once created (41_domain.md R150). -/
def domainShape (x : Domain) : Bool × Word × Nat := (x.valid, x.addr, x.buf.len)

/-! ## Invariants -/

/-- The buffer of a slot is in canonical form. -/
def slotWf : Slot → Bool
  | some x => x.data.wf
  | none => true

/-- Every byte space of the block is in canonical form and inside its length (20_memory.md R70). -/
def State.buffersWf (s : State) : Bool := s.dg.all slotWf && s.dom.all (fun x => x.buf.wf) && s.mx.rbuf.wf

/-- The phase a step of a cycle program runs in (42_scheduler.md R173, R174; 44_common_laws.md R230). -/
def phaseOf : MicroOp → Phase
  | .rel => .sending
  | .queueAll => .sending
  | .mbxOut => .sending
  | .sendAll => .sending
  | .toAwaiting => .sending
  | .endCycle => .sending
  | .recvAll => .awaitingReceive
  | .toProcessing => .awaitingReceive
  | .processAll => .processing
  | .mbxIn => .processing
  | .toApp => .processing

/-- What is left to run is the end of the strategy's program and `phase` is that of its first step; with nothing left,
`phase` is Idle or App (42_scheduler.md R173, R174). -/
def State.positioned (s : State) : Prop :=
  match s.todo with
  | [] => s.phase = .idle ∨ s.phase = .app
  | op :: _ =>
    s.phase = phaseOf op ∧ (s.todo <:+ cycleProgram s.strategy ∨ (s.strategy = .async ∧ s.todo <:+ closingProgram))

/-- 10_state.md R60 (a). -/
def State.quietUnlessActive (s : State) : Prop :=
  s.life ≠ .active →
    s.phase = .idle ∧ s.tickpend = false ∧ (∀ x ∈ s.dg, x = none) ∧ (∀ x ∈ s.dom, x.dg = none) ∧ s.mx.st = .idle

/-- RECV_ALL has run and PROCESS_ALL has not. -/
def State.beforeProcess (s : State) : Prop := s.todo.head? = some .toProcessing ∨ s.todo.head? = some .processAll

/-- 10_state.md R60 (b), and that a completed answer waits for PROCESS_ALL only between RECV_ALL and PROCESS_ALL. -/
def State.domainsLinked (s : State) : Prop :=
  ∀ d x q, s.dom[d]? = some x → x.dg = some q →
    x.valid = true ∧ ∃ y, s.slotAt q = some y ∧ y.owner = .dom d ∧ (y.st = .done → s.beforeProcess)

/-- 10_state.md R60 (c), and that a completed answer waits for MBX_IN only between RECV_ALL and MBX_IN. -/
def State.sequencerLinked (s : State) : Prop :=
  s.mx.st.waiting = true →
    ∃ y, s.slotAt s.mx.dg = some y ∧ y.owner = .seq ∧
      (y.st = .done → s.beforeProcess ∨ s.todo.head? = some .mbxIn)

/-- 10_state.md R60 (d). -/
def State.ratioOk (s : State) : Prop := s.life = .active → 1 ≤ s.kdiv.toNat ∧ s.tickcnt.toNat < s.kdiv.toNat

/-- 10_state.md R60 (e), with the widths of 10_state.md R44 and the bound of R32. -/
def State.fieldsOk (s : State) : Prop :=
  s.fldcnt ≤ s.fld.length ∧
    ∀ h f, s.fld[h]? = some f →
      (f.valid = true ↔ h < s.fldcnt) ∧
      (f.valid = true → legalWidth f.width = true ∧ (∃ e, s.slaveAt f.slave = some e) ∧
        ∃ x, s.domainAt f.dom = some x ∧ f.off + f.width ≤ x.buf.len)

/-- 10_state.md R60 (f). -/
def State.fatalOk (s : State) : Prop := s.fatal = true → s.life ≠ .active

/-- A tick is pending only while a cycle is under way (10_state.md R36). -/
def State.tickOk (s : State) : Prop := s.tickpend = true → s.phase ≠ .idle

/-- The invariants of 10_state.md R60, (a) to (f), with R36 and the place in the cycle program. -/
def State.consistent (s : State) : Prop :=
  s.positioned ∧ s.quietUnlessActive ∧ s.domainsLinked ∧ s.sequencerLinked ∧ s.ratioOk ∧ s.fieldsOk ∧ s.fatalOk ∧
    s.tickOk

/-- The bounds of 00_scope.md R8 on the parameters, in the state that carries them. -/
def State.parametersOk (s : State) : Prop :=
  16 ≤ s.par.dgmax ∧ s.par.dgmax ≤ 65535 ∧
    1 ≤ s.nslave ∧ s.nslave ≤ 256 ∧ 1 ≤ s.ndom ∧ s.ndom ≤ 256 ∧ 1 ≤ s.nfield ∧ s.nfield ≤ 65536 ∧ 1 ≤ s.ndg ∧ s.ndg ≤ 256

/-- Every size is within DGMAX: mailboxes (10_state.md R40), exchange buffers (R42), datagrams (R46), and `rbuf` is DGMAX
bytes long (R52). -/
def State.sizesOk (s : State) : Prop :=
  (∀ e ∈ s.slv, e.rxSize.toNat ≤ s.par.dgmax ∧ e.txSize.toNat ≤ s.par.dgmax) ∧
    (∀ x ∈ s.dom, x.buf.len ≤ s.par.dgmax ∧ (x.valid = true → 1 ≤ x.buf.len)) ∧
    (∀ y, some y ∈ s.dg → y.data.len ≤ s.par.dgmax) ∧ s.mx.rbuf.len = s.par.dgmax

/-- The parameter bounds and the size bounds together. -/
def State.sized (s : State) : Prop := s.parametersOk ∧ s.sizesOk

/-- The telemetry of the cycle under way is in order (43_driver_lifecycle.md R214): T_PRE, and after the App window has
opened T_POST, are not past the time base, and T_PRE is not past T_POST. -/
def State.timely (s : State) : Prop :=
  (s.phase ≠ .idle → s.t0 ≤ s.now ∧ s.tPre ≤ s.sinceStart) ∧
    (s.phase = .app ∨ (s.phase = .sending ∧ s.strategy = .async) → s.tPre ≤ s.tPost ∧ s.tPost ≤ s.sinceStart)

/-! ## The echo oracle -/

/-- The answers of the echo oracle to a pool: every slot in flight gets its own bytes back (20_memory.md R89). -/
def echoWire : List Slot → List WireAnswer
  | [] => []
  | none :: r => echoWire r
  | some x :: r =>
    if x.st = .inFlight then { status := .ok, bytes := x.data.toBytes } :: echoWire r else echoWire r

/-- The outgoing batch of a cycle as one function (42_scheduler.md R173). -/
def State.sendBatch (s : State) : State := s.rel.queueAll.mbxOut.sendAll

/-! ## Progress -/

/-- How many more completed datagrams a mailbox exchange can take before it ends (42_scheduler.md R195). -/
def exchangeRank (m : Sequencer) : Nat :=
  match m.st with
  | .idle => 0
  | .sendWait => m.budget.toNat + 2
  | .pollReady => m.budget.toNat + 1
  | .pollWait => m.budget.toNat + 1
  | .fetchReady => 1
  | .fetchWait => 1
  | .done => 0

/-- FWD run `n` times (43_driver_lifecycle.md R213). -/
def fwdTimes : Nat → State → State
  | 0, s => s
  | n + 1, s => fwdTimes n s.fwd

/-- `end_cycle` run `n` times: what the ends of `n` cycles do (42_scheduler.md R179). -/
def endTimes : Nat → State → State
  | 0, s => s
  | n + 1, s => endTimes n s.endCycle

end Sys2Proof.Machine
end

