-- ==== Sys2Proof/Certificates/Slice0/Obligations.lean ====
section
/-! DEFINITION. The statements about the model, each from numbered rules of the spec. ERR values are the ones of
60_exceptions.md R240: 1 UnsupportedMailbox, 2 PayloadTooLarge, 3 CorruptMailboxFrame, 7 DomainAlreadyActive,
9 TransportExhausted, 10 BadState, 11 BadIndex, 12 BadOperand, 13 BufferBounds, 14 Busy, 15 IllegalCommand,
16 TableFull. `failsWith s code` is `s` with ERR = `code` and nothing else changed. -/

open Sys2Proof Sys2Proof.Machine

/-! ## Encoding -/

/-- Decoding the encoding of a well-formed command gives it back, for every command and every operand the word admits
(30_encoding.md R100 to R104). -/
def Obligations.DecodeOfEncode : Prop := ∀ i : Instr, i.wf = true → decode (encode i) = .ok i

/-- 30_encoding.md R105: a word with a reserved opcode, and no other, ends with IllegalCommand, in every state, and
changes nothing else. -/
def Obligations.ReservedOpcodesAreIllegal : Prop :=
  ∀ (w : Word) (s : State),
    (reservedOpcode (w.toNat / 2 ^ 24) → decode w = .error (.reservedOpcode (opField w)) ∧ runWord w s = failsWith s 15) ∧
    (¬ reservedOpcode (w.toNat / 2 ^ 24) → ∃ i, decode w = .ok i ∧ i.wf = true ∧ runWord w s = exec i s)

/-- Words of 95_test_vectors.md section 2.1, one for each family of the opcode map, and two with ignored fields. -/
def Obligations.WordsOfTheSpecDecode : Prop :=
  decode 0x02001001#32 = .ok (.slaveSet 0 0x1001) ∧ decode 0x03000001#32 = .ok (.activate .async) ∧
  decode 0x1000000A#32 = .ok (.mbxPrepSend 0 10) ∧ decode 0x14020000#32 = .ok (.mbxFetch 2 0) ∧
  decode 0x18000002#32 = .ok (.mbxXfer 0 2) ∧ decode 0x21000000#32 = .ok (.domRegField 0 0) ∧
  decode 0x30000007#32 = .ok (.dgRd 0 7) ∧ decode 0x06ABCDEF#32 = .ok .appDone ∧
  decode 0x03000003#32 = .ok (.activate .async)

/-! ## The step -/

/-- 10_state.md R23: a word written to CMD in Idle or App, with no command held, executes as the command it encodes, or
ends with IllegalCommand when its opcode is reserved (30_encoding.md R105). The list of turns is the model's way to say
whose step comes next (DESIGN CHOICE, log 2). -/
def Obligations.StepRunsThePresentedCommand : Prop :=
  ∀ (s : State) (w : Word) (rest : List Input),
    s.inputs = .write 0x00 w :: rest → s.held = none → (s.phase = .idle ∨ s.phase = .app) →
    (∀ i, decode w = .ok i → step s = exec i { s with inputs := rest }) ∧
    (reservedOpcode (w.toNat / 2 ^ 24) → step s = failsWith { s with inputs := rest } 15)

/-- 10_state.md R23, 20_memory.md R95: in the other phases the word is held with the argument registers as they are
(the turns: log 2). -/
def Obligations.StepHoldsACommandDuringTheCycle : Prop :=
  ∀ (s : State) (w : Word) (rest : List Input),
    s.inputs = .write 0x00 w :: rest → s.held = none →
    (s.phase = .sending ∨ s.phase = .awaitingReceive ∨ s.phase = .processing) →
    step s = .next { s with
      inputs := rest, held := some { word := w, a0 := s.a0, a1 := s.a1, a2 := s.a2, a3 := s.a3 } }

/-- 20_memory.md R95, 42_scheduler.md R176: a held command executes at CORE's turn once `phase` is Idle or App, with the
arguments sampled at the CMD write; a held word with a reserved opcode ends with IllegalCommand (30_encoding.md R105).
That A0 to A3 then keep what HOST has written since is DEDUCED (log 20); the turns are log 2, their order log 9. -/
def Obligations.HeldCommandRunsWithSampledArguments : Prop :=
  ∀ (s : State) (h : Held),
    (s.inputs.head? = none ∨ s.inputs.head? = some .core) → s.todo = [] → s.held = some h →
    (s.phase = .idle ∨ s.phase = .app) →
    let u := { s with inputs := s.inputs.tail, held := none }
    (∀ i t, decode h.word = .ok i → exec i { u with a0 := h.a0, a1 := h.a1, a2 := h.a2, a3 := h.a3 } = .next t →
      step s = .next { t with a0 := s.a0, a1 := s.a1, a2 := s.a2, a3 := s.a3 }) ∧
    (reservedOpcode (h.word.toNat / 2 ^ 24) → step s = failsWith u 15)

/-- 60_exceptions.md R262, 42_scheduler.md R176: a CMD write during a hold is refused (that the model refuses it, of the
two ways R262 allows: DESIGN CHOICE, log 10). Once `phase` is Idle or App the held command is no longer held up: the write
waits for CORE's turn to run it (70_reset_and_hazards.md R290; log 9). -/
def Obligations.SecondCommandIsRefused : Prop :=
  ∀ (s : State) (w : Word) (rest : List Input) (h : Held),
    s.inputs = .write 0x00 w :: rest → s.held = some h →
    ((s.phase = .sending ∨ s.phase = .awaitingReceive ∨ s.phase = .processing) →
      step s = .refused .commandWhileHeld) ∧
    ((s.phase = .idle ∨ s.phase = .app) → step s = step { s with inputs := .core :: s.inputs })

/-- 42_scheduler.md R175: at CORE's turn, listed or not, the next micro-operation of the running program is one step; the
three that only change the phase (R173, R174) are written out, T_POST with the App window (43_driver_lifecycle.md R214; the
time base is the model's choice, log 5). With no program and no command held CORE waits (60_exceptions.md R261; the waiting
step is the model's choice, log 12). -/
def Obligations.CoreTurnRunsTheNextMicroOperation : Prop :=
  ∀ s : State, (s.inputs.head? = none ∨ s.inputs.head? = some .core) →
    let u := { s with inputs := s.inputs.tail }
    (∀ op rest, s.todo = op :: rest → step s = .next (State.runMicro { u with todo := rest } op)) ∧
    (∀ rest, s.todo = .toAwaiting :: rest → step s = .next { u with todo := rest, phase := .awaitingReceive }) ∧
    (∀ rest, s.todo = .toProcessing :: rest → step s = .next { u with todo := rest, phase := .processing }) ∧
    (∀ rest, s.todo = .toApp :: rest → ∃ (tPost : Word) (now draws : Nat) (elapsed : List Nat),
      s.now ≤ now ∧ tPost.toNat = min (now - s.t0) (2 ^ 32 - 1) ∧
      step s = .next { u with
        todo := rest, phase := .app, tPost := tPost, now := now, draws := draws, elapsed := elapsed }) ∧
    (s.todo = [] → s.held = none → step s = .next u)

/-- 43_driver_lifecycle.md R210, R211, with start_cycle of 42_scheduler.md R172: a tick is ignored while not Active,
starts a cycle in Idle with the program of the strategy (R173, R174), waits when a cycle is under way, and is lost when
another already waits. How the time base gives T_PRE is the model's choice (log 5). -/
def Obligations.TickIsAcceptedHeldOrLost : Prop :=
  ∀ (s : State) (rest : List Input), s.inputs = .tick :: rest →
    (s.life ≠ .active → step s = .next { s with inputs := rest }) ∧
    (s.life = .active → s.phase = .idle → ∃ (t0 now draws : Nat) (tPre : Word) (elapsed : List Nat),
      s.now ≤ t0 ∧ t0 ≤ now ∧ tPre.toNat = min (now - t0) (2 ^ 32 - 1) ∧
      step s = .next { s with
        inputs := rest, cycle := s.cycle + 1, t0 := t0, now := now, draws := draws, tPre := tPre, elapsed := elapsed,
        phase := if s.strategy = .sync then .sending else .awaitingReceive
        todo :=
          if s.strategy = .sync then
            [.rel, .queueAll, .mbxOut, .sendAll, .toAwaiting, .recvAll, .toProcessing, .processAll, .mbxIn, .toApp]
          else [.recvAll, .toProcessing, .processAll, .mbxIn, .toApp] }) ∧
    (s.life = .active → s.phase ≠ .idle → s.tickpend = false →
      step s = .next { s with inputs := rest, tickpend := true, ovr := true }) ∧
    (s.life = .active → s.phase ≠ .idle → s.tickpend = true → step s = .next { s with inputs := rest, ovr := true })

/-- 10_state.md R25: what a read of each offset of the register map puts on the host bus, and what a write changes; an
offset not in the table, a multiple of 4 or not, reads 0 and ignores a write (for one that is no multiple of 4 DEDUCED,
log 11). While a held command waits for CORE in Idle or App, the access waits too (70_reset_and_hazards.md R290; log 9).
The field `rdata` that shows the word read is the model's choice (log 14). -/
def Obligations.RegisterMapReadsAndWrites : Prop :=
  ∀ (s : State) (rest : List Input) (offset : Nat),
    let waits := s.held ≠ none ∧ (s.phase = .idle ∨ s.phase = .app)
    (s.inputs = .read offset :: rest →
      (waits → step s = step { s with inputs := .core :: s.inputs }) ∧
      (¬ waits → step s = .next { s with
        inputs := rest
        rdata :=
          if offset = 0x04 then s.a0 else if offset = 0x08 then s.a1 else if offset = 0x0C then s.a2
          else if offset = 0x10 then s.a3 else if offset = 0x14 then s.r0 else if offset = 0x18 then s.r1
          else if offset = 0x1C then s.r2 else if offset = 0x20 then s.r3 else if offset = 0x24 then s.statusWord
          else if offset = 0x28 then s.err else if offset = 0x2C then s.cycle else if offset = 0x30 then s.tPre
          else if offset = 0x34 then s.tPost else if offset = 0x38 then s.tFin else if offset = 0x3C then s.kdiv
          else if offset = 0x40 then s.tickcnt else if offset = 0x44 then BitVec.ofNat 32 s.fldcnt else 0 })) ∧
    (∀ w, s.inputs = .write offset w :: rest → offset ≠ 0x00 →
      (waits → step s = step { s with inputs := .core :: s.inputs }) ∧
      (¬ waits → step s = .next { s with
        inputs := rest
        a0 := if offset = 0x04 then w else s.a0
        a1 := if offset = 0x08 then w else s.a1
        a2 := if offset = 0x0C then w else s.a2
        a3 := if offset = 0x10 then w else s.a3 }))

/-- 10_state.md R26: the fields of STATUS. -/
def Obligations.StatusWordFields : Prop :=
  ∀ s : State,
    s.statusWord.extractLsb' 0 2 = (match s.life with | .released => 0#2 | .configuring => 1#2 | .active => 2#2) ∧
    s.statusWord.extractLsb' 2 3 =
      (match s.phase with
        | .idle => 0#3 | .sending => 1#3 | .awaitingReceive => 2#3 | .processing => 3#3 | .app => 4#3) ∧
    s.statusWord.getLsbD 5 = decide (s.strategy = .async) ∧ s.statusWord.getLsbD 6 = s.tickpend ∧
    s.statusWord.getLsbD 7 = s.ovr ∧ s.statusWord.getLsbD 8 = s.fatal ∧
    (s.statusWord.getLsbD 9 = true ↔ ∃ q x, s.slotAt q = some x ∧ x.st = .inFlight) ∧
    s.statusWord.extractLsb' 10 3 =
      (match s.mx.st with
        | .idle => 0#3 | .sendWait => 1#3 | .pollReady => 2#3 | .pollWait => 3#3 | .fetchReady => 4#3
        | .fetchWait => 5#3 | .done => 6#3) ∧
    (s.statusWord.getLsbD 13 = true ↔ s.err.toNat % 256 ≠ 0) ∧ s.statusWord.extractLsb' 14 18 = 0#18

/-! ## Reset -/

/-- 70_reset_and_hazards.md R281, for a block of any parameters and sizes: what reset leaves, that a tick is ignored, and
that ACQUIRE is the only command that succeeds. -/
def Obligations.AfterResetOnlyAcquireSucceeds : Prop :=
  ∀ (p : Config.Params) (z : Config.Sizes), let s := State.initial p z
    s.life = .released ∧ s.phase = .idle ∧ (∀ x ∈ s.dg, x = none) ∧ (∀ e ∈ s.slv, e.valid = false) ∧
    (∀ x ∈ s.dom, x.valid = false) ∧ (∀ f ∈ s.fld, f.valid = false) ∧
    (∀ offset, s.readReg offset = if offset = 0x3C then 1 else 0) ∧
    step { s with inputs := [.tick] } = .next s ∧
    (∃ t, exec .acquire s = .next t ∧ t.err = 0 ∧ t.life = .configuring) ∧
    (∀ i, i ≠ .acquire → exec i s = failsWith s 10) ∧
    (∀ w, reservedOpcode (w.toNat / 2 ^ 24) → runWord w s = failsWith s 15)

/-- 70_reset_and_hazards.md R280, R282: the reset event, in any state, leaves the state after reset of the same block; it
needs no DEACTIVATE, drops the held command, and the trace starts empty. That `t0` is 0 (log 6), that `rdata` and the
count of host ticks start anew and the environment goes on (log 13, log 14) are the model's choices. -/
def Obligations.ResetEventRestoresTheResetState : Prop :=
  ∀ (s : State) (rest : List Input), s.inputs = .reset :: rest →
    step s = .next { State.initial s.par { nslave := s.nslave, ndom := s.ndom, nfield := s.nfield, ndg := s.ndg } with
      inputs := rest, wire := s.wire, elapsed := s.elapsed, draws := s.draws, now := s.now }

/-! ## Errors and permissions -/

/-- 60_exceptions.md R242: a command that the table does not permit in a state ends with the table's error and changes
nothing else. -/
def Obligations.PermissionTable : Prop :=
  ∀ (i : Instr) (s : State),
    (denial i s = some .badState → exec i s = failsWith s 10) ∧
    (denial i s = some .domainAlreadyActive → exec i s = failsWith s 7) ∧
    (denial i s = none ∨ denial i s = some .badState ∨ denial i s = some .domainAlreadyActive)

/-- 60_exceptions.md R246: every command is total, and a command that fails leaves the state before it plus ERR, but for
the LOG entry of MBX_FETCH and for `Fatal()`. That no command stops is 60_exceptions.md R262 and DEDUCED (log 24). -/
def Obligations.FailingCommandIsPrecise : Prop :=
  ∀ (i : Instr) (s : State), ∃ t, exec i s = .next t ∧
    (t.err ≠ 0 →
      t = { s with err := t.err } ∨
      (∃ q v e, i = .mbxFetch q v ∧ (t.err = 3 ∨ t.err.toNat % 256 = 4) ∧ t = { s with err := t.err, log := s.log ++ [e] }) ∨
      (t.err = 9 ∧ firstFree s.dg = none ∧ t = { s.fatalStop with err := 9 }))

/-- 10_state.md R22, R27, 60_exceptions.md R248: no micro-operation writes a host register, a table of the configuration,
the ratio or the strategy, takes a held command, or consumes a turn. -/
def Obligations.MicroOpsKeepHostRegisters : Prop :=
  ∀ (s : State) (op : MicroOp), let t := s.runMicro op
    s.sameHostRegisters t ∧ t.par = s.par ∧ t.slv = s.slv ∧ t.fld = s.fld ∧ t.fldcnt = s.fldcnt ∧ t.kdiv = s.kdiv ∧
    t.strategy = s.strategy ∧ t.held = s.held ∧ t.inputs = s.inputs ∧ t.rdata = s.rdata

/-- 10_state.md R21, R22: no command writes A0 to A3, and a command that fails writes no result register. -/
def Obligations.CommandsKeepArguments : Prop :=
  ∀ (i : Instr) (s t : State), exec i s = .next t →
    t.a0 = s.a0 ∧ t.a1 = s.a1 ∧ t.a2 = s.a2 ∧ t.a3 = s.a3 ∧ t.par = s.par ∧ t.inputs = s.inputs ∧
    (t.err ≠ 0 → t.r0 = s.r0 ∧ t.r1 = s.r1 ∧ t.r2 = s.r2 ∧ t.r3 = s.r3)

/-! ## Whole-machine rules -/

/-- 43_driver_lifecycle.md R222: while Active no step but reset changes SLV, FLD, FLDCNT or the shape of a domain, and
the three configuration commands fail. -/
def Obligations.ConfigurationLockedWhileActive : Prop :=
  ∀ s : State, s.life = .active →
    (∀ t, s.inputs.head? ≠ some .reset → step s = .next t →
      t.slv = s.slv ∧ t.fld = s.fld ∧ t.fldcnt = s.fldcnt ∧ t.dom.map domainShape = s.dom.map domainShape) ∧
    (∀ i st, exec (.slaveSet i st) s = failsWith s 10) ∧ (∀ d n, exec (.domCreate d n) s = failsWith s 7) ∧
    (∀ d off, exec (.domRegField d off) s = failsWith s 7)

/-- 43_driver_lifecycle.md R227: what changes `life`, and from what to what. -/
def Obligations.LifecycleTransitions : Prop :=
  (∀ (i : Instr) (s t : State), exec i s = .next t → t.life ≠ s.life →
    (i = .acquire ∧ s.life = .released ∧ t.life = .configuring) ∨
    ((∃ σ, i = .activate σ) ∧ s.life = .configuring ∧ s.fatal = false ∧ 1 ≤ t.kdiv.toNat ∧ t.life = .active) ∨
    (i = .release ∧ s.life = .configuring ∧ t.life = .released) ∨
    (i = .deactivate ∧ s.life = .active ∧ t.life = .configuring) ∨
    (s.life = .active ∧ t.life = .configuring ∧ t.fatal = true ∧ t.err = 9)) ∧
  (∀ (s : State) (op : MicroOp), (s.runMicro op).life ≠ s.life →
    (s.runMicro op).life = .configuring ∧ (s.runMicro op).fatal = true) ∧
  (∀ s : State, s.tick.life = s.life ∧ s.hardReset.life = .released)

/-- 10_state.md R37, R38, 43_driver_lifecycle.md R220: `ovr` and `fatal`, once set, are cleared only by ACQUIRE and by
reset. -/
def Obligations.StickyFlagsClearOnlyByAcquireOrReset : Prop :=
  (∀ (i : Instr) (s t : State), exec i s = .next t →
    (i ≠ .acquire ∨ s.life ≠ .released) → (s.ovr = true → t.ovr = true) ∧ (s.fatal = true → t.fatal = true)) ∧
  (∀ (s : State) (op : MicroOp),
    (s.ovr = true → (s.runMicro op).ovr = true) ∧ (s.fatal = true → (s.runMicro op).fatal = true)) ∧
  (∀ s : State, (s.ovr = true → s.tick.ovr = true) ∧ (s.fatal = true → s.tick.fatal = true)) ∧
  (∀ (s t : State), s.life = .released → exec .acquire s = .next t → t.ovr = false ∧ t.fatal = false) ∧
  (∀ s : State, s.hardReset.ovr = false ∧ s.hardReset.fatal = false)

/-- 10_state.md R47: while the block stays Active a slot moves only along Free, Queued, InFlight, Done, Free; a step that
leaves Active takes every slot to Free. -/
def Obligations.SlotsMoveOnlyForward : Prop :=
  ∀ s t : State, s.life = .active → step s = .next t →
    (t.life = .active → s.inputs.head? ≠ some .reset → ∀ q, slotMove (s.slotAt q) (t.slotAt q)) ∧
    (t.life ≠ .active → ∀ q, t.slotAt q = none)

/-! ## Invariants -/

/-- Every step keeps every byte space canonical and inside its length (20_memory.md R70, R78); the canonical form is the
model's (log 23). -/
def Obligations.StepKeepsBuffersCanonical : Prop :=
  ∀ s t : State, s.buffersWf = true → step s = .next t → t.buffersWf = true

/-- Every step keeps the invariants of 10_state.md R60 (a) to (f), with R36 and the place in the cycle program. -/
def Obligations.StepKeepsTheInvariantsOfR60 : Prop :=
  ∀ s t : State, s.consistent → step s = .next t → t.consistent

/-- Every step keeps the parameter bounds of 00_scope.md R8 and every size within DGMAX (10_state.md R40, R42, R46,
R52). -/
def Obligations.StepKeepsSizesWithinBounds : Prop :=
  ∀ s t : State, s.sized → step s = .next t → t.sized

/-- From a state that meets the invariants of 10_state.md R60, every step keeps T_PRE and T_POST of the cycle under way in
order and not past the time base (43_driver_lifecycle.md R214); the time base is the model's form of the draws (log 5). -/
def Obligations.StepKeepsTelemetryInOrder : Prop :=
  ∀ s t : State, s.consistent → s.timely → step s = .next t → t.timely

/-- The state after reset meets the four invariants, for every choice of parameters and sizes within the bounds of
00_scope.md R8; so does `State.reset`, with the parameters the model chose for it (DESIGN CHOICE, log 1). -/
def Obligations.ResetMeetsTheInvariants : Prop :=
  (∀ (p : Config.Params) (z : Config.Sizes), 16 ≤ p.dgmax → p.dgmax ≤ 65535 → 1 ≤ z.nslave → z.nslave ≤ 256 →
    1 ≤ z.ndom → z.ndom ≤ 256 → 1 ≤ z.nfield → z.nfield ≤ 65536 → 1 ≤ z.ndg → z.ndg ≤ 256 →
    let s := State.initial p z
    s.buffersWf = true ∧ s.consistent ∧ s.sized ∧ s.timely) ∧
  State.reset.buffersWf = true ∧ State.reset.consistent ∧ State.reset.sized ∧ State.reset.timely

/-- 42_scheduler.md R179: all that `end_cycle` does under either strategy, T_FIN, the budget test, FWD
(43_driver_lifecycle.md R213), Idle, and the next cycle in the same step when a tick is pending; and, from a state with its
telemetry in order, that the three values of the cycle are in order (R214, R216 (a)). How the time base gives T_FIN and
T_PRE is the model's choice (log 5), and so is the count of host ticks (log 13). -/
def Obligations.EndOfCycleOrdersTelemetry : Prop :=
  ∀ s : State,
    (s.timely → (s.phase = .app ∨ (s.phase = .sending ∧ s.strategy = .async)) →
      s.tPre ≤ s.tPost ∧ s.tPost ≤ s.endCycle.tFin ∧
      (s.endCycle.ovr = true ↔ s.ovr = true ∨ s.par.budget.toNat < s.endCycle.tFin.toNat) ∧
      (s.tickpend = false → s.endCycle.tPre = s.tPre ∧ s.endCycle.tPost = s.tPost)) ∧
    ∃ (tFin : Word) (now draws : Nat) (elapsed : List Nat),
      s.now ≤ now ∧ tFin.toNat = min (now - s.t0) (2 ^ 32 - 1) ∧
      let forward := s.kdiv.toNat ≤ s.tickcnt.toNat + 1
      let u := { s with
        tFin := tFin, now := now, draws := draws, elapsed := elapsed
        ovr := s.ovr || decide (s.par.budget.toNat < tFin.toNat)
        tickcnt := if forward then 0 else BitVec.ofNat 32 (s.tickcnt.toNat + 1)
        hostTicks := if forward then s.hostTicks + 1 else s.hostTicks }
      (s.tickpend = false → s.endCycle = { u with phase := .idle, todo := [] }) ∧
      (s.tickpend = true → ∃ (tPre : Word) (t0 now' draws' : Nat) (elapsed' : List Nat),
        now ≤ t0 ∧ t0 ≤ now' ∧ tPre.toNat = min (now' - t0) (2 ^ 32 - 1) ∧
        s.endCycle = { u with
          tickpend := false, cycle := s.cycle + 1, t0 := t0, tPre := tPre
          now := now', draws := draws', elapsed := elapsed'
          phase := if s.strategy = .sync then .sending else .awaitingReceive
          todo :=
            if s.strategy = .sync then
              [.rel, .queueAll, .mbxOut, .sendAll, .toAwaiting, .recvAll, .toProcessing, .processAll, .mbxIn, .toApp]
            else [.recvAll, .toProcessing, .processAll, .mbxIn, .toApp] })

/-! ## The cycle -/

/-- 42_scheduler.md R173, R174, R181: from a tick in Idle with no command held, under either strategy, CORE's own turns
reach the App window, or `Fatal()` has stopped the block; nothing waits, and no command result changes. The count of 11
steps rests on one micro-operation a step (DESIGN CHOICE, log 8) and on steps that wait (log 12), CORE's turns on log 2. -/
def Obligations.CycleReachesTheAppWindow : Prop :=
  ∀ s : State, s.life = .active → s.phase = .idle → s.todo = [] → s.held = none → s.inputs = [.tick] →
    ∃ t : State, Sys2Proof.core.run 11 s = .next t ∧ s.sameHostRegisters t ∧ t.cycle = s.cycle + 1 ∧ t.todo = [] ∧
      ((t.life = .active ∧ t.phase = .app) ∨ (t.life = .configuring ∧ t.phase = .idle ∧ t.fatal = true))

/-- 20_memory.md R86: RECV_ALL completes every slot in flight with some status and exactly `len` bytes, touches no other
slot, and sets `ovr` exactly when the strategy is synchronous and an answer was Lost. -/
def Obligations.RecvAllCompletesEverySlotInFlight : Prop :=
  ∀ s : State, let t := s.recvAll
    (∀ q x, s.slotAt q = some x → x.st = .inFlight → ∃ (w : WireStatus) (bs : List Byte), bs.length = x.data.len ∧
      t.slotAt q = some { x with st := .done, status := statusOfWire w, data := Buf.ofBytes bs }) ∧
    (∀ q, (∀ x, s.slotAt q = some x → x.st ≠ .inFlight) → t.slotAt q = s.slotAt q) ∧
    (t.ovr = true ↔ s.ovr = true ∨ (s.strategy = .sync ∧
      ∃ q x y, s.slotAt q = some x ∧ x.st = .inFlight ∧ t.slotAt q = some y ∧ y.status = .lost)) ∧
    t = { s with dg := t.dg, ovr := t.ovr, wire := t.wire, draws := t.draws }

/-- 41_domain.md R155, R156, 20_memory.md R81, R83: with a Free slot for every valid domain QUEUE_ALL gives the valid
domains, in ascending order, the lowest Free slots, each holding a whole exchange buffer; every slot that was taken or is
left over, and every other domain, stays as it was. Else it is `Fatal()` (43_driver_lifecycle.md R228). -/
def Obligations.QueueAllSendsEveryBuffer : Prop :=
  ∀ s : State, let t := s.queueAll
    let free (l : List Slot) := (l.filter Option.isNone).length
    let valid (l : List Domain) := (l.filter (fun x : Domain => x.valid)).length
    (free s.dg < valid s.dom → t = { s with
      fatal := true, life := .configuring, phase := .idle, tickpend := false, todo := []
      dg := s.dg.map (fun _ => none), dom := s.dom.map (fun x => { x with dg := none }), mx := { s.mx with st := .idle } }) ∧
    (valid s.dom ≤ free s.dg →
      (∀ (d : Nat) (x : Domain), s.dom[d]? = some x → x.valid = true → ∃ q : Nat,
        s.slotAt q = none ∧ free (s.dg.take q) = valid (s.dom.take d) ∧
        t.dom[d]? = some { x with dg := some q } ∧
        t.slotAt q = some {
          st := .queued, kind := .exchange, station := 0, offset := 0, addr := some x.addr, data := x.buf
          status := .pending, owner := .dom d, slv := none }) ∧
      (∀ (d : Nat) (x : Domain), s.dom[d]? = some x → x.valid = false → t.dom[d]? = some x) ∧
      (∀ (q : Nat) (y : Datagram), s.slotAt q = some y → t.slotAt q = some y) ∧
      (∀ q : Nat, s.slotAt q = none → valid s.dom ≤ free (s.dg.take q) → t.slotAt q = none) ∧
      t.ndg = s.ndg ∧ t.ndom = s.ndom ∧ t = { s with dg := t.dg, dom := t.dom })

/-- 41_domain.md R157, R159: PROCESS_ALL copies a completed answer in, notes a failed one, leaves every other domain as it
was, and changes nothing but the domain table. -/
def Obligations.ProcessAllCopiesAnswers : Prop :=
  ∀ s : State, let t := s.processAll
    t = { s with dom := t.dom } ∧
    ∀ (d : Nat) (x : Domain), s.dom[d]? = some x → ∃ x' : Domain, t.dom[d]? = some x' ∧
      ((x.valid = false ∨ x.dg = none ∨ ∃ q, x.dg = some q ∧ s.doneAt q = none) → x' = x) ∧
      (∀ (q : Nat) (y : Datagram), x.valid = true → x.dg = some q → s.doneAt q = some y →
        (y.status ≠ .ok → x' = { x with wstate := .fail, dg := none }) ∧
        (y.status = .ok → ∃ b : Buf, x' = { x with buf := b, wstate := .ok, dg := none } ∧ b.len = x.buf.len ∧
          ∀ i, i < x.buf.len → b.get i = y.data.get i))

/-- 20_memory.md R85, R88: SEND_ALL takes every Queued slot to InFlight and REL every Done slot to Free; neither changes
anything else. -/
def Obligations.SendAllAndRel : Prop :=
  ∀ (s : State) (q : Nat),
    (∀ x, s.slotAt q = some x → x.st = .queued → s.sendAll.slotAt q = some { x with st := .inFlight }) ∧
    ((∀ x, s.slotAt q = some x → x.st ≠ .queued) → s.sendAll.slotAt q = s.slotAt q) ∧
    (∀ x, s.slotAt q = some x → x.st = .done → s.rel.slotAt q = none) ∧
    ((∀ x, s.slotAt q = some x → x.st ≠ .done) → s.rel.slotAt q = s.slotAt q) ∧
    s.sendAll = { s with dg := s.sendAll.dg } ∧ s.rel = { s with dg := s.rel.dg }

/-- 42_scheduler.md R186: MBX_OUT issues a poll of 8 bytes or the fetch of the whole transmit mailbox in the lowest Free
slot, and does nothing in the other states. -/
def Obligations.MbxOutIssuesPollOrFetch : Prop :=
  ∀ (s : State) (e : Slave), s.slv[s.mx.slave]? = some e →
    (∀ q, firstFree s.dg = some q → s.mx.st = .pollReady →
      s.mbxOut = { s with
        dg := s.dg.set q (some {
          st := .queued, kind := .read, station := e.station, offset := s.par.mbxStateAddr, addr := none,
          data := { len := 8, mem := [] }, status := .pending, owner := .seq, slv := some s.mx.slave })
        mx := { s.mx with dg := q, st := .pollWait } }) ∧
    (∀ q, firstFree s.dg = some q → s.mx.st = .fetchReady →
      s.mbxOut = { s with
        dg := s.dg.set q (some {
          st := .queued, kind := .read, station := e.station, offset := e.txOff, addr := none,
          data := { len := e.txSize.toNat, mem := [] }, status := .pending, owner := .seq, slv := some s.mx.slave })
        mx := { s.mx with dg := q, st := .fetchWait } }) ∧
    (firstFree s.dg = none → (s.mx.st = .pollReady ∨ s.mx.st = .fetchReady) → s.mbxOut = s.fatalStop) ∧
    (s.mx.st ≠ .pollReady → s.mx.st ≠ .fetchReady → s.mbxOut = s)

/-- 42_scheduler.md R190: what MBX_IN does with the slot it waits for; a failed datagram ends the exchange before any byte
is looked at, and a clear flag uses up one poll. -/
def Obligations.MbxInFollowsTheExchange : Prop :=
  ∀ s : State,
    (s.mx.st ≠ .sendWait → s.mx.st ≠ .pollWait → s.mx.st ≠ .fetchWait → s.mbxIn = s) ∧
    (s.doneAt s.mx.dg = none → s.mbxIn = s) ∧
    (∀ x, s.doneAt s.mx.dg = some x →
      ((s.mx.st = .sendWait ∨ s.mx.st = .pollWait ∨ s.mx.st = .fetchWait) →
        (x.status = .notActed ∨ x.status = .lost) → s.mbxIn = { s with mx := { s.mx with rcode := 8, st := .done } }) ∧
      (x.status ≠ .notActed → x.status ≠ .lost →
        (s.mx.st = .sendWait → s.mbxIn = { s with mx := { s.mx with st := .pollReady } }) ∧
        (s.mx.st = .pollWait → (x.data.get 5).getLsbD 3 = true →
          s.mbxIn = { s with mx := { s.mx with st := .fetchReady } }) ∧
        (s.mx.st = .pollWait → (x.data.get 5).getLsbD 3 = false → 2 ≤ s.mx.budget.toNat →
          s.mbxIn = { s with mx := { s.mx with budget := s.mx.budget - 1, st := .pollReady } }) ∧
        (s.mx.st = .pollWait → (x.data.get 5).getLsbD 3 = false → s.mx.budget.toNat = 1 →
          s.mbxIn = { s with mx := { s.mx with budget := 0, rcode := 5, st := .done } })))

/-- 42_scheduler.md R191: the end of a sequenced fetch; on success the payload is copied out, byte for byte, and the bytes
of `rbuf` past it stay. -/
def Obligations.SequencedFetchKeepsThePayload : Prop :=
  ∀ (s : State) (e : Slave) (x : Datagram),
    s.sized → s.buffersWf = true → s.mx.st = .fetchWait → s.slv[s.mx.slave]? = some e → s.doneAt s.mx.dg = some x →
    x.status ≠ .notActed → x.status ≠ .lost →
    (fetchDecode e.txSize.toNat x.data = .corrupt →
      s.mbxIn = { s with
        log := s.log ++ [.corruptFrame s.mx.slave x.data.toBytes], mx := { s.mx with rcode := 3, st := .done } }) ∧
    (fetchDecode e.txSize.toNat x.data = .bounds → s.mbxIn = { s with mx := { s.mx with rcode := 13, st := .done } }) ∧
    (∀ c, fetchDecode e.txSize.toNat x.data = .errorReply c →
      s.mbxIn = { s with
        log := s.log ++ [.errorReply s.mx.slave c ((s.par.errtab.lookup c).getD "unknown code")]
        mx := { s.mx with rerr := c, rknown := (s.par.errtab.lookup c).isSome, rcode := 4, st := .done } }) ∧
    (∀ ty len, fetchDecode e.txSize.toNat x.data = .data ty len → ∃ b : Buf,
      s.mbxIn = { s with mx := { s.mx with rtype := ty, rlen := len, rbuf := b, rcode := 0, st := .done } } ∧
      b.len = s.mx.rbuf.len ∧
      ∀ i, b.get i = if i < len.toNat then x.data.get (6 + i) else s.mx.rbuf.get i)

/-- 42_scheduler.md R195: each answer MBX_IN looks at brings the exchange nearer to its end, by a measure that starts at
the budget plus 2; MBX_OUT never raises it. -/
def Obligations.MailboxExchangeIsBounded : Prop :=
  (∀ (s : State) (x : Datagram), s.mx.st.waiting = true → 1 ≤ s.mx.budget.toNat → s.doneAt s.mx.dg = some x →
    exchangeRank s.mbxIn.mx < exchangeRank s.mx) ∧
  (∀ s : State, exchangeRank s.mbxOut.mx ≤ exchangeRank s.mx) ∧
  (∀ s : State, s.doneAt s.mx.dg = none → exchangeRank s.mbxIn.mx = exchangeRank s.mx)

/-- 43_driver_lifecycle.md R213, R218: from TICKCNT = 0, FWD run `n` times, and `end_cycle` run `n` times, emit exactly
`n / K` host ticks; no other micro-operation and no tick touches TICKCNT or the count. The count of host ticks is the
model's own field (DESIGN CHOICE, log 13). -/
def Obligations.HostTickEveryKthCycle : Prop :=
  (∀ (s : State) (n : Nat), s.tickcnt = 0 → 1 ≤ s.kdiv.toNat →
    (fwdTimes n s).hostTicks = s.hostTicks + n / s.kdiv.toNat ∧ (fwdTimes n s).tickcnt.toNat = n % s.kdiv.toNat ∧
    (endTimes n s).hostTicks = s.hostTicks + n / s.kdiv.toNat ∧ (endTimes n s).tickcnt.toNat = n % s.kdiv.toNat) ∧
  (∀ (s : State) (op : MicroOp), op ≠ .endCycle →
    (s.runMicro op).hostTicks = s.hostTicks ∧ (s.runMicro op).tickcnt = s.tickcnt) ∧
  (∀ s : State, s.tick.hostTicks = s.hostTicks ∧ s.tick.tickcnt = s.tickcnt)

/-- 41_domain.md R158 with the echo oracle of 20_memory.md R89. Synchronous: what QUEUE_ALL took out of every valid domain,
PROCESS_ALL of the same cycle puts back, byte for byte, and `wstate` is Ok; so it is in the App window of a whole cycle of
steps. Asynchronous (20_memory.md R91): what the domains hold at APP_DONE of one cycle is what its outgoing half sends, and
what the next cycle's App window shows. The list of the wire's answers is log 4, the turns are log 2, the steps log 8. -/
def Obligations.EchoRoundTrip : Prop :=
  ∀ s : State, s.buffersWf = true → s.life = .active → s.sendBatch.life = .active →
    s.wire = echoWire s.sendBatch.dg →
    let returned (t : State) := ∀ (d : Nat) (x : Domain), s.dom[d]? = some x → x.valid = true →
      ∃ x' : Domain, t.dom[d]? = some x' ∧ x'.buf = x.buf ∧ x'.wstate = .ok ∧ x'.dg = none
    returned s.sendBatch.recvAll.processAll ∧
    (s.strategy = .sync → s.phase = .idle → s.todo = [] → s.held = none → s.inputs = [.tick] →
      ∃ t, Sys2Proof.core.run 11 s = .next t ∧ t.phase = .app ∧ t.cycle = s.cycle + 1 ∧ returned t) ∧
    (s.strategy = .async → s.phase = .app → s.tickpend = false → s.todo = [] → s.held = none →
      s.inputs = [.write 0x00 0x06000000, .core, .core, .core, .core, .core, .tick] →
      ∃ t, Sys2Proof.core.run 12 s = .next t ∧ t.phase = .app ∧ t.cycle = s.cycle + 1 ∧ returned t)

/-! ## Bytes -/

/-- 00_scope.md R12: `MemWrite` and `MemRead` inside a buffer, low byte first, and that both refuse a range past its
end. -/
def Obligations.MemWriteThenMemRead : Prop :=
  ∀ (b : Buf) (a n : Nat) (v : Word), b.wf = true → n ≤ 4 →
    (a + n ≤ b.len → ∃ b', b.memWrite a n v = some b' ∧ b'.wf = true ∧ b'.len = b.len ∧
      b'.memRead a n = some (v.toNat % 256 ^ n) ∧ (∀ i, (i < a ∨ a + n ≤ i) → b'.get i = b.get i) ∧
      (∀ k, k < n → (b'.get (a + k)).toNat = v.toNat / 256 ^ k % 256)) ∧
    (b.len < a + n → b.memWrite a n v = none ∧ b.memRead a n = none)

/-- 40_mailbox.md R130, R131: the tests of `fetch_decode`, in order. -/
def Obligations.FetchDecodeTestsInOrder : Prop :=
  ∀ (txSize : Nat) (b : Buf), let len := (b.get 0).toNat + 256 * (b.get 1).toNat
    let type := (b.get 5).toNat % 16
    (txSize < 6 → fetchDecode txSize b = .corrupt) ∧
    (6 ≤ txSize → b.len < 6 → fetchDecode txSize b = .bounds) ∧
    (6 ≤ txSize → 6 ≤ b.len → txSize < len + 6 → fetchDecode txSize b = .corrupt) ∧
    (6 ≤ b.len → len + 6 ≤ txSize → type = 0 → b.len < 10 → fetchDecode txSize b = .bounds) ∧
    (len + 6 ≤ txSize → type = 0 → 10 ≤ b.len → ∃ c, fetchDecode txSize b = .errorReply c ∧
      c.toNat = (b.get 8).toNat + 256 * (b.get 9).toNat) ∧
    (6 ≤ b.len → len + 6 ≤ txSize → type ≠ 0 → b.len < 6 + len → fetchDecode txSize b = .bounds) ∧
    (len + 6 ≤ txSize → type ≠ 0 → 6 + len ≤ b.len → ∃ ty n, fetchDecode txSize b = .data ty n ∧
      ty.toNat = type ∧ n.toNat = len)

/-! ## The lifecycle commands -/

/-- 43_driver_lifecycle.md R220: ACQUIRE. That it leaves `hostTicks`, `rdata` and the environment, and that `t0` becomes
0, are the model's choices (log 6, log 13, log 14). -/
def Obligations.AcquireStartsASession : Prop :=
  ∀ s : State,
    (s.life ≠ .released → exec .acquire s = failsWith s 10) ∧
    (s.life = .released →
      exec .acquire s = .next {
        State.initial s.par { nslave := s.nslave, ndom := s.ndom, nfield := s.nfield, ndg := s.ndg } with
        life := .configuring
        a0 := s.a0, a1 := s.a1, a2 := s.a2, a3 := s.a3, r0 := s.r0, r1 := s.r1, r2 := s.r2, r3 := s.r3
        log := s.log, hostTicks := s.hostTicks, rdata := s.rdata
        inputs := s.inputs, wire := s.wire, elapsed := s.elapsed, draws := s.draws, now := s.now })

/-- 43_driver_lifecycle.md R221: SLAVE_SET. -/
def Obligations.SlaveSetWritesOneEntry : Prop :=
  ∀ (i : Nat) (station : Half) (s : State),
    let rxSize := s.a1.extractLsb' 16 16
    let txSize := s.a2.extractLsb' 16 16
    (s.life ≠ .configuring → exec (.slaveSet i station) s = failsWith s 10) ∧
    (s.life = .configuring → s.nslave ≤ i → exec (.slaveSet i station) s = failsWith s 11) ∧
    (s.life = .configuring → i < s.nslave → (s.par.dgmax < rxSize.toNat ∨ s.par.dgmax < txSize.toNat) →
      exec (.slaveSet i station) s = failsWith s 12) ∧
    (s.life = .configuring → i < s.nslave → rxSize.toNat ≤ s.par.dgmax → txSize.toNat ≤ s.par.dgmax →
      exec (.slaveSet i station) s = .next { s with
        err := 0
        slv := s.slv.set i {
          valid := true, station := station, ring := s.a0.extractLsb' 0 16, protocols := s.a0.extractLsb' 16 16,
          rxOff := s.a1.extractLsb' 0 16, rxSize := rxSize, txOff := s.a2.extractLsb' 0 16, txSize := txSize } })

/-- 43_driver_lifecycle.md R223: ACTIVATE. -/
def Obligations.ActivateStartsCyclicOperation : Prop :=
  ∀ (σ : Strategy) (s : State),
    ((s.life ≠ .configuring ∨ s.fatal = true) → exec (.activate σ) s = failsWith s 10) ∧
    (s.life = .configuring → s.fatal = false → s.a0 = 0 → exec (.activate σ) s = failsWith s 12) ∧
    (s.life = .configuring → s.fatal = false → s.a0 ≠ 0 →
      exec (.activate σ) s = .next { s with
        err := 0, strategy := σ, kdiv := s.a0, cycle := 0, tickcnt := 0, tickpend := false
        tPre := 0, tPost := 0, tFin := 0
        dg := s.dg.map (fun _ => none)
        dom := s.dom.map (fun x => { x with dg := none, wstate := .none })
        mx := { s.mx with st := .idle }
        phase := .idle, todo := [], life := .active })

/-- 43_driver_lifecycle.md R225, R226, R228: DEACTIVATE stops the cyclic operation and keeps the configuration; RELEASE clears
the tables and keeps the sticky flags; `Fatal()` stops as DEACTIVATE does and sets `fatal`. -/
def Obligations.DeactivateAndRelease : Prop :=
  ∀ s : State,
    (s.life ≠ .active → exec .deactivate s = failsWith s 10) ∧
    (s.life = .active →
      exec .deactivate s = .next { s with
        err := 0, life := .configuring, phase := .idle, tickpend := false, todo := []
        dg := s.dg.map (fun _ => none), dom := s.dom.map (fun x => { x with dg := none })
        mx := { s.mx with st := .idle } }) ∧
    (s.life ≠ .configuring → exec .release s = failsWith s 10) ∧
    (s.life = .configuring →
      exec .release s = .next { s with
        err := 0, life := .released, fldcnt := 0
        slv := List.replicate s.nslave {
          valid := false, station := 0, ring := 0, protocols := 0, rxOff := 0, rxSize := 0, txOff := 0, txSize := 0 }
        dom := List.replicate s.ndom {
          valid := false, addr := 0, buf := { len := 0, mem := [] }, dg := none, wstate := .none }
        fld := List.replicate s.nfield {
          valid := false, dom := 0, slave := 0, locator := 0, off := 0, width := 0 } }) ∧
    s.fatalStop = { s with
      fatal := true, life := .configuring, phase := .idle, tickpend := false, todo := []
      dg := s.dg.map (fun _ => none), dom := s.dom.map (fun x => { x with dg := none })
      mx := { s.mx with st := .idle } }

/-! ## The scheduler's commands -/

/-- 42_scheduler.md R178, R179: APP_DONE. Under the synchronous strategy the cycle ends: T_FIN is written, the host tick is
forwarded on every K-th cycle, and a pending tick starts the next cycle in the same step; under the asynchronous strategy
the outgoing half begins. How the time base gives T_FIN and T_PRE is the model's choice (log 5). -/
def Obligations.AppDoneEndsTheWindow : Prop :=
  ∀ s : State,
    ((s.life ≠ .active ∨ s.phase ≠ .app) → exec .appDone s = failsWith s 10) ∧
    (s.life = .active → s.phase = .app → s.strategy = .async →
      exec .appDone s = .next { s with
        err := 0, phase := .sending, todo := [.rel, .queueAll, .mbxOut, .sendAll, .endCycle] }) ∧
    (s.life = .active → s.phase = .app → s.strategy = .sync →
      ∃ (tFin : Word) (now draws : Nat) (elapsed : List Nat),
        s.now ≤ now ∧ tFin.toNat = min (now - s.t0) (2 ^ 32 - 1) ∧
        let forward := s.kdiv.toNat ≤ s.tickcnt.toNat + 1
        let u := { s with
          err := 0, tFin := tFin, now := now, draws := draws, elapsed := elapsed
          ovr := s.ovr || decide (s.par.budget.toNat < tFin.toNat)
          tickcnt := if forward then 0 else BitVec.ofNat 32 (s.tickcnt.toNat + 1)
          hostTicks := if forward then s.hostTicks + 1 else s.hostTicks }
        (s.tickpend = false → exec .appDone s = .next { u with phase := .idle, todo := [] }) ∧
        (s.tickpend = true → ∃ (tPre : Word) (t0 now' draws' : Nat) (elapsed' : List Nat),
          now ≤ t0 ∧ t0 ≤ now' ∧ tPre.toNat = min (now' - t0) (2 ^ 32 - 1) ∧
          exec .appDone s = .next { u with
            tickpend := false, cycle := s.cycle + 1, t0 := t0, tPre := tPre
            now := now', draws := draws', elapsed := elapsed', phase := .sending
            todo :=
              [.rel, .queueAll, .mbxOut, .sendAll, .toAwaiting, .recvAll, .toProcessing, .processAll, .mbxIn, .toApp] }))

/-- 42_scheduler.md R185: MBX_XFER. -/
def Obligations.MbxXferStartsAnExchange : Prop :=
  ∀ (q budget : Nat) (s : State),
    (s.life ≠ .active → exec (.mbxXfer q budget) s = failsWith s 10) ∧
    (s.life = .active → s.ndg ≤ q → exec (.mbxXfer q budget) s = failsWith s 11) ∧
    (s.life = .active → q < s.ndg → s.mx.st ≠ .idle → exec (.mbxXfer q budget) s = failsWith s 14) ∧
    (s.life = .active → q < s.ndg → s.mx.st = .idle →
      (∀ x v, s.slotAt q = some x → x.slv = some v →
        ¬ (x.st = .queued ∧ x.kind = .write ∧ x.owner = .host)) →
      exec (.mbxXfer q budget) s = failsWith s 10) ∧
    (∀ x v, s.life = .active → s.mx.st = .idle → s.slotAt q = some x → x.st = .queued → x.kind = .write →
      x.owner = .host → x.slv = some v →
      (budget = 0 → exec (.mbxXfer q budget) s = failsWith s 12) ∧
      (1 ≤ budget → exec (.mbxXfer q budget) s = .next { s with
        err := 0
        dg := s.dg.set q (some { x with owner := .seq })
        mx := { s.mx with
          st := .sendWait, slave := v, dg := q, budget := BitVec.ofNat 16 budget
          rcode := 0, rknown := false, rtype := 0, rlen := 0, rerr := 0 } }))

/-- 42_scheduler.md R192, R194: MBX_XSTAT shows the sequencer's state and result fields in every state of the sequencer
(R192's pseudocode, not its corner case: DESIGN CHOICE, log 25); MBX_XCLR frees a finished one and keeps the fields. -/
def Obligations.MbxXstatAndXclr : Prop :=
  ∀ s : State,
    (s.life ≠ .active → exec .mbxXstat s = failsWith s 10 ∧ exec .mbxXclr s = failsWith s 10) ∧
    (s.life = .active → ∃ r0 r1 r2 r3 : Word,
      exec .mbxXstat s = .next { s with err := 0, r0 := r0, r1 := r1, r2 := r2, r3 := r3 } ∧
      r0.toNat =
        (match s.mx.st with
          | .idle => 0 | .sendWait => 1 | .pollReady => 2 | .pollWait => 3 | .fetchReady => 4 | .fetchWait => 5
          | .done => 6) ∧
      r1.toNat = s.mx.rcode.toNat + 2 ^ 8 * s.mx.rknown.toNat ∧
      r2.toNat = s.mx.rtype.toNat + 2 ^ 16 * s.mx.rlen.toNat ∧ r3.toNat = s.mx.rerr.toNat) ∧
    (s.life = .active → s.mx.st ≠ .done → exec .mbxXclr s = failsWith s 10) ∧
    (s.life = .active → s.mx.st = .done → exec .mbxXclr s = .next { s with err := 0, mx := { s.mx with st := .idle } })

/-- 42_scheduler.md R193: MBX_XRD. -/
def Obligations.MbxXrdReadsTheResponse : Prop :=
  ∀ (i : Nat) (s : State),
    (s.life ≠ .active → exec (.mbxXrd i) s = failsWith s 10) ∧
    (s.life = .active → (s.mx.st ≠ .done ∨ s.mx.rcode ≠ 0) → exec (.mbxXrd i) s = failsWith s 10) ∧
    (s.life = .active → s.mx.st = .done → s.mx.rcode = 0 → s.mx.rlen.toNat ≤ i →
      exec (.mbxXrd i) s = failsWith s 13) ∧
    (s.life = .active → s.mx.st = .done → s.mx.rcode = 0 → i < s.mx.rlen.toNat →
      exec (.mbxXrd i) s = .next { s with err := 0, r0 := BitVec.ofNat 32 (s.mx.rbuf.get i).toNat })

/-! ## The mailbox engine's commands -/

/-- 40_mailbox.md R124, R125, R122: MBX_PREP_SEND, its tests in order, the inclusive bound, and the six header bytes. The
bytes lie low byte first (PRESUMED by the spec, log 16); a Write has no `addr` (log 7). -/
def Obligations.MbxPrepSendFramesARequest : Prop :=
  ∀ (v size : Nat) (s : State),
    (s.life ≠ .active → exec (.mbxPrepSend v size) s = failsWith s 10) ∧
    (s.life = .active → s.slaveAt v = none → exec (.mbxPrepSend v size) s = failsWith s 11) ∧
    (∀ e, s.life = .active → s.slaveAt v = some e →
      (e.protocols = 0 → exec (.mbxPrepSend v size) s = failsWith s 1) ∧
      (e.protocols ≠ 0 → e.rxSize.toNat < size + 6 → exec (.mbxPrepSend v size) s = failsWith s 2) ∧
      (e.protocols ≠ 0 → size + 6 ≤ e.rxSize.toNat → firstFree s.dg = none →
        exec (.mbxPrepSend v size) s = .next { s.fatalStop with err := 9 }) ∧
      (∀ q, e.protocols ≠ 0 → size + 6 ≤ e.rxSize.toNat → firstFree s.dg = some q →
        ∃ b : Buf,
          exec (.mbxPrepSend v size) s = .next { s with
            err := 0
            dg := s.dg.set q (some {
              st := .queued, kind := .write, station := e.station, offset := e.rxOff, addr := none, data := b,
              status := .pending, owner := .host, slv := some v })
            r0 := BitVec.ofNat 32 q
            r1 := 6
            r2 := BitVec.ofNat 32 (e.rxSize.toNat - 6) } ∧
          b.len = e.rxSize.toNat ∧ (b.get 0).toNat = size % 256 ∧ (b.get 1).toNat = size / 256 % 256 ∧
          (b.get 2).toNat = e.station.toNat % 256 ∧ (b.get 3).toNat = e.station.toNat / 256 ∧ b.get 4 = 0 ∧
          (b.get 5).toNat = s.a0.toNat % 256 ∧ ∀ i, 6 ≤ i → b.get i = 0))

/-- 40_mailbox.md R126, R129: MBX_PREP_CHECK and MBX_PREP_FETCH, which differ only in the address and the length of the
read they queue, and which slot is the lowest Free one (20_memory.md R81); a Read has no `addr` (log 7). -/
def Obligations.MbxPrepCheckAndFetchQueueARead : Prop :=
  ∀ (v : Nat) (s : State),
    (∀ q, firstFree s.dg = some q ↔ q < s.ndg ∧ s.slotAt q = none ∧ ∀ r, r < q → s.slotAt r ≠ none) ∧
    (firstFree s.dg = none ↔ ∀ q, q < s.ndg → s.slotAt q ≠ none) ∧
    (s.life ≠ .active → exec (.mbxPrepCheck v) s = failsWith s 10 ∧ exec (.mbxPrepFetch v) s = failsWith s 10) ∧
    (s.life = .active → s.slaveAt v = none →
      exec (.mbxPrepCheck v) s = failsWith s 11 ∧ exec (.mbxPrepFetch v) s = failsWith s 11) ∧
    (∀ e, s.life = .active → s.slaveAt v = some e → firstFree s.dg = none →
      exec (.mbxPrepCheck v) s = .next { s.fatalStop with err := 9 } ∧
      exec (.mbxPrepFetch v) s = .next { s.fatalStop with err := 9 }) ∧
    (∀ e q, s.life = .active → s.slaveAt v = some e → firstFree s.dg = some q →
      exec (.mbxPrepCheck v) s = .next { s with
        err := 0, r0 := BitVec.ofNat 32 q
        dg := s.dg.set q (some {
          st := .queued, kind := .read, station := e.station, offset := s.par.mbxStateAddr, addr := none,
          data := { len := 8, mem := [] }, status := .pending, owner := .host, slv := some v }) } ∧
      exec (.mbxPrepFetch v) s = .next { s with
        err := 0, r0 := BitVec.ofNat 32 q
        dg := s.dg.set q (some {
          st := .queued, kind := .read, station := e.station, offset := e.txOff, addr := none,
          data := { len := e.txSize.toNat, mem := [] }, status := .pending, owner := .host, slv := some v }) })

/-- 40_mailbox.md R127, R128: MBX_CHECK tests bit 3 of byte 5 of a completed slot and nothing else. -/
def Obligations.MbxCheckTestsTheReadinessFlag : Prop :=
  ∀ (q : Nat) (s : State),
    (s.life ≠ .active → exec (.mbxCheck q) s = failsWith s 10) ∧
    (s.life = .active → s.ndg ≤ q → exec (.mbxCheck q) s = failsWith s 11) ∧
    (s.life = .active → q < s.ndg → (∀ x, s.slotAt q = some x → x.st ≠ .done) →
      exec (.mbxCheck q) s = failsWith s 10) ∧
    (∀ x, s.life = .active → s.slotAt q = some x → x.st = .done →
      (x.data.len < 6 → exec (.mbxCheck q) s = failsWith s 13) ∧
      (6 ≤ x.data.len → exec (.mbxCheck q) s = .next { s with
        err := 0, r0 := if (x.data.get 5).toNat / 8 % 2 = 1 then 1 else 0 }))

/-- 40_mailbox.md R132, 10_state.md R27: MBX_FETCH reports a corrupt frame and an error reply in ERR and in LOG, and else
gives the type and the place of the payload. -/
def Obligations.MbxFetchValidatesAndDecodes : Prop :=
  ∀ (q v : Nat) (s : State),
    (s.life ≠ .active → exec (.mbxFetch q v) s = failsWith s 10) ∧
    (s.life = .active → (s.ndg ≤ q ∨ s.slaveAt v = none) → exec (.mbxFetch q v) s = failsWith s 11) ∧
    (∀ e, s.life = .active → s.slaveAt v = some e → q < s.ndg → (∀ x, s.slotAt q = some x → x.st ≠ .done) →
      exec (.mbxFetch q v) s = failsWith s 10) ∧
    (∀ e x, s.life = .active → s.slaveAt v = some e → s.slotAt q = some x → x.st = .done →
      (fetchDecode e.txSize.toNat x.data = .corrupt →
        exec (.mbxFetch q v) s = .next { s with err := 3, log := s.log ++ [.corruptFrame v x.data.toBytes] }) ∧
      (fetchDecode e.txSize.toNat x.data = .bounds → exec (.mbxFetch q v) s = failsWith s 13) ∧
      (∀ c, fetchDecode e.txSize.toNat x.data = .errorReply c → ∃ w : Word,
        exec (.mbxFetch q v) s = .next { s with
          err := w, log := s.log ++ [.errorReply v c ((s.par.errtab.lookup c).getD "unknown code")] } ∧
        w.toNat = 4 + (if (s.par.errtab.lookup c).isSome then 256 else 0) + 65536 * c.toNat) ∧
      (∀ ty n, fetchDecode e.txSize.toNat x.data = .data ty n →
        exec (.mbxFetch q v) s = .next { s with
          err := 0, r0 := BitVec.ofNat 32 ty.toNat, r1 := 6, r2 := BitVec.ofNat 32 n.toNat }))

/-! ## The buffer access commands -/

/-- 40_mailbox.md R135: DG_RD. -/
def Obligations.DgRdReadsOneByte : Prop :=
  ∀ (q i : Nat) (s : State),
    (s.life ≠ .active → exec (.dgRd q i) s = failsWith s 10) ∧
    (s.life = .active → s.ndg ≤ q → exec (.dgRd q i) s = failsWith s 11) ∧
    (s.life = .active → q < s.ndg → s.slotAt q = none → exec (.dgRd q i) s = failsWith s 10) ∧
    (∀ x, s.life = .active → s.slotAt q = some x → x.data.len ≤ i → exec (.dgRd q i) s = failsWith s 13) ∧
    (∀ x, s.life = .active → s.slotAt q = some x → i < x.data.len →
      exec (.dgRd q i) s = .next { s with err := 0, r0 := BitVec.ofNat 32 (x.data.get i).toNat })

/-- 40_mailbox.md R136: DG_WR writes one byte of the payload region of a request of the host and no other byte. -/
def Obligations.DgWrWritesOneByte : Prop :=
  ∀ (q i : Nat) (s : State), s.buffersWf = true →
    (s.life ≠ .active → exec (.dgWr q i) s = failsWith s 10) ∧
    (s.life = .active → s.ndg ≤ q → exec (.dgWr q i) s = failsWith s 11) ∧
    (s.life = .active → q < s.ndg →
      (∀ x, s.slotAt q = some x → ¬ (x.st = .queued ∧ x.kind = .write ∧ x.owner = .host)) →
      exec (.dgWr q i) s = failsWith s 10) ∧
    (∀ x, s.life = .active → s.slotAt q = some x → x.st = .queued → x.kind = .write → x.owner = .host →
      ((i < 6 ∨ x.data.len ≤ i) → exec (.dgWr q i) s = failsWith s 13) ∧
      (6 ≤ i → i < x.data.len → ∃ b : Buf,
        exec (.dgWr q i) s = .next { s with err := 0, dg := s.dg.set q (some { x with data := b }) } ∧
        b.len = x.data.len ∧ ∀ j, b.get j = if j = i then s.a0.extractLsb' 0 8 else x.data.get j))

/-- 40_mailbox.md R138: DG_STAT; a Free slot answers zeros. -/
def Obligations.DgStatShowsTheBookkeeping : Prop :=
  ∀ (q : Nat) (s : State),
    (s.life ≠ .active → exec (.dgStat q) s = failsWith s 10) ∧
    (s.life = .active → s.ndg ≤ q → exec (.dgStat q) s = failsWith s 11) ∧
    (s.life = .active → q < s.ndg → s.slotAt q = none →
      exec (.dgStat q) s = .next { s with err := 0, r0 := 0, r1 := 0, r2 := 0, r3 := 0 }) ∧
    (∀ x, s.life = .active → s.slotAt q = some x → ∃ r0 r1 r3 : Word,
      exec (.dgStat q) s = .next { s with
        err := 0, r0 := r0, r1 := r1, r2 := BitVec.ofNat 32 x.data.len, r3 := r3 } ∧
      r0.toNat = (match x.st with | .queued => 1 | .inFlight => 2 | .done => 3) ∧
      r1.toNat = (match x.status with | .pending => 0 | .ok => 1 | .notActed => 2 | .lost => 3) ∧
      r3.toNat =
        (match x.kind with | .read => 0 | .write => 1 | .exchange => 2) +
          (match x.owner with | .host => 0 | .seq => 2 ^ 8 | .dom d => 2 * 2 ^ 8 + 2 ^ 16 * (d % 256)))

/-! ## The domain commands -/

/-- 41_domain.md R151: DOM_CREATE. -/
def Obligations.DomCreateMakesADomain : Prop :=
  ∀ (d size : Nat) (s : State),
    (s.life = .active → exec (.domCreate d size) s = failsWith s 7) ∧
    (s.life = .released → exec (.domCreate d size) s = failsWith s 10) ∧
    (s.life = .configuring → (s.ndom ≤ d ∨ ∃ x, s.dom[d]? = some x ∧ x.valid = true) →
      exec (.domCreate d size) s = failsWith s 11) ∧
    (∀ x, s.life = .configuring → s.dom[d]? = some x → x.valid = false →
      ((size = 0 ∨ s.par.dgmax < size) → exec (.domCreate d size) s = failsWith s 12) ∧
      (1 ≤ size → size ≤ s.par.dgmax →
        exec (.domCreate d size) s = .next { s with
          err := 0
          dom := s.dom.set d {
            valid := true, addr := s.a0, buf := { len := size, mem := [] }, dg := none, wstate := .none } }))

/-- 41_domain.md R152: DOM_REG_FIELD, its tests in order, and the handle it gives out. -/
def Obligations.DomRegFieldGivesOutAHandle : Prop :=
  ∀ (d off : Nat) (s : State),
    let v := (s.a0.extractLsb' 0 8).toNat
    let width := (s.a0.extractLsb' 8 8).toNat
    (s.life = .active → exec (.domRegField d off) s = failsWith s 7) ∧
    (s.life = .released → exec (.domRegField d off) s = failsWith s 10) ∧
    (s.life = .configuring → (s.domainAt d = none ∨ s.slaveAt v = none) →
      exec (.domRegField d off) s = failsWith s 11) ∧
    (∀ x e, s.life = .configuring → s.domainAt d = some x → s.slaveAt v = some e →
      (¬ (width = 1 ∨ width = 2 ∨ width = 4) → exec (.domRegField d off) s = failsWith s 12) ∧
      ((width = 1 ∨ width = 2 ∨ width = 4) → x.buf.len < off + width →
        exec (.domRegField d off) s = failsWith s 12) ∧
      ((width = 1 ∨ width = 2 ∨ width = 4) → off + width ≤ x.buf.len → s.nfield ≤ s.fldcnt →
        exec (.domRegField d off) s = failsWith s 16) ∧
      ((width = 1 ∨ width = 2 ∨ width = 4) → off + width ≤ x.buf.len → s.fldcnt < s.nfield →
        exec (.domRegField d off) s = .next { s with
          err := 0
          fld := s.fld.set s.fldcnt {
            valid := true, dom := d, slave := v, locator := s.a1, off := off, width := width }
          fldcnt := s.fldcnt + 1
          r0 := BitVec.ofNat 32 s.fldcnt }))

/-- 41_domain.md R153: FLD_RD; in a state that meets 10_state.md R60 the access is never out of bounds. -/
def Obligations.FldRdReadsTheField : Prop :=
  ∀ (h : Nat) (s : State),
    ((s.life ≠ .active ∨ s.phase ≠ .app) → exec (.fldRd h) s = failsWith s 10) ∧
    (s.life = .active → s.phase = .app → s.fldcnt ≤ h → exec (.fldRd h) s = failsWith s 11) ∧
    (s.consistent → s.life = .active → s.phase = .app → h < s.fldcnt → ∃ f x, s.fld[h]? = some f ∧
      s.domainAt f.dom = some x ∧ f.off + f.width ≤ x.buf.len ∧
      exec (.fldRd h) s = .next { s with
        err := 0
        r0 := BitVec.ofNat 32
          (if f.width = 1 then (x.buf.get f.off).toNat
           else if f.width = 2 then (x.buf.get f.off).toNat + 256 * (x.buf.get (f.off + 1)).toNat
           else (x.buf.get f.off).toNat + 256 * (x.buf.get (f.off + 1)).toNat +
             65536 * (x.buf.get (f.off + 2)).toNat + 16777216 * (x.buf.get (f.off + 3)).toNat) })

/-- 41_domain.md R154: FLD_WR writes the low `width` bytes of A0 at the field's place in its domain's buffer, low byte
first; every other byte of every domain, and everything else, is unchanged. -/
def Obligations.FldWrWritesTheField : Prop :=
  ∀ (h : Nat) (s : State),
    ((s.life ≠ .active ∨ s.phase ≠ .app) → exec (.fldWr h) s = failsWith s 10) ∧
    (s.life = .active → s.phase = .app → s.fldcnt ≤ h → exec (.fldWr h) s = failsWith s 11) ∧
    (s.consistent → s.buffersWf = true → s.life = .active → s.phase = .app → h < s.fldcnt →
      ∃ f t, s.fld[h]? = some f ∧ exec (.fldWr h) s = .next t ∧ t = { s with err := 0, dom := t.dom } ∧
        ∀ (d : Nat) (x : Domain), s.dom[d]? = some x → ∃ b : Buf, t.dom[d]? = some { x with buf := b } ∧ b.len = x.buf.len ∧
          ∀ i, b.get i =
            if d = f.dom ∧ f.off ≤ i ∧ i < f.off + f.width then s.a0.extractLsb' (8 * (i - f.off)) 8
            else x.buf.get i)

/-- A field value written in the App window is what a read of the same handle gives next, truncated to the field's width
(41_domain.md R153, R154). -/
def Obligations.FieldReadAfterWrite : Prop :=
  ∀ (h : Nat) (s t : State) (f : Field), s.consistent → s.buffersWf = true → s.life = .active → s.phase = .app →
    h < s.fldcnt → s.fld[h]? = some f → exec (.fldWr h) s = .next t →
    exec (.fldRd h) t = .next { t with r0 := BitVec.ofNat 32 (s.a0.toNat % 256 ^ f.width) }
end

