-- ==== Sys2Proof/Laws/Memory.lean ====
section
/-! SUPPORT. The laws of byte spaces: read after write, the frame of a write, and that every memory operation keeps the
canonical form. -/

namespace Sys2Proof.Machine

/-! ## Cells -/

/-- Canonical form from a higher index is canonical form from a lower one. -/
theorem Memory.wfFrom_mono {lo hi : Nat} {m : Memory} (h : Memory.wfFrom hi m = true) (hle : lo ≤ hi) :
    Memory.wfFrom lo m = true := by
  cases m with
  | nil => rfl
  | cons c m =>
    simp only [Memory.wfFrom, Bool.and_eq_true, decide_eq_true_eq] at h ⊢
    exact ⟨⟨by omega, h.1.2⟩, h.2⟩

/-- Below the first index nothing is listed. -/
theorem Memory.read_below {lo : Nat} {m : Memory} (h : Memory.wfFrom lo m = true) {a : Nat} (ha : a < lo) :
    Memory.read m a = 0 := by
  induction m generalizing lo with
  | nil => rfl
  | cons c m ih =>
    simp only [Memory.wfFrom, Bool.and_eq_true, decide_eq_true_eq] at h
    have hne : c.1 ≠ a := by omega
    simp [Memory.read, hne, ih h.2 (by omega : a < c.1 + 1)]

/-- Read after write, on a canonical memory. -/
theorem Memory.read_write {lo : Nat} {m : Memory} (h : Memory.wfFrom lo m = true) (a i : Nat) (v : Byte) :
    Memory.read (Memory.write m a v) i = if i = a then v else Memory.read m i := by
  induction m generalizing lo with
  | nil =>
    by_cases hv : v = 0#8 <;> by_cases hi : i = a
    · simp [Memory.write, Memory.read, hv]
    · simp [Memory.write, Memory.read, hv]
    · subst hi; simp [Memory.write, Memory.read, hv]
    · have hai : ¬ a = i := fun e => hi e.symm
      simp [Memory.write, Memory.read, hv, hi, hai]
  | cons c m ih =>
    obtain ⟨k, b⟩ := c
    simp only [Memory.wfFrom, Bool.and_eq_true, decide_eq_true_eq] at h
    have hm := ih h.2
    have hb : ∀ x, x < k + 1 → Memory.read m x = 0#8 := fun x hx => Memory.read_below h.2 hx
    simp only [Memory.write]
    rcases Nat.lt_trichotomy a k with hak | rfl | hak
    · have hka : ¬ k = a := by omega
      by_cases hv : v = 0#8 <;> by_cases hi : i = a
      · subst hi; simp [hak, hv, Memory.read, hka, hb i (by omega)]
      · simp [hak, hv, hi]
      · subst hi; simp [hak, hv, Memory.read]
      · have hai : ¬ a = i := fun e => hi e.symm
        simp [hak, hv, hi, hai, Memory.read]
    · by_cases hv : v = 0#8 <;> by_cases hi : i = a
      · subst hi; simp [hv, hb i (by omega)]
      · have hai : ¬ a = i := fun e => hi e.symm
        simp [hv, hi, hai, Memory.read]
      · subst hi; simp [hv, Memory.read]
      · have hai : ¬ a = i := fun e => hi e.symm
        simp [hv, hi, hai, Memory.read]
    · have h1 : ¬ a < k := by omega
      have h2 : ¬ a = k := by omega
      by_cases hki : k = i
      · subst hki
        have h3 : ¬ k = a := fun e => h2 e.symm
        simp [h1, h2, h3, Memory.read]
      · simp [h1, h2, Memory.read, hki, hm]

/-- A write keeps the canonical form. -/
theorem Memory.wfFrom_write {lo : Nat} {m : Memory} (h : Memory.wfFrom lo m = true) {a : Nat} (ha : lo ≤ a) (v : Byte) :
    Memory.wfFrom lo (Memory.write m a v) = true := by
  induction m generalizing lo with
  | nil => by_cases hv : v = 0#8 <;> simp [Memory.write, Memory.wfFrom, hv, ha]
  | cons c m ih =>
    obtain ⟨k, b⟩ := c
    have h' := h
    simp only [Memory.wfFrom, Bool.and_eq_true, decide_eq_true_eq] at h
    simp only [Memory.write]
    split
    · rename_i hak
      by_cases hv : v = 0#8
      · simpa [hv] using h'
      · simp [hv, Memory.wfFrom, ha, h.1.2, h.2]
        omega
    · split
      · by_cases hv : v = 0#8
        · simpa [hv] using Memory.wfFrom_mono h.2 (by omega)
        · simp [hv, Memory.wfFrom, h.1.1, h.2]
      · simp [Memory.wfFrom, h.1.1, h.1.2, ih h.2 (by omega)]

/-- Every index listed after a write was listed before or is the one written. -/
theorem Memory.all_write {p : Nat → Bool} {m : Memory} (h : m.all (fun c => p c.1) = true) {a : Nat} (ha : p a = true)
    (v : Byte) : (Memory.write m a v).all (fun c => p c.1) = true := by
  induction m with
  | nil => by_cases hv : v = 0#8 <;> simp [Memory.write, hv, ha]
  | cons c m ih =>
    obtain ⟨k, b⟩ := c
    simp only [List.all_cons, Bool.and_eq_true] at h
    simp only [Memory.write]
    split
    · by_cases hv : v = 0#8 <;> simp [hv, ha, h.1, h.2]
    · split
      · by_cases hv : v = 0#8 <;> simp [hv, h.1, h.2]
      · simp [h.1, ih h.2]

/-- Laying out bytes gives the canonical form. -/
theorem Memory.wfFrom_ofBytes (k : Nat) (bs : List Byte) : Memory.wfFrom k (Memory.ofBytes k bs) = true := by
  induction bs generalizing k with
  | nil => rfl
  | cons b bs ih =>
    by_cases hb : b = 0#8
    · simp [Memory.ofBytes, hb, Memory.wfFrom_mono (ih (k + 1)) (by omega : k ≤ k + 1)]
    · simp [Memory.ofBytes, hb, Memory.wfFrom, ih (k + 1)]

/-- Bytes laid out from `k` reach as far as there are bytes. -/
theorem Memory.all_ofBytes (k n : Nat) (bs : List Byte) (h : k + bs.length ≤ n) :
    (Memory.ofBytes k bs).all (fun c => decide (c.1 < n)) = true := by
  induction bs generalizing k with
  | nil => rfl
  | cons b bs ih =>
    simp only [List.length_cons] at h
    by_cases hb : b = 0#8
    · simpa [Memory.ofBytes, hb] using ih (k + 1) (by omega)
    · simp only [Memory.ofBytes, hb, if_false, List.all_cons, Bool.and_eq_true, decide_eq_true_eq]
      exact ⟨by omega, ih (k + 1) (by omega)⟩

/-- What a memory laid out from bytes reads as. -/
theorem Memory.read_ofBytes (k : Nat) (bs : List Byte) (i : Nat) :
    Memory.read (Memory.ofBytes k bs) (k + i) = bs[i]?.getD 0 := by
  induction bs generalizing k i with
  | nil => rfl
  | cons b bs ih =>
    have hlow : Memory.read (Memory.ofBytes (k + 1) bs) k = 0 :=
      Memory.read_below (Memory.wfFrom_ofBytes (k + 1) bs) (by omega)
    cases i with
    | zero => by_cases hb : b = 0#8 <;> simp [Memory.ofBytes, hb, Memory.read, hlow]
    | succ i =>
      have := ih (k + 1) i
      rw [show k + 1 + i = k + (i + 1) by omega] at this
      by_cases hb : b = 0#8 <;> simp [Memory.ofBytes, hb, Memory.read, this]

/-- Leaving cells out keeps the canonical form. -/
theorem Memory.wfFrom_below {lo : Nat} {m : Memory} (n : Nat) (h : Memory.wfFrom lo m = true) :
    Memory.wfFrom lo (Memory.below n m) = true := by
  induction m generalizing lo with
  | nil => rfl
  | cons c m ih =>
    simp only [Memory.wfFrom, Bool.and_eq_true, decide_eq_true_eq] at h
    have hm := ih h.2
    by_cases hc : c.1 < n
    · have : Memory.below n (c :: m) = c :: Memory.below n m := by simp [Memory.below, List.filter, hc]
      rw [this]
      simp only [Memory.wfFrom, Bool.and_eq_true, decide_eq_true_eq]
      exact ⟨h.1, hm⟩
    · simpa [Memory.below, List.filter, hc] using Memory.wfFrom_mono hm (by omega)

/-- Leaving out cells at or past `n` changes no read below `n`. -/
theorem Memory.read_belowOf (n : Nat) (m : Memory) (i : Nat) :
    Memory.read (Memory.below n m) i = if i < n then Memory.read m i else 0 := by
  induction m with
  | nil => simp [Memory.below, Memory.read]
  | cons c m ih =>
    by_cases hc : c.1 < n
    · have : Memory.below n (c :: m) = c :: Memory.below n m := by simp [Memory.below, List.filter, hc]
      rw [this]
      by_cases hi : c.1 = i
      · simp [Memory.read, hi]
        omega
      · simp [Memory.read, hi, ih]
    · have : Memory.below n (c :: m) = Memory.below n m := by simp [Memory.below, List.filter, hc]
      rw [this, ih]
      by_cases hi : i < n
      · have hne : ¬ c.1 = i := by omega
        simp only [Memory.read, if_neg hne]
      · simp [hi]

/-- Two canonical memories that read alike are the same list. -/
theorem Memory.ext_of_wf {lo : Nat} {m m' : Memory} (h : Memory.wfFrom lo m = true) (h' : Memory.wfFrom lo m' = true)
    (heq : ∀ i, Memory.read m i = Memory.read m' i) : m = m' := by
  induction m generalizing lo m' with
  | nil =>
    cases m' with
    | nil => rfl
    | cons c m' =>
      simp only [Memory.wfFrom, Bool.and_eq_true, decide_eq_true_eq] at h'
      have := heq c.1
      simp [Memory.read] at this
      exact absurd this.symm h'.1.2
  | cons c m ih =>
    obtain ⟨k, b⟩ := c
    have hh := h
    simp only [Memory.wfFrom, Bool.and_eq_true, decide_eq_true_eq] at h
    cases m' with
    | nil =>
      have := heq k
      simp [Memory.read] at this
      exact absurd this h.1.2
    | cons c' m' =>
      obtain ⟨k', b'⟩ := c'
      have hh' := h'
      simp only [Memory.wfFrom, Bool.and_eq_true, decide_eq_true_eq] at h'
      have hkk : k = k' := by
        rcases Nat.lt_trichotomy k k' with hlt | heq' | hgt
        · have h0 := heq k
          have hne : ¬ k' = k := by omega
          simp only [Memory.read, if_true, if_neg hne, Memory.read_below h'.2 (by omega : k < k' + 1)] at h0
          exact absurd h0 h.1.2
        · exact heq'
        · have h0 := heq k'
          have hne : ¬ k = k' := by omega
          simp only [Memory.read, if_true, if_neg hne, Memory.read_below h.2 (by omega : k' < k + 1)] at h0
          exact absurd h0.symm h'.1.2
      subst hkk
      have hbb : b = b' := by simpa [Memory.read] using heq k
      subst hbb
      have : m = m' := ih h.2 h'.2 fun i => by
        by_cases hi : i < k + 1
        · rw [Memory.read_below h.2 hi, Memory.read_below h'.2 hi]
        · have hne : ¬ k = i := by omega
          simpa only [Memory.read, if_neg hne] using heq i
      rw [this]

/-! ## Buffers -/

/-- The two halves of a buffer's canonical form. -/
theorem Buf.wf_iff (b : Buf) :
    b.wf = true ↔ Memory.wfFrom 0 b.mem = true ∧ b.mem.all (fun c => decide (c.1 < b.len)) = true := by
  simp [Buf.wf, Memory.wf]

@[simp] theorem Buf.zero_len (n : Nat) : (Buf.zero n).len = n := rfl

@[simp] theorem Buf.zero_get (n i : Nat) : (Buf.zero n).get i = 0 := rfl

theorem Buf.zero_wf (n : Nat) : (Buf.zero n).wf = true := rfl

@[simp] theorem Buf.set_len (b : Buf) (i : Nat) (v : Byte) : (b.set i v).len = b.len := by
  unfold Buf.set
  split <;> rfl

/-- Read after write: the byte written where it lies in the buffer, every other byte unchanged. -/
theorem Buf.get_set {b : Buf} (h : b.wf = true) (i j : Nat) (v : Byte) :
    (b.set i v).get j = if j = i ∧ i < b.len then v else b.get j := by
  unfold Buf.set
  split
  · rename_i hi
    simp [Buf.get, Memory.read_write ((Buf.wf_iff b).1 h).1, hi]
  · rename_i hi
    simp [hi]

theorem Buf.set_wf {b : Buf} (h : b.wf = true) (i : Nat) (v : Byte) : (b.set i v).wf = true := by
  obtain ⟨h1, h2⟩ := (Buf.wf_iff b).1 h
  unfold Buf.set
  split
  · rename_i hi
    exact (Buf.wf_iff _).2 ⟨Memory.wfFrom_write h1 (Nat.zero_le _) v,
      Memory.all_write (p := fun n => decide (n < b.len)) h2 (by simpa using hi) v⟩
  · exact h

@[simp] theorem Buf.ofBytes_len (bs : List Byte) : (Buf.ofBytes bs).len = bs.length := rfl

theorem Buf.ofBytes_wf (bs : List Byte) : (Buf.ofBytes bs).wf = true :=
  (Buf.wf_iff _).2 ⟨Memory.wfFrom_ofBytes 0 bs, Memory.all_ofBytes 0 bs.length bs (by omega)⟩

/-- A buffer made of bytes reads as those bytes. -/
theorem Buf.ofBytes_get (bs : List Byte) (i : Nat) : (Buf.ofBytes bs).get i = bs[i]?.getD 0 := by
  simpa [Buf.get, Buf.ofBytes] using Memory.read_ofBytes 0 bs i

/-- A canonical buffer reads 0 at and past its length. -/
theorem Buf.get_past {b : Buf} (h : b.wf = true) {i : Nat} (hi : b.len ≤ i) : b.get i = 0 := by
  have h2 := ((Buf.wf_iff b).1 h).2
  unfold Buf.get
  generalize b.mem = m at h2
  induction m with
  | nil => rfl
  | cons c m ih =>
    simp only [List.all_cons, Bool.and_eq_true, decide_eq_true_eq] at h2
    have hne : ¬ c.1 = i := by omega
    simp only [Memory.read, if_neg hne, ih h2.2]

/-- Two canonical buffers of one length that read alike are equal. -/
theorem Buf.ext_of_wf {b b' : Buf} (h : b.wf = true) (h' : b'.wf = true) (hl : b.len = b'.len)
    (heq : ∀ i, b.get i = b'.get i) : b = b' := by
  obtain ⟨l, m⟩ := b
  obtain ⟨l', m'⟩ := b'
  have hm : m = m' := Memory.ext_of_wf ((Buf.wf_iff _).1 h).1 ((Buf.wf_iff _).1 h').1 heq
  simp only at hl
  rw [hm, hl]

@[simp] theorem Buf.toBytes_length (b : Buf) : b.toBytes.length = b.len := by simp [Buf.toBytes]

/-- The bytes of a canonical buffer give that buffer back. -/
theorem Buf.ofBytes_toBytes {b : Buf} (h : b.wf = true) : Buf.ofBytes b.toBytes = b := by
  refine Buf.ext_of_wf (Buf.ofBytes_wf _) h (by simp) fun i => ?_
  rw [Buf.ofBytes_get]
  by_cases hi : i < b.len
  · simp [Buf.toBytes, hi]
  · have hg : b.get i = 0 := Buf.get_past h (by omega)
    simp [Buf.toBytes, hi, hg]

@[simp] theorem Buf.copyInto_len (dst src : Buf) : (dst.copyInto src).len = dst.len := rfl

theorem Buf.copyInto_wf (dst : Buf) {src : Buf} (h : src.wf = true) : (dst.copyInto src).wf = true := by
  refine (Buf.wf_iff _).2 ⟨Memory.wfFrom_below _ ((Buf.wf_iff src).1 h).1, ?_⟩
  simp only [Buf.copyInto, Memory.below, List.all_filter]
  exact List.all_eq_true.2 fun c _ => by by_cases hc : c.1 < dst.len <;> simp [hc]

/-- Copying in: every byte of the destination is the source's. -/
theorem Buf.copyInto_get (dst src : Buf) (i : Nat) :
    (dst.copyInto src).get i = if i < dst.len then src.get i else 0 := by
  simp [Buf.get, Buf.copyInto, Memory.read_belowOf]

/-- Copying a canonical buffer into one of its length gives that buffer. -/
theorem Buf.copyInto_eq {dst src : Buf} (h : src.wf = true) (hl : dst.len = src.len) : dst.copyInto src = src := by
  refine Buf.ext_of_wf (Buf.copyInto_wf dst h) h (by simp [hl]) fun i => ?_
  rw [Buf.copyInto_get]
  split
  · rfl
  · exact (Buf.get_past h (by omega)).symm

@[simp] theorem Buf.blit_len (dst src : Buf) (start n : Nat) : (dst.blit src start n).len = dst.len := by
  induction n with
  | zero => rfl
  | succ n ih => simp [Buf.blit, ih]

theorem Buf.blit_wf {dst : Buf} (h : dst.wf = true) (src : Buf) (start n : Nat) : (dst.blit src start n).wf = true := by
  induction n with
  | zero => exact h
  | succ n ih => exact Buf.set_wf ih _ _

/-- The first `n` bytes come from the source, the others stay. -/
theorem Buf.blit_get {dst : Buf} (h : dst.wf = true) (src : Buf) (start n : Nat) (hn : n ≤ dst.len) (i : Nat) :
    (dst.blit src start n).get i = if i < n then src.get (start + i) else dst.get i := by
  induction n with
  | zero => simp [Buf.blit]
  | succ n ih =>
    simp only [Buf.blit]
    rw [Buf.get_set (Buf.blit_wf h src start n), ih (by omega)]
    simp only [Buf.blit_len]
    by_cases hi : i = n
    · simp [hi, (by omega : n < dst.len)]
    · by_cases hlt : i < n
      · simp [hi, hlt, (by omega : i < n + 1)]
      · rw [if_neg (by omega), if_neg hlt, if_neg (by omega)]

@[simp] theorem Buf.wr16_len (b : Buf) (i : Nat) (v : Half) : (b.wr16 i v).len = b.len := by simp [Buf.wr16]

theorem Buf.wr16_wf {b : Buf} (h : b.wf = true) (i : Nat) (v : Half) : (b.wr16 i v).wf = true :=
  Buf.set_wf (Buf.set_wf h _ _) _ _

/-- `rd16` as a number (00_scope.md R12). -/
theorem Buf.rd16_toNat (b : Buf) (i : Nat) : (b.rd16 i).toNat = (b.get i).toNat + 256 * (b.get (i + 1)).toNat := by
  have h : (b.rd16 i).toNat = (b.get (i + 1)).toNat <<< 8 ||| (b.get i).toNat :=
    BitVec.toNat_append (b.get (i + 1)) (b.get i)
  rw [h, ← Nat.shiftLeft_add_eq_or_of_lt (b.get i).isLt, Nat.shiftLeft_eq]
  omega

@[simp] theorem Buf.putBytes_len (b : Buf) (a : Nat) (v : Word) (n : Nat) : (b.putBytes a v n).len = b.len := by
  induction n with
  | zero => rfl
  | succ n ih => simp [Buf.putBytes, ih]

theorem Buf.putBytes_wf {b : Buf} (h : b.wf = true) (a : Nat) (v : Word) (n : Nat) : (b.putBytes a v n).wf = true := by
  induction n with
  | zero => exact h
  | succ n ih => exact Buf.set_wf ih _ _

/-- `MemWrite` writes the `n` bytes from index `a`, low byte first, and no other. -/
theorem Buf.putBytes_get {b : Buf} (h : b.wf = true) (a : Nat) (v : Word) (n : Nat) (hn : a + n ≤ b.len) (i : Nat) :
    (b.putBytes a v n).get i = if a ≤ i ∧ i < a + n then v.extractLsb' (8 * (i - a)) 8 else b.get i := by
  induction n with
  | zero => rw [if_neg (by omega)]; rfl
  | succ n ih =>
    simp only [Buf.putBytes]
    rw [Buf.get_set (Buf.putBytes_wf h a v n), ih (by omega)]
    simp only [Buf.putBytes_len]
    by_cases hi : i = a + n
    · simp [hi, (by omega : a + n < b.len), (by omega : a ≤ a + n), (by omega : a + n < a + (n + 1))]
    · by_cases hlt : a ≤ i ∧ i < a + n
      · simp [hi, hlt, (by omega : i < a + (n + 1))]
      · have : ¬ (a ≤ i ∧ i < a + (n + 1)) := by omega
        simp [hi, hlt, this]

/-- `MemRead` answers exactly inside the buffer. -/
theorem Buf.memRead_eq_some {b : Buf} {a n r : Nat} :
    b.memRead a n = some r ↔ a + n ≤ b.len ∧ r = b.sumBytes a n := by
  unfold Buf.memRead
  split <;> simp_all [eq_comm]

/-- `MemWrite` answers exactly inside the buffer. -/
theorem Buf.memWrite_eq_some {b b' : Buf} {a n : Nat} {v : Word} :
    b.memWrite a n v = some b' ↔ a + n ≤ b.len ∧ b' = b.putBytes a v n := by
  unfold Buf.memWrite
  split <;> simp_all [eq_comm]

/-- A sum of `n` bytes fits `n` bytes. -/
theorem Buf.sumBytes_lt (b : Buf) (a n : Nat) : b.sumBytes a n < 256 ^ n := by
  induction n with
  | zero => simp [Buf.sumBytes]
  | succ n ih =>
    have h1 : (b.get (a + n)).toNat ≤ 255 := by omega
    have h2 : (b.get (a + n)).toNat * 256 ^ n ≤ 255 * 256 ^ n := Nat.mul_le_mul_right _ h1
    simp only [Buf.sumBytes, Nat.pow_succ]
    omega

/-- The sum of the bytes a word is laid out in is the word, cut to that many bytes (00_scope.md R12). -/
theorem Buf.sumBytes_of_bytes (b : Buf) (a : Nat) (v : Word) (n : Nat)
    (h : ∀ k, k < n → b.get (a + k) = v.extractLsb' (8 * k) 8) : b.sumBytes a n = v.toNat % 256 ^ n := by
  induction n with
  | zero => simp [Buf.sumBytes, Nat.mod_one]
  | succ n ih =>
    have hb : (b.get (a + n)).toNat = v.toNat / 256 ^ n % 256 := by
      rw [h n (by omega), BitVec.extractLsb'_toNat, Nat.shiftRight_eq_div_pow, Nat.pow_mul]
    rw [Buf.sumBytes, ih fun k hk => h k (by omega), hb, Nat.pow_succ, Nat.mod_mul, Nat.mul_comm]

@[simp] theorem putHeader_len (b : Buf) (size : Nat) (station : Half) (t : Byte) :
    (putHeader b size station t).len = b.len := by simp [putHeader]

theorem putHeader_wf {b : Buf} (h : b.wf = true) (size : Nat) (station : Half) (t : Byte) :
    (putHeader b size station t).wf = true :=
  Buf.set_wf (Buf.set_wf (Buf.wr16_wf (Buf.wr16_wf h _ _) _ _) _ _) _ _

/-- The bytes of a framed request (40_mailbox.md R121, R124). -/
theorem putHeader_get {b : Buf} (h : b.wf = true) (hl : 6 ≤ b.len) (size : Nat) (station : Half) (t : Byte) (i : Nat) :
    (putHeader b size station t).get i =
      if i = 5 then t else if i = 4 then 0
      else if i = 3 then station.extractLsb' 8 8 else if i = 2 then station.extractLsb' 0 8
      else if i = 1 then (BitVec.ofNat 16 size).extractLsb' 8 8
      else if i = 0 then (BitVec.ofNat 16 size).extractLsb' 0 8 else b.get i := by
  have w1 := Buf.wr16_wf h 0 (BitVec.ofNat 16 size)
  have w2 := Buf.wr16_wf w1 2 station
  have w3 := Buf.set_wf w2 4 0
  unfold putHeader
  rw [Buf.get_set w3, Buf.get_set w2]
  unfold Buf.wr16 at w1 ⊢
  rw [Buf.get_set (Buf.set_wf w1 _ _), Buf.get_set w1, Buf.get_set (Buf.set_wf h _ _), Buf.get_set h]
  simp only [Buf.set_len, (by omega : 5 < b.len), (by omega : 4 < b.len), (by omega : 2 + 1 < b.len),
    (by omega : 2 < b.len), (by omega : 0 + 1 < b.len), (by omega : 0 < b.len), and_true]

end Sys2Proof.Machine
end

