-- ==== Sys2Proof/Laws/State.lean ====
section
/-! SUPPORT. The field laws of the record updates of the model: one lemma per field and update. -/

namespace Sys2Proof.Machine

/-! ## raiseWith -/

@[simp] theorem State.raiseWith_par (s : State) (e : Err) (k : Bool) (n : Half) : (s.raiseWith e k n).par = s.par := rfl
@[simp] theorem State.raiseWith_a0 (s : State) (e : Err) (k : Bool) (n : Half) : (s.raiseWith e k n).a0 = s.a0 := rfl
@[simp] theorem State.raiseWith_a1 (s : State) (e : Err) (k : Bool) (n : Half) : (s.raiseWith e k n).a1 = s.a1 := rfl
@[simp] theorem State.raiseWith_a2 (s : State) (e : Err) (k : Bool) (n : Half) : (s.raiseWith e k n).a2 = s.a2 := rfl
@[simp] theorem State.raiseWith_a3 (s : State) (e : Err) (k : Bool) (n : Half) : (s.raiseWith e k n).a3 = s.a3 := rfl
@[simp] theorem State.raiseWith_r0 (s : State) (e : Err) (k : Bool) (n : Half) : (s.raiseWith e k n).r0 = s.r0 := rfl
@[simp] theorem State.raiseWith_r1 (s : State) (e : Err) (k : Bool) (n : Half) : (s.raiseWith e k n).r1 = s.r1 := rfl
@[simp] theorem State.raiseWith_r2 (s : State) (e : Err) (k : Bool) (n : Half) : (s.raiseWith e k n).r2 = s.r2 := rfl
@[simp] theorem State.raiseWith_r3 (s : State) (e : Err) (k : Bool) (n : Half) : (s.raiseWith e k n).r3 = s.r3 := rfl
@[simp] theorem State.raiseWith_err (s : State) (e : Err) (k : Bool) (n : Half) : (s.raiseWith e k n).err = errWord (errNumber e) k n := rfl
@[simp] theorem State.raiseWith_life (s : State) (e : Err) (k : Bool) (n : Half) : (s.raiseWith e k n).life = s.life := rfl
@[simp] theorem State.raiseWith_phase (s : State) (e : Err) (k : Bool) (n : Half) : (s.raiseWith e k n).phase = s.phase := rfl
@[simp] theorem State.raiseWith_strategy (s : State) (e : Err) (k : Bool) (n : Half) : (s.raiseWith e k n).strategy = s.strategy := rfl
@[simp] theorem State.raiseWith_tickpend (s : State) (e : Err) (k : Bool) (n : Half) : (s.raiseWith e k n).tickpend = s.tickpend := rfl
@[simp] theorem State.raiseWith_ovr (s : State) (e : Err) (k : Bool) (n : Half) : (s.raiseWith e k n).ovr = s.ovr := rfl
@[simp] theorem State.raiseWith_fatal (s : State) (e : Err) (k : Bool) (n : Half) : (s.raiseWith e k n).fatal = s.fatal := rfl
@[simp] theorem State.raiseWith_cycle (s : State) (e : Err) (k : Bool) (n : Half) : (s.raiseWith e k n).cycle = s.cycle := rfl
@[simp] theorem State.raiseWith_tPre (s : State) (e : Err) (k : Bool) (n : Half) : (s.raiseWith e k n).tPre = s.tPre := rfl
@[simp] theorem State.raiseWith_tPost (s : State) (e : Err) (k : Bool) (n : Half) : (s.raiseWith e k n).tPost = s.tPost := rfl
@[simp] theorem State.raiseWith_tFin (s : State) (e : Err) (k : Bool) (n : Half) : (s.raiseWith e k n).tFin = s.tFin := rfl
@[simp] theorem State.raiseWith_kdiv (s : State) (e : Err) (k : Bool) (n : Half) : (s.raiseWith e k n).kdiv = s.kdiv := rfl
@[simp] theorem State.raiseWith_tickcnt (s : State) (e : Err) (k : Bool) (n : Half) : (s.raiseWith e k n).tickcnt = s.tickcnt := rfl
@[simp] theorem State.raiseWith_fldcnt (s : State) (e : Err) (k : Bool) (n : Half) : (s.raiseWith e k n).fldcnt = s.fldcnt := rfl
@[simp] theorem State.raiseWith_slv (s : State) (e : Err) (k : Bool) (n : Half) : (s.raiseWith e k n).slv = s.slv := rfl
@[simp] theorem State.raiseWith_dom (s : State) (e : Err) (k : Bool) (n : Half) : (s.raiseWith e k n).dom = s.dom := rfl
@[simp] theorem State.raiseWith_fld (s : State) (e : Err) (k : Bool) (n : Half) : (s.raiseWith e k n).fld = s.fld := rfl
@[simp] theorem State.raiseWith_dg (s : State) (e : Err) (k : Bool) (n : Half) : (s.raiseWith e k n).dg = s.dg := rfl
@[simp] theorem State.raiseWith_mx (s : State) (e : Err) (k : Bool) (n : Half) : (s.raiseWith e k n).mx = s.mx := rfl
@[simp] theorem State.raiseWith_t0 (s : State) (e : Err) (k : Bool) (n : Half) : (s.raiseWith e k n).t0 = s.t0 := rfl
@[simp] theorem State.raiseWith_log (s : State) (e : Err) (k : Bool) (n : Half) : (s.raiseWith e k n).log = s.log := rfl
@[simp] theorem State.raiseWith_held (s : State) (e : Err) (k : Bool) (n : Half) : (s.raiseWith e k n).held = s.held := rfl
@[simp] theorem State.raiseWith_todo (s : State) (e : Err) (k : Bool) (n : Half) : (s.raiseWith e k n).todo = s.todo := rfl
@[simp] theorem State.raiseWith_hostTicks (s : State) (e : Err) (k : Bool) (n : Half) : (s.raiseWith e k n).hostTicks = s.hostTicks := rfl
@[simp] theorem State.raiseWith_rdata (s : State) (e : Err) (k : Bool) (n : Half) : (s.raiseWith e k n).rdata = s.rdata := rfl
@[simp] theorem State.raiseWith_inputs (s : State) (e : Err) (k : Bool) (n : Half) : (s.raiseWith e k n).inputs = s.inputs := rfl
@[simp] theorem State.raiseWith_wire (s : State) (e : Err) (k : Bool) (n : Half) : (s.raiseWith e k n).wire = s.wire := rfl
@[simp] theorem State.raiseWith_elapsed (s : State) (e : Err) (k : Bool) (n : Half) : (s.raiseWith e k n).elapsed = s.elapsed := rfl
@[simp] theorem State.raiseWith_draws (s : State) (e : Err) (k : Bool) (n : Half) : (s.raiseWith e k n).draws = s.draws := rfl
@[simp] theorem State.raiseWith_now (s : State) (e : Err) (k : Bool) (n : Half) : (s.raiseWith e k n).now = s.now := rfl

/-! ## raise -/

@[simp] theorem State.raise_par (s : State) (e : Err) : (s.raise e).par = s.par := rfl
@[simp] theorem State.raise_a0 (s : State) (e : Err) : (s.raise e).a0 = s.a0 := rfl
@[simp] theorem State.raise_a1 (s : State) (e : Err) : (s.raise e).a1 = s.a1 := rfl
@[simp] theorem State.raise_a2 (s : State) (e : Err) : (s.raise e).a2 = s.a2 := rfl
@[simp] theorem State.raise_a3 (s : State) (e : Err) : (s.raise e).a3 = s.a3 := rfl
@[simp] theorem State.raise_r0 (s : State) (e : Err) : (s.raise e).r0 = s.r0 := rfl
@[simp] theorem State.raise_r1 (s : State) (e : Err) : (s.raise e).r1 = s.r1 := rfl
@[simp] theorem State.raise_r2 (s : State) (e : Err) : (s.raise e).r2 = s.r2 := rfl
@[simp] theorem State.raise_r3 (s : State) (e : Err) : (s.raise e).r3 = s.r3 := rfl
@[simp] theorem State.raise_err (s : State) (e : Err) : (s.raise e).err = errWord (errNumber e) false 0 := rfl
@[simp] theorem State.raise_life (s : State) (e : Err) : (s.raise e).life = s.life := rfl
@[simp] theorem State.raise_phase (s : State) (e : Err) : (s.raise e).phase = s.phase := rfl
@[simp] theorem State.raise_strategy (s : State) (e : Err) : (s.raise e).strategy = s.strategy := rfl
@[simp] theorem State.raise_tickpend (s : State) (e : Err) : (s.raise e).tickpend = s.tickpend := rfl
@[simp] theorem State.raise_ovr (s : State) (e : Err) : (s.raise e).ovr = s.ovr := rfl
@[simp] theorem State.raise_fatal (s : State) (e : Err) : (s.raise e).fatal = s.fatal := rfl
@[simp] theorem State.raise_cycle (s : State) (e : Err) : (s.raise e).cycle = s.cycle := rfl
@[simp] theorem State.raise_tPre (s : State) (e : Err) : (s.raise e).tPre = s.tPre := rfl
@[simp] theorem State.raise_tPost (s : State) (e : Err) : (s.raise e).tPost = s.tPost := rfl
@[simp] theorem State.raise_tFin (s : State) (e : Err) : (s.raise e).tFin = s.tFin := rfl
@[simp] theorem State.raise_kdiv (s : State) (e : Err) : (s.raise e).kdiv = s.kdiv := rfl
@[simp] theorem State.raise_tickcnt (s : State) (e : Err) : (s.raise e).tickcnt = s.tickcnt := rfl
@[simp] theorem State.raise_fldcnt (s : State) (e : Err) : (s.raise e).fldcnt = s.fldcnt := rfl
@[simp] theorem State.raise_slv (s : State) (e : Err) : (s.raise e).slv = s.slv := rfl
@[simp] theorem State.raise_dom (s : State) (e : Err) : (s.raise e).dom = s.dom := rfl
@[simp] theorem State.raise_fld (s : State) (e : Err) : (s.raise e).fld = s.fld := rfl
@[simp] theorem State.raise_dg (s : State) (e : Err) : (s.raise e).dg = s.dg := rfl
@[simp] theorem State.raise_mx (s : State) (e : Err) : (s.raise e).mx = s.mx := rfl
@[simp] theorem State.raise_t0 (s : State) (e : Err) : (s.raise e).t0 = s.t0 := rfl
@[simp] theorem State.raise_log (s : State) (e : Err) : (s.raise e).log = s.log := rfl
@[simp] theorem State.raise_held (s : State) (e : Err) : (s.raise e).held = s.held := rfl
@[simp] theorem State.raise_todo (s : State) (e : Err) : (s.raise e).todo = s.todo := rfl
@[simp] theorem State.raise_hostTicks (s : State) (e : Err) : (s.raise e).hostTicks = s.hostTicks := rfl
@[simp] theorem State.raise_rdata (s : State) (e : Err) : (s.raise e).rdata = s.rdata := rfl
@[simp] theorem State.raise_inputs (s : State) (e : Err) : (s.raise e).inputs = s.inputs := rfl
@[simp] theorem State.raise_wire (s : State) (e : Err) : (s.raise e).wire = s.wire := rfl
@[simp] theorem State.raise_elapsed (s : State) (e : Err) : (s.raise e).elapsed = s.elapsed := rfl
@[simp] theorem State.raise_draws (s : State) (e : Err) : (s.raise e).draws = s.draws := rfl
@[simp] theorem State.raise_now (s : State) (e : Err) : (s.raise e).now = s.now := rfl

/-! ## succeed -/

@[simp] theorem State.succeed_par (s : State) : (s.succeed).par = s.par := rfl
@[simp] theorem State.succeed_a0 (s : State) : (s.succeed).a0 = s.a0 := rfl
@[simp] theorem State.succeed_a1 (s : State) : (s.succeed).a1 = s.a1 := rfl
@[simp] theorem State.succeed_a2 (s : State) : (s.succeed).a2 = s.a2 := rfl
@[simp] theorem State.succeed_a3 (s : State) : (s.succeed).a3 = s.a3 := rfl
@[simp] theorem State.succeed_r0 (s : State) : (s.succeed).r0 = s.r0 := rfl
@[simp] theorem State.succeed_r1 (s : State) : (s.succeed).r1 = s.r1 := rfl
@[simp] theorem State.succeed_r2 (s : State) : (s.succeed).r2 = s.r2 := rfl
@[simp] theorem State.succeed_r3 (s : State) : (s.succeed).r3 = s.r3 := rfl
@[simp] theorem State.succeed_err (s : State) : (s.succeed).err = 0 := rfl
@[simp] theorem State.succeed_life (s : State) : (s.succeed).life = s.life := rfl
@[simp] theorem State.succeed_phase (s : State) : (s.succeed).phase = s.phase := rfl
@[simp] theorem State.succeed_strategy (s : State) : (s.succeed).strategy = s.strategy := rfl
@[simp] theorem State.succeed_tickpend (s : State) : (s.succeed).tickpend = s.tickpend := rfl
@[simp] theorem State.succeed_ovr (s : State) : (s.succeed).ovr = s.ovr := rfl
@[simp] theorem State.succeed_fatal (s : State) : (s.succeed).fatal = s.fatal := rfl
@[simp] theorem State.succeed_cycle (s : State) : (s.succeed).cycle = s.cycle := rfl
@[simp] theorem State.succeed_tPre (s : State) : (s.succeed).tPre = s.tPre := rfl
@[simp] theorem State.succeed_tPost (s : State) : (s.succeed).tPost = s.tPost := rfl
@[simp] theorem State.succeed_tFin (s : State) : (s.succeed).tFin = s.tFin := rfl
@[simp] theorem State.succeed_kdiv (s : State) : (s.succeed).kdiv = s.kdiv := rfl
@[simp] theorem State.succeed_tickcnt (s : State) : (s.succeed).tickcnt = s.tickcnt := rfl
@[simp] theorem State.succeed_fldcnt (s : State) : (s.succeed).fldcnt = s.fldcnt := rfl
@[simp] theorem State.succeed_slv (s : State) : (s.succeed).slv = s.slv := rfl
@[simp] theorem State.succeed_dom (s : State) : (s.succeed).dom = s.dom := rfl
@[simp] theorem State.succeed_fld (s : State) : (s.succeed).fld = s.fld := rfl
@[simp] theorem State.succeed_dg (s : State) : (s.succeed).dg = s.dg := rfl
@[simp] theorem State.succeed_mx (s : State) : (s.succeed).mx = s.mx := rfl
@[simp] theorem State.succeed_t0 (s : State) : (s.succeed).t0 = s.t0 := rfl
@[simp] theorem State.succeed_log (s : State) : (s.succeed).log = s.log := rfl
@[simp] theorem State.succeed_held (s : State) : (s.succeed).held = s.held := rfl
@[simp] theorem State.succeed_todo (s : State) : (s.succeed).todo = s.todo := rfl
@[simp] theorem State.succeed_hostTicks (s : State) : (s.succeed).hostTicks = s.hostTicks := rfl
@[simp] theorem State.succeed_rdata (s : State) : (s.succeed).rdata = s.rdata := rfl
@[simp] theorem State.succeed_inputs (s : State) : (s.succeed).inputs = s.inputs := rfl
@[simp] theorem State.succeed_wire (s : State) : (s.succeed).wire = s.wire := rfl
@[simp] theorem State.succeed_elapsed (s : State) : (s.succeed).elapsed = s.elapsed := rfl
@[simp] theorem State.succeed_draws (s : State) : (s.succeed).draws = s.draws := rfl
@[simp] theorem State.succeed_now (s : State) : (s.succeed).now = s.now := rfl

/-! ## addLog -/

@[simp] theorem State.addLog_par (s : State) (e : LogEvent) : (s.addLog e).par = s.par := rfl
@[simp] theorem State.addLog_a0 (s : State) (e : LogEvent) : (s.addLog e).a0 = s.a0 := rfl
@[simp] theorem State.addLog_a1 (s : State) (e : LogEvent) : (s.addLog e).a1 = s.a1 := rfl
@[simp] theorem State.addLog_a2 (s : State) (e : LogEvent) : (s.addLog e).a2 = s.a2 := rfl
@[simp] theorem State.addLog_a3 (s : State) (e : LogEvent) : (s.addLog e).a3 = s.a3 := rfl
@[simp] theorem State.addLog_r0 (s : State) (e : LogEvent) : (s.addLog e).r0 = s.r0 := rfl
@[simp] theorem State.addLog_r1 (s : State) (e : LogEvent) : (s.addLog e).r1 = s.r1 := rfl
@[simp] theorem State.addLog_r2 (s : State) (e : LogEvent) : (s.addLog e).r2 = s.r2 := rfl
@[simp] theorem State.addLog_r3 (s : State) (e : LogEvent) : (s.addLog e).r3 = s.r3 := rfl
@[simp] theorem State.addLog_err (s : State) (e : LogEvent) : (s.addLog e).err = s.err := rfl
@[simp] theorem State.addLog_life (s : State) (e : LogEvent) : (s.addLog e).life = s.life := rfl
@[simp] theorem State.addLog_phase (s : State) (e : LogEvent) : (s.addLog e).phase = s.phase := rfl
@[simp] theorem State.addLog_strategy (s : State) (e : LogEvent) : (s.addLog e).strategy = s.strategy := rfl
@[simp] theorem State.addLog_tickpend (s : State) (e : LogEvent) : (s.addLog e).tickpend = s.tickpend := rfl
@[simp] theorem State.addLog_ovr (s : State) (e : LogEvent) : (s.addLog e).ovr = s.ovr := rfl
@[simp] theorem State.addLog_fatal (s : State) (e : LogEvent) : (s.addLog e).fatal = s.fatal := rfl
@[simp] theorem State.addLog_cycle (s : State) (e : LogEvent) : (s.addLog e).cycle = s.cycle := rfl
@[simp] theorem State.addLog_tPre (s : State) (e : LogEvent) : (s.addLog e).tPre = s.tPre := rfl
@[simp] theorem State.addLog_tPost (s : State) (e : LogEvent) : (s.addLog e).tPost = s.tPost := rfl
@[simp] theorem State.addLog_tFin (s : State) (e : LogEvent) : (s.addLog e).tFin = s.tFin := rfl
@[simp] theorem State.addLog_kdiv (s : State) (e : LogEvent) : (s.addLog e).kdiv = s.kdiv := rfl
@[simp] theorem State.addLog_tickcnt (s : State) (e : LogEvent) : (s.addLog e).tickcnt = s.tickcnt := rfl
@[simp] theorem State.addLog_fldcnt (s : State) (e : LogEvent) : (s.addLog e).fldcnt = s.fldcnt := rfl
@[simp] theorem State.addLog_slv (s : State) (e : LogEvent) : (s.addLog e).slv = s.slv := rfl
@[simp] theorem State.addLog_dom (s : State) (e : LogEvent) : (s.addLog e).dom = s.dom := rfl
@[simp] theorem State.addLog_fld (s : State) (e : LogEvent) : (s.addLog e).fld = s.fld := rfl
@[simp] theorem State.addLog_dg (s : State) (e : LogEvent) : (s.addLog e).dg = s.dg := rfl
@[simp] theorem State.addLog_mx (s : State) (e : LogEvent) : (s.addLog e).mx = s.mx := rfl
@[simp] theorem State.addLog_t0 (s : State) (e : LogEvent) : (s.addLog e).t0 = s.t0 := rfl
@[simp] theorem State.addLog_log (s : State) (e : LogEvent) : (s.addLog e).log = s.log ++ [e] := rfl
@[simp] theorem State.addLog_held (s : State) (e : LogEvent) : (s.addLog e).held = s.held := rfl
@[simp] theorem State.addLog_todo (s : State) (e : LogEvent) : (s.addLog e).todo = s.todo := rfl
@[simp] theorem State.addLog_hostTicks (s : State) (e : LogEvent) : (s.addLog e).hostTicks = s.hostTicks := rfl
@[simp] theorem State.addLog_rdata (s : State) (e : LogEvent) : (s.addLog e).rdata = s.rdata := rfl
@[simp] theorem State.addLog_inputs (s : State) (e : LogEvent) : (s.addLog e).inputs = s.inputs := rfl
@[simp] theorem State.addLog_wire (s : State) (e : LogEvent) : (s.addLog e).wire = s.wire := rfl
@[simp] theorem State.addLog_elapsed (s : State) (e : LogEvent) : (s.addLog e).elapsed = s.elapsed := rfl
@[simp] theorem State.addLog_draws (s : State) (e : LogEvent) : (s.addLog e).draws = s.draws := rfl
@[simp] theorem State.addLog_now (s : State) (e : LogEvent) : (s.addLog e).now = s.now := rfl

/-! ## setSlot -/

@[simp] theorem State.setSlot_par (s : State) (q : Nat) (x : Slot) : (s.setSlot q x).par = s.par := rfl
@[simp] theorem State.setSlot_a0 (s : State) (q : Nat) (x : Slot) : (s.setSlot q x).a0 = s.a0 := rfl
@[simp] theorem State.setSlot_a1 (s : State) (q : Nat) (x : Slot) : (s.setSlot q x).a1 = s.a1 := rfl
@[simp] theorem State.setSlot_a2 (s : State) (q : Nat) (x : Slot) : (s.setSlot q x).a2 = s.a2 := rfl
@[simp] theorem State.setSlot_a3 (s : State) (q : Nat) (x : Slot) : (s.setSlot q x).a3 = s.a3 := rfl
@[simp] theorem State.setSlot_r0 (s : State) (q : Nat) (x : Slot) : (s.setSlot q x).r0 = s.r0 := rfl
@[simp] theorem State.setSlot_r1 (s : State) (q : Nat) (x : Slot) : (s.setSlot q x).r1 = s.r1 := rfl
@[simp] theorem State.setSlot_r2 (s : State) (q : Nat) (x : Slot) : (s.setSlot q x).r2 = s.r2 := rfl
@[simp] theorem State.setSlot_r3 (s : State) (q : Nat) (x : Slot) : (s.setSlot q x).r3 = s.r3 := rfl
@[simp] theorem State.setSlot_err (s : State) (q : Nat) (x : Slot) : (s.setSlot q x).err = s.err := rfl
@[simp] theorem State.setSlot_life (s : State) (q : Nat) (x : Slot) : (s.setSlot q x).life = s.life := rfl
@[simp] theorem State.setSlot_phase (s : State) (q : Nat) (x : Slot) : (s.setSlot q x).phase = s.phase := rfl
@[simp] theorem State.setSlot_strategy (s : State) (q : Nat) (x : Slot) : (s.setSlot q x).strategy = s.strategy := rfl
@[simp] theorem State.setSlot_tickpend (s : State) (q : Nat) (x : Slot) : (s.setSlot q x).tickpend = s.tickpend := rfl
@[simp] theorem State.setSlot_ovr (s : State) (q : Nat) (x : Slot) : (s.setSlot q x).ovr = s.ovr := rfl
@[simp] theorem State.setSlot_fatal (s : State) (q : Nat) (x : Slot) : (s.setSlot q x).fatal = s.fatal := rfl
@[simp] theorem State.setSlot_cycle (s : State) (q : Nat) (x : Slot) : (s.setSlot q x).cycle = s.cycle := rfl
@[simp] theorem State.setSlot_tPre (s : State) (q : Nat) (x : Slot) : (s.setSlot q x).tPre = s.tPre := rfl
@[simp] theorem State.setSlot_tPost (s : State) (q : Nat) (x : Slot) : (s.setSlot q x).tPost = s.tPost := rfl
@[simp] theorem State.setSlot_tFin (s : State) (q : Nat) (x : Slot) : (s.setSlot q x).tFin = s.tFin := rfl
@[simp] theorem State.setSlot_kdiv (s : State) (q : Nat) (x : Slot) : (s.setSlot q x).kdiv = s.kdiv := rfl
@[simp] theorem State.setSlot_tickcnt (s : State) (q : Nat) (x : Slot) : (s.setSlot q x).tickcnt = s.tickcnt := rfl
@[simp] theorem State.setSlot_fldcnt (s : State) (q : Nat) (x : Slot) : (s.setSlot q x).fldcnt = s.fldcnt := rfl
@[simp] theorem State.setSlot_slv (s : State) (q : Nat) (x : Slot) : (s.setSlot q x).slv = s.slv := rfl
@[simp] theorem State.setSlot_dom (s : State) (q : Nat) (x : Slot) : (s.setSlot q x).dom = s.dom := rfl
@[simp] theorem State.setSlot_fld (s : State) (q : Nat) (x : Slot) : (s.setSlot q x).fld = s.fld := rfl
@[simp] theorem State.setSlot_dg (s : State) (q : Nat) (x : Slot) : (s.setSlot q x).dg = s.dg.set q x := rfl
@[simp] theorem State.setSlot_mx (s : State) (q : Nat) (x : Slot) : (s.setSlot q x).mx = s.mx := rfl
@[simp] theorem State.setSlot_t0 (s : State) (q : Nat) (x : Slot) : (s.setSlot q x).t0 = s.t0 := rfl
@[simp] theorem State.setSlot_log (s : State) (q : Nat) (x : Slot) : (s.setSlot q x).log = s.log := rfl
@[simp] theorem State.setSlot_held (s : State) (q : Nat) (x : Slot) : (s.setSlot q x).held = s.held := rfl
@[simp] theorem State.setSlot_todo (s : State) (q : Nat) (x : Slot) : (s.setSlot q x).todo = s.todo := rfl
@[simp] theorem State.setSlot_hostTicks (s : State) (q : Nat) (x : Slot) : (s.setSlot q x).hostTicks = s.hostTicks := rfl
@[simp] theorem State.setSlot_rdata (s : State) (q : Nat) (x : Slot) : (s.setSlot q x).rdata = s.rdata := rfl
@[simp] theorem State.setSlot_inputs (s : State) (q : Nat) (x : Slot) : (s.setSlot q x).inputs = s.inputs := rfl
@[simp] theorem State.setSlot_wire (s : State) (q : Nat) (x : Slot) : (s.setSlot q x).wire = s.wire := rfl
@[simp] theorem State.setSlot_elapsed (s : State) (q : Nat) (x : Slot) : (s.setSlot q x).elapsed = s.elapsed := rfl
@[simp] theorem State.setSlot_draws (s : State) (q : Nat) (x : Slot) : (s.setSlot q x).draws = s.draws := rfl
@[simp] theorem State.setSlot_now (s : State) (q : Nat) (x : Slot) : (s.setSlot q x).now = s.now := rfl

/-! ## setDomBuf -/

@[simp] theorem State.setDomBuf_par (s : State) (d : Nat) (b : Buf) : (s.setDomBuf d b).par = s.par := rfl
@[simp] theorem State.setDomBuf_a0 (s : State) (d : Nat) (b : Buf) : (s.setDomBuf d b).a0 = s.a0 := rfl
@[simp] theorem State.setDomBuf_a1 (s : State) (d : Nat) (b : Buf) : (s.setDomBuf d b).a1 = s.a1 := rfl
@[simp] theorem State.setDomBuf_a2 (s : State) (d : Nat) (b : Buf) : (s.setDomBuf d b).a2 = s.a2 := rfl
@[simp] theorem State.setDomBuf_a3 (s : State) (d : Nat) (b : Buf) : (s.setDomBuf d b).a3 = s.a3 := rfl
@[simp] theorem State.setDomBuf_r0 (s : State) (d : Nat) (b : Buf) : (s.setDomBuf d b).r0 = s.r0 := rfl
@[simp] theorem State.setDomBuf_r1 (s : State) (d : Nat) (b : Buf) : (s.setDomBuf d b).r1 = s.r1 := rfl
@[simp] theorem State.setDomBuf_r2 (s : State) (d : Nat) (b : Buf) : (s.setDomBuf d b).r2 = s.r2 := rfl
@[simp] theorem State.setDomBuf_r3 (s : State) (d : Nat) (b : Buf) : (s.setDomBuf d b).r3 = s.r3 := rfl
@[simp] theorem State.setDomBuf_err (s : State) (d : Nat) (b : Buf) : (s.setDomBuf d b).err = s.err := rfl
@[simp] theorem State.setDomBuf_life (s : State) (d : Nat) (b : Buf) : (s.setDomBuf d b).life = s.life := rfl
@[simp] theorem State.setDomBuf_phase (s : State) (d : Nat) (b : Buf) : (s.setDomBuf d b).phase = s.phase := rfl
@[simp] theorem State.setDomBuf_strategy (s : State) (d : Nat) (b : Buf) : (s.setDomBuf d b).strategy = s.strategy := rfl
@[simp] theorem State.setDomBuf_tickpend (s : State) (d : Nat) (b : Buf) : (s.setDomBuf d b).tickpend = s.tickpend := rfl
@[simp] theorem State.setDomBuf_ovr (s : State) (d : Nat) (b : Buf) : (s.setDomBuf d b).ovr = s.ovr := rfl
@[simp] theorem State.setDomBuf_fatal (s : State) (d : Nat) (b : Buf) : (s.setDomBuf d b).fatal = s.fatal := rfl
@[simp] theorem State.setDomBuf_cycle (s : State) (d : Nat) (b : Buf) : (s.setDomBuf d b).cycle = s.cycle := rfl
@[simp] theorem State.setDomBuf_tPre (s : State) (d : Nat) (b : Buf) : (s.setDomBuf d b).tPre = s.tPre := rfl
@[simp] theorem State.setDomBuf_tPost (s : State) (d : Nat) (b : Buf) : (s.setDomBuf d b).tPost = s.tPost := rfl
@[simp] theorem State.setDomBuf_tFin (s : State) (d : Nat) (b : Buf) : (s.setDomBuf d b).tFin = s.tFin := rfl
@[simp] theorem State.setDomBuf_kdiv (s : State) (d : Nat) (b : Buf) : (s.setDomBuf d b).kdiv = s.kdiv := rfl
@[simp] theorem State.setDomBuf_tickcnt (s : State) (d : Nat) (b : Buf) : (s.setDomBuf d b).tickcnt = s.tickcnt := rfl
@[simp] theorem State.setDomBuf_fldcnt (s : State) (d : Nat) (b : Buf) : (s.setDomBuf d b).fldcnt = s.fldcnt := rfl
@[simp] theorem State.setDomBuf_slv (s : State) (d : Nat) (b : Buf) : (s.setDomBuf d b).slv = s.slv := rfl
@[simp] theorem State.setDomBuf_dom (s : State) (d : Nat) (b : Buf) : (s.setDomBuf d b).dom = s.dom.modify d (fun x => { x with buf := b }) := rfl
@[simp] theorem State.setDomBuf_fld (s : State) (d : Nat) (b : Buf) : (s.setDomBuf d b).fld = s.fld := rfl
@[simp] theorem State.setDomBuf_dg (s : State) (d : Nat) (b : Buf) : (s.setDomBuf d b).dg = s.dg := rfl
@[simp] theorem State.setDomBuf_mx (s : State) (d : Nat) (b : Buf) : (s.setDomBuf d b).mx = s.mx := rfl
@[simp] theorem State.setDomBuf_t0 (s : State) (d : Nat) (b : Buf) : (s.setDomBuf d b).t0 = s.t0 := rfl
@[simp] theorem State.setDomBuf_log (s : State) (d : Nat) (b : Buf) : (s.setDomBuf d b).log = s.log := rfl
@[simp] theorem State.setDomBuf_held (s : State) (d : Nat) (b : Buf) : (s.setDomBuf d b).held = s.held := rfl
@[simp] theorem State.setDomBuf_todo (s : State) (d : Nat) (b : Buf) : (s.setDomBuf d b).todo = s.todo := rfl
@[simp] theorem State.setDomBuf_hostTicks (s : State) (d : Nat) (b : Buf) : (s.setDomBuf d b).hostTicks = s.hostTicks := rfl
@[simp] theorem State.setDomBuf_rdata (s : State) (d : Nat) (b : Buf) : (s.setDomBuf d b).rdata = s.rdata := rfl
@[simp] theorem State.setDomBuf_inputs (s : State) (d : Nat) (b : Buf) : (s.setDomBuf d b).inputs = s.inputs := rfl
@[simp] theorem State.setDomBuf_wire (s : State) (d : Nat) (b : Buf) : (s.setDomBuf d b).wire = s.wire := rfl
@[simp] theorem State.setDomBuf_elapsed (s : State) (d : Nat) (b : Buf) : (s.setDomBuf d b).elapsed = s.elapsed := rfl
@[simp] theorem State.setDomBuf_draws (s : State) (d : Nat) (b : Buf) : (s.setDomBuf d b).draws = s.draws := rfl
@[simp] theorem State.setDomBuf_now (s : State) (d : Nat) (b : Buf) : (s.setDomBuf d b).now = s.now := rfl

/-! ## readTime -/

@[simp] theorem State.readTime_par (s : State) : (s.readTime).par = s.par := rfl
@[simp] theorem State.readTime_a0 (s : State) : (s.readTime).a0 = s.a0 := rfl
@[simp] theorem State.readTime_a1 (s : State) : (s.readTime).a1 = s.a1 := rfl
@[simp] theorem State.readTime_a2 (s : State) : (s.readTime).a2 = s.a2 := rfl
@[simp] theorem State.readTime_a3 (s : State) : (s.readTime).a3 = s.a3 := rfl
@[simp] theorem State.readTime_r0 (s : State) : (s.readTime).r0 = s.r0 := rfl
@[simp] theorem State.readTime_r1 (s : State) : (s.readTime).r1 = s.r1 := rfl
@[simp] theorem State.readTime_r2 (s : State) : (s.readTime).r2 = s.r2 := rfl
@[simp] theorem State.readTime_r3 (s : State) : (s.readTime).r3 = s.r3 := rfl
@[simp] theorem State.readTime_err (s : State) : (s.readTime).err = s.err := rfl
@[simp] theorem State.readTime_life (s : State) : (s.readTime).life = s.life := rfl
@[simp] theorem State.readTime_phase (s : State) : (s.readTime).phase = s.phase := rfl
@[simp] theorem State.readTime_strategy (s : State) : (s.readTime).strategy = s.strategy := rfl
@[simp] theorem State.readTime_tickpend (s : State) : (s.readTime).tickpend = s.tickpend := rfl
@[simp] theorem State.readTime_ovr (s : State) : (s.readTime).ovr = s.ovr := rfl
@[simp] theorem State.readTime_fatal (s : State) : (s.readTime).fatal = s.fatal := rfl
@[simp] theorem State.readTime_cycle (s : State) : (s.readTime).cycle = s.cycle := rfl
@[simp] theorem State.readTime_tPre (s : State) : (s.readTime).tPre = s.tPre := rfl
@[simp] theorem State.readTime_tPost (s : State) : (s.readTime).tPost = s.tPost := rfl
@[simp] theorem State.readTime_tFin (s : State) : (s.readTime).tFin = s.tFin := rfl
@[simp] theorem State.readTime_kdiv (s : State) : (s.readTime).kdiv = s.kdiv := rfl
@[simp] theorem State.readTime_tickcnt (s : State) : (s.readTime).tickcnt = s.tickcnt := rfl
@[simp] theorem State.readTime_fldcnt (s : State) : (s.readTime).fldcnt = s.fldcnt := rfl
@[simp] theorem State.readTime_slv (s : State) : (s.readTime).slv = s.slv := rfl
@[simp] theorem State.readTime_dom (s : State) : (s.readTime).dom = s.dom := rfl
@[simp] theorem State.readTime_fld (s : State) : (s.readTime).fld = s.fld := rfl
@[simp] theorem State.readTime_dg (s : State) : (s.readTime).dg = s.dg := rfl
@[simp] theorem State.readTime_mx (s : State) : (s.readTime).mx = s.mx := rfl
@[simp] theorem State.readTime_t0 (s : State) : (s.readTime).t0 = s.t0 := rfl
@[simp] theorem State.readTime_log (s : State) : (s.readTime).log = s.log := rfl
@[simp] theorem State.readTime_held (s : State) : (s.readTime).held = s.held := rfl
@[simp] theorem State.readTime_todo (s : State) : (s.readTime).todo = s.todo := rfl
@[simp] theorem State.readTime_hostTicks (s : State) : (s.readTime).hostTicks = s.hostTicks := rfl
@[simp] theorem State.readTime_rdata (s : State) : (s.readTime).rdata = s.rdata := rfl
@[simp] theorem State.readTime_inputs (s : State) : (s.readTime).inputs = s.inputs := rfl
@[simp] theorem State.readTime_wire (s : State) : (s.readTime).wire = s.wire := rfl
@[simp] theorem State.readTime_elapsed (s : State) : (s.readTime).elapsed = s.elapsed.tail := rfl
@[simp] theorem State.readTime_draws (s : State) : (s.readTime).draws = s.draws + 1 := rfl
@[simp] theorem State.readTime_now (s : State) : (s.readTime).now = s.now + s.advance := rfl

/-! ## halt -/

@[simp] theorem State.halt_par (s : State) : (s.halt).par = s.par := rfl
@[simp] theorem State.halt_a0 (s : State) : (s.halt).a0 = s.a0 := rfl
@[simp] theorem State.halt_a1 (s : State) : (s.halt).a1 = s.a1 := rfl
@[simp] theorem State.halt_a2 (s : State) : (s.halt).a2 = s.a2 := rfl
@[simp] theorem State.halt_a3 (s : State) : (s.halt).a3 = s.a3 := rfl
@[simp] theorem State.halt_r0 (s : State) : (s.halt).r0 = s.r0 := rfl
@[simp] theorem State.halt_r1 (s : State) : (s.halt).r1 = s.r1 := rfl
@[simp] theorem State.halt_r2 (s : State) : (s.halt).r2 = s.r2 := rfl
@[simp] theorem State.halt_r3 (s : State) : (s.halt).r3 = s.r3 := rfl
@[simp] theorem State.halt_err (s : State) : (s.halt).err = s.err := rfl
@[simp] theorem State.halt_life (s : State) : (s.halt).life = .configuring := rfl
@[simp] theorem State.halt_phase (s : State) : (s.halt).phase = .idle := rfl
@[simp] theorem State.halt_strategy (s : State) : (s.halt).strategy = s.strategy := rfl
@[simp] theorem State.halt_tickpend (s : State) : (s.halt).tickpend = false := rfl
@[simp] theorem State.halt_ovr (s : State) : (s.halt).ovr = s.ovr := rfl
@[simp] theorem State.halt_fatal (s : State) : (s.halt).fatal = s.fatal := rfl
@[simp] theorem State.halt_cycle (s : State) : (s.halt).cycle = s.cycle := rfl
@[simp] theorem State.halt_tPre (s : State) : (s.halt).tPre = s.tPre := rfl
@[simp] theorem State.halt_tPost (s : State) : (s.halt).tPost = s.tPost := rfl
@[simp] theorem State.halt_tFin (s : State) : (s.halt).tFin = s.tFin := rfl
@[simp] theorem State.halt_kdiv (s : State) : (s.halt).kdiv = s.kdiv := rfl
@[simp] theorem State.halt_tickcnt (s : State) : (s.halt).tickcnt = s.tickcnt := rfl
@[simp] theorem State.halt_fldcnt (s : State) : (s.halt).fldcnt = s.fldcnt := rfl
@[simp] theorem State.halt_slv (s : State) : (s.halt).slv = s.slv := rfl
@[simp] theorem State.halt_dom (s : State) : (s.halt).dom = s.dom.map Domain.unlink := rfl
@[simp] theorem State.halt_fld (s : State) : (s.halt).fld = s.fld := rfl
@[simp] theorem State.halt_dg (s : State) : (s.halt).dg = s.dg.map (fun _ => none) := rfl
@[simp] theorem State.halt_mx (s : State) : (s.halt).mx = { s.mx with st := .idle } := rfl
@[simp] theorem State.halt_t0 (s : State) : (s.halt).t0 = s.t0 := rfl
@[simp] theorem State.halt_log (s : State) : (s.halt).log = s.log := rfl
@[simp] theorem State.halt_held (s : State) : (s.halt).held = s.held := rfl
@[simp] theorem State.halt_todo (s : State) : (s.halt).todo = [] := rfl
@[simp] theorem State.halt_hostTicks (s : State) : (s.halt).hostTicks = s.hostTicks := rfl
@[simp] theorem State.halt_rdata (s : State) : (s.halt).rdata = s.rdata := rfl
@[simp] theorem State.halt_inputs (s : State) : (s.halt).inputs = s.inputs := rfl
@[simp] theorem State.halt_wire (s : State) : (s.halt).wire = s.wire := rfl
@[simp] theorem State.halt_elapsed (s : State) : (s.halt).elapsed = s.elapsed := rfl
@[simp] theorem State.halt_draws (s : State) : (s.halt).draws = s.draws := rfl
@[simp] theorem State.halt_now (s : State) : (s.halt).now = s.now := rfl

/-! ## fatalStop -/

@[simp] theorem State.fatalStop_par (s : State) : (s.fatalStop).par = s.par := rfl
@[simp] theorem State.fatalStop_a0 (s : State) : (s.fatalStop).a0 = s.a0 := rfl
@[simp] theorem State.fatalStop_a1 (s : State) : (s.fatalStop).a1 = s.a1 := rfl
@[simp] theorem State.fatalStop_a2 (s : State) : (s.fatalStop).a2 = s.a2 := rfl
@[simp] theorem State.fatalStop_a3 (s : State) : (s.fatalStop).a3 = s.a3 := rfl
@[simp] theorem State.fatalStop_r0 (s : State) : (s.fatalStop).r0 = s.r0 := rfl
@[simp] theorem State.fatalStop_r1 (s : State) : (s.fatalStop).r1 = s.r1 := rfl
@[simp] theorem State.fatalStop_r2 (s : State) : (s.fatalStop).r2 = s.r2 := rfl
@[simp] theorem State.fatalStop_r3 (s : State) : (s.fatalStop).r3 = s.r3 := rfl
@[simp] theorem State.fatalStop_err (s : State) : (s.fatalStop).err = s.err := rfl
@[simp] theorem State.fatalStop_life (s : State) : (s.fatalStop).life = .configuring := rfl
@[simp] theorem State.fatalStop_phase (s : State) : (s.fatalStop).phase = .idle := rfl
@[simp] theorem State.fatalStop_strategy (s : State) : (s.fatalStop).strategy = s.strategy := rfl
@[simp] theorem State.fatalStop_tickpend (s : State) : (s.fatalStop).tickpend = false := rfl
@[simp] theorem State.fatalStop_ovr (s : State) : (s.fatalStop).ovr = s.ovr := rfl
@[simp] theorem State.fatalStop_fatal (s : State) : (s.fatalStop).fatal = true := rfl
@[simp] theorem State.fatalStop_cycle (s : State) : (s.fatalStop).cycle = s.cycle := rfl
@[simp] theorem State.fatalStop_tPre (s : State) : (s.fatalStop).tPre = s.tPre := rfl
@[simp] theorem State.fatalStop_tPost (s : State) : (s.fatalStop).tPost = s.tPost := rfl
@[simp] theorem State.fatalStop_tFin (s : State) : (s.fatalStop).tFin = s.tFin := rfl
@[simp] theorem State.fatalStop_kdiv (s : State) : (s.fatalStop).kdiv = s.kdiv := rfl
@[simp] theorem State.fatalStop_tickcnt (s : State) : (s.fatalStop).tickcnt = s.tickcnt := rfl
@[simp] theorem State.fatalStop_fldcnt (s : State) : (s.fatalStop).fldcnt = s.fldcnt := rfl
@[simp] theorem State.fatalStop_slv (s : State) : (s.fatalStop).slv = s.slv := rfl
@[simp] theorem State.fatalStop_dom (s : State) : (s.fatalStop).dom = s.dom.map Domain.unlink := rfl
@[simp] theorem State.fatalStop_fld (s : State) : (s.fatalStop).fld = s.fld := rfl
@[simp] theorem State.fatalStop_dg (s : State) : (s.fatalStop).dg = s.dg.map (fun _ => none) := rfl
@[simp] theorem State.fatalStop_mx (s : State) : (s.fatalStop).mx = { s.mx with st := .idle } := rfl
@[simp] theorem State.fatalStop_t0 (s : State) : (s.fatalStop).t0 = s.t0 := rfl
@[simp] theorem State.fatalStop_log (s : State) : (s.fatalStop).log = s.log := rfl
@[simp] theorem State.fatalStop_held (s : State) : (s.fatalStop).held = s.held := rfl
@[simp] theorem State.fatalStop_todo (s : State) : (s.fatalStop).todo = [] := rfl
@[simp] theorem State.fatalStop_hostTicks (s : State) : (s.fatalStop).hostTicks = s.hostTicks := rfl
@[simp] theorem State.fatalStop_rdata (s : State) : (s.fatalStop).rdata = s.rdata := rfl
@[simp] theorem State.fatalStop_inputs (s : State) : (s.fatalStop).inputs = s.inputs := rfl
@[simp] theorem State.fatalStop_wire (s : State) : (s.fatalStop).wire = s.wire := rfl
@[simp] theorem State.fatalStop_elapsed (s : State) : (s.fatalStop).elapsed = s.elapsed := rfl
@[simp] theorem State.fatalStop_draws (s : State) : (s.fatalStop).draws = s.draws := rfl
@[simp] theorem State.fatalStop_now (s : State) : (s.fatalStop).now = s.now := rfl

/-! ## rel -/

@[simp] theorem State.rel_par (s : State) : (s.rel).par = s.par := rfl
@[simp] theorem State.rel_a0 (s : State) : (s.rel).a0 = s.a0 := rfl
@[simp] theorem State.rel_a1 (s : State) : (s.rel).a1 = s.a1 := rfl
@[simp] theorem State.rel_a2 (s : State) : (s.rel).a2 = s.a2 := rfl
@[simp] theorem State.rel_a3 (s : State) : (s.rel).a3 = s.a3 := rfl
@[simp] theorem State.rel_r0 (s : State) : (s.rel).r0 = s.r0 := rfl
@[simp] theorem State.rel_r1 (s : State) : (s.rel).r1 = s.r1 := rfl
@[simp] theorem State.rel_r2 (s : State) : (s.rel).r2 = s.r2 := rfl
@[simp] theorem State.rel_r3 (s : State) : (s.rel).r3 = s.r3 := rfl
@[simp] theorem State.rel_err (s : State) : (s.rel).err = s.err := rfl
@[simp] theorem State.rel_life (s : State) : (s.rel).life = s.life := rfl
@[simp] theorem State.rel_phase (s : State) : (s.rel).phase = s.phase := rfl
@[simp] theorem State.rel_strategy (s : State) : (s.rel).strategy = s.strategy := rfl
@[simp] theorem State.rel_tickpend (s : State) : (s.rel).tickpend = s.tickpend := rfl
@[simp] theorem State.rel_ovr (s : State) : (s.rel).ovr = s.ovr := rfl
@[simp] theorem State.rel_fatal (s : State) : (s.rel).fatal = s.fatal := rfl
@[simp] theorem State.rel_cycle (s : State) : (s.rel).cycle = s.cycle := rfl
@[simp] theorem State.rel_tPre (s : State) : (s.rel).tPre = s.tPre := rfl
@[simp] theorem State.rel_tPost (s : State) : (s.rel).tPost = s.tPost := rfl
@[simp] theorem State.rel_tFin (s : State) : (s.rel).tFin = s.tFin := rfl
@[simp] theorem State.rel_kdiv (s : State) : (s.rel).kdiv = s.kdiv := rfl
@[simp] theorem State.rel_tickcnt (s : State) : (s.rel).tickcnt = s.tickcnt := rfl
@[simp] theorem State.rel_fldcnt (s : State) : (s.rel).fldcnt = s.fldcnt := rfl
@[simp] theorem State.rel_slv (s : State) : (s.rel).slv = s.slv := rfl
@[simp] theorem State.rel_dom (s : State) : (s.rel).dom = s.dom := rfl
@[simp] theorem State.rel_fld (s : State) : (s.rel).fld = s.fld := rfl
@[simp] theorem State.rel_dg (s : State) : (s.rel).dg = s.dg.map relSlot := rfl
@[simp] theorem State.rel_mx (s : State) : (s.rel).mx = s.mx := rfl
@[simp] theorem State.rel_t0 (s : State) : (s.rel).t0 = s.t0 := rfl
@[simp] theorem State.rel_log (s : State) : (s.rel).log = s.log := rfl
@[simp] theorem State.rel_held (s : State) : (s.rel).held = s.held := rfl
@[simp] theorem State.rel_todo (s : State) : (s.rel).todo = s.todo := rfl
@[simp] theorem State.rel_hostTicks (s : State) : (s.rel).hostTicks = s.hostTicks := rfl
@[simp] theorem State.rel_rdata (s : State) : (s.rel).rdata = s.rdata := rfl
@[simp] theorem State.rel_inputs (s : State) : (s.rel).inputs = s.inputs := rfl
@[simp] theorem State.rel_wire (s : State) : (s.rel).wire = s.wire := rfl
@[simp] theorem State.rel_elapsed (s : State) : (s.rel).elapsed = s.elapsed := rfl
@[simp] theorem State.rel_draws (s : State) : (s.rel).draws = s.draws := rfl
@[simp] theorem State.rel_now (s : State) : (s.rel).now = s.now := rfl

/-! ## sendAll -/

@[simp] theorem State.sendAll_par (s : State) : (s.sendAll).par = s.par := rfl
@[simp] theorem State.sendAll_a0 (s : State) : (s.sendAll).a0 = s.a0 := rfl
@[simp] theorem State.sendAll_a1 (s : State) : (s.sendAll).a1 = s.a1 := rfl
@[simp] theorem State.sendAll_a2 (s : State) : (s.sendAll).a2 = s.a2 := rfl
@[simp] theorem State.sendAll_a3 (s : State) : (s.sendAll).a3 = s.a3 := rfl
@[simp] theorem State.sendAll_r0 (s : State) : (s.sendAll).r0 = s.r0 := rfl
@[simp] theorem State.sendAll_r1 (s : State) : (s.sendAll).r1 = s.r1 := rfl
@[simp] theorem State.sendAll_r2 (s : State) : (s.sendAll).r2 = s.r2 := rfl
@[simp] theorem State.sendAll_r3 (s : State) : (s.sendAll).r3 = s.r3 := rfl
@[simp] theorem State.sendAll_err (s : State) : (s.sendAll).err = s.err := rfl
@[simp] theorem State.sendAll_life (s : State) : (s.sendAll).life = s.life := rfl
@[simp] theorem State.sendAll_phase (s : State) : (s.sendAll).phase = s.phase := rfl
@[simp] theorem State.sendAll_strategy (s : State) : (s.sendAll).strategy = s.strategy := rfl
@[simp] theorem State.sendAll_tickpend (s : State) : (s.sendAll).tickpend = s.tickpend := rfl
@[simp] theorem State.sendAll_ovr (s : State) : (s.sendAll).ovr = s.ovr := rfl
@[simp] theorem State.sendAll_fatal (s : State) : (s.sendAll).fatal = s.fatal := rfl
@[simp] theorem State.sendAll_cycle (s : State) : (s.sendAll).cycle = s.cycle := rfl
@[simp] theorem State.sendAll_tPre (s : State) : (s.sendAll).tPre = s.tPre := rfl
@[simp] theorem State.sendAll_tPost (s : State) : (s.sendAll).tPost = s.tPost := rfl
@[simp] theorem State.sendAll_tFin (s : State) : (s.sendAll).tFin = s.tFin := rfl
@[simp] theorem State.sendAll_kdiv (s : State) : (s.sendAll).kdiv = s.kdiv := rfl
@[simp] theorem State.sendAll_tickcnt (s : State) : (s.sendAll).tickcnt = s.tickcnt := rfl
@[simp] theorem State.sendAll_fldcnt (s : State) : (s.sendAll).fldcnt = s.fldcnt := rfl
@[simp] theorem State.sendAll_slv (s : State) : (s.sendAll).slv = s.slv := rfl
@[simp] theorem State.sendAll_dom (s : State) : (s.sendAll).dom = s.dom := rfl
@[simp] theorem State.sendAll_fld (s : State) : (s.sendAll).fld = s.fld := rfl
@[simp] theorem State.sendAll_dg (s : State) : (s.sendAll).dg = s.dg.map sendSlot := rfl
@[simp] theorem State.sendAll_mx (s : State) : (s.sendAll).mx = s.mx := rfl
@[simp] theorem State.sendAll_t0 (s : State) : (s.sendAll).t0 = s.t0 := rfl
@[simp] theorem State.sendAll_log (s : State) : (s.sendAll).log = s.log := rfl
@[simp] theorem State.sendAll_held (s : State) : (s.sendAll).held = s.held := rfl
@[simp] theorem State.sendAll_todo (s : State) : (s.sendAll).todo = s.todo := rfl
@[simp] theorem State.sendAll_hostTicks (s : State) : (s.sendAll).hostTicks = s.hostTicks := rfl
@[simp] theorem State.sendAll_rdata (s : State) : (s.sendAll).rdata = s.rdata := rfl
@[simp] theorem State.sendAll_inputs (s : State) : (s.sendAll).inputs = s.inputs := rfl
@[simp] theorem State.sendAll_wire (s : State) : (s.sendAll).wire = s.wire := rfl
@[simp] theorem State.sendAll_elapsed (s : State) : (s.sendAll).elapsed = s.elapsed := rfl
@[simp] theorem State.sendAll_draws (s : State) : (s.sendAll).draws = s.draws := rfl
@[simp] theorem State.sendAll_now (s : State) : (s.sendAll).now = s.now := rfl

/-! ## recvAll -/

@[simp] theorem State.recvAll_par (s : State) : (s.recvAll).par = s.par := rfl
@[simp] theorem State.recvAll_a0 (s : State) : (s.recvAll).a0 = s.a0 := rfl
@[simp] theorem State.recvAll_a1 (s : State) : (s.recvAll).a1 = s.a1 := rfl
@[simp] theorem State.recvAll_a2 (s : State) : (s.recvAll).a2 = s.a2 := rfl
@[simp] theorem State.recvAll_a3 (s : State) : (s.recvAll).a3 = s.a3 := rfl
@[simp] theorem State.recvAll_r0 (s : State) : (s.recvAll).r0 = s.r0 := rfl
@[simp] theorem State.recvAll_r1 (s : State) : (s.recvAll).r1 = s.r1 := rfl
@[simp] theorem State.recvAll_r2 (s : State) : (s.recvAll).r2 = s.r2 := rfl
@[simp] theorem State.recvAll_r3 (s : State) : (s.recvAll).r3 = s.r3 := rfl
@[simp] theorem State.recvAll_err (s : State) : (s.recvAll).err = s.err := rfl
@[simp] theorem State.recvAll_life (s : State) : (s.recvAll).life = s.life := rfl
@[simp] theorem State.recvAll_phase (s : State) : (s.recvAll).phase = s.phase := rfl
@[simp] theorem State.recvAll_strategy (s : State) : (s.recvAll).strategy = s.strategy := rfl
@[simp] theorem State.recvAll_tickpend (s : State) : (s.recvAll).tickpend = s.tickpend := rfl
@[simp] theorem State.recvAll_ovr (s : State) : (s.recvAll).ovr = (s.ovr || (decide (s.strategy = .sync) && (recvLoop s.dg s.wire s.draws).lost)) := rfl
@[simp] theorem State.recvAll_fatal (s : State) : (s.recvAll).fatal = s.fatal := rfl
@[simp] theorem State.recvAll_cycle (s : State) : (s.recvAll).cycle = s.cycle := rfl
@[simp] theorem State.recvAll_tPre (s : State) : (s.recvAll).tPre = s.tPre := rfl
@[simp] theorem State.recvAll_tPost (s : State) : (s.recvAll).tPost = s.tPost := rfl
@[simp] theorem State.recvAll_tFin (s : State) : (s.recvAll).tFin = s.tFin := rfl
@[simp] theorem State.recvAll_kdiv (s : State) : (s.recvAll).kdiv = s.kdiv := rfl
@[simp] theorem State.recvAll_tickcnt (s : State) : (s.recvAll).tickcnt = s.tickcnt := rfl
@[simp] theorem State.recvAll_fldcnt (s : State) : (s.recvAll).fldcnt = s.fldcnt := rfl
@[simp] theorem State.recvAll_slv (s : State) : (s.recvAll).slv = s.slv := rfl
@[simp] theorem State.recvAll_dom (s : State) : (s.recvAll).dom = s.dom := rfl
@[simp] theorem State.recvAll_fld (s : State) : (s.recvAll).fld = s.fld := rfl
@[simp] theorem State.recvAll_dg (s : State) : (s.recvAll).dg = (recvLoop s.dg s.wire s.draws).slots := rfl
@[simp] theorem State.recvAll_mx (s : State) : (s.recvAll).mx = s.mx := rfl
@[simp] theorem State.recvAll_t0 (s : State) : (s.recvAll).t0 = s.t0 := rfl
@[simp] theorem State.recvAll_log (s : State) : (s.recvAll).log = s.log := rfl
@[simp] theorem State.recvAll_held (s : State) : (s.recvAll).held = s.held := rfl
@[simp] theorem State.recvAll_todo (s : State) : (s.recvAll).todo = s.todo := rfl
@[simp] theorem State.recvAll_hostTicks (s : State) : (s.recvAll).hostTicks = s.hostTicks := rfl
@[simp] theorem State.recvAll_rdata (s : State) : (s.recvAll).rdata = s.rdata := rfl
@[simp] theorem State.recvAll_inputs (s : State) : (s.recvAll).inputs = s.inputs := rfl
@[simp] theorem State.recvAll_wire (s : State) : (s.recvAll).wire = (recvLoop s.dg s.wire s.draws).wire := rfl
@[simp] theorem State.recvAll_elapsed (s : State) : (s.recvAll).elapsed = s.elapsed := rfl
@[simp] theorem State.recvAll_draws (s : State) : (s.recvAll).draws = (recvLoop s.dg s.wire s.draws).draws := rfl
@[simp] theorem State.recvAll_now (s : State) : (s.recvAll).now = s.now := rfl

/-! ## processAll -/

@[simp] theorem State.processAll_par (s : State) : (s.processAll).par = s.par := rfl
@[simp] theorem State.processAll_a0 (s : State) : (s.processAll).a0 = s.a0 := rfl
@[simp] theorem State.processAll_a1 (s : State) : (s.processAll).a1 = s.a1 := rfl
@[simp] theorem State.processAll_a2 (s : State) : (s.processAll).a2 = s.a2 := rfl
@[simp] theorem State.processAll_a3 (s : State) : (s.processAll).a3 = s.a3 := rfl
@[simp] theorem State.processAll_r0 (s : State) : (s.processAll).r0 = s.r0 := rfl
@[simp] theorem State.processAll_r1 (s : State) : (s.processAll).r1 = s.r1 := rfl
@[simp] theorem State.processAll_r2 (s : State) : (s.processAll).r2 = s.r2 := rfl
@[simp] theorem State.processAll_r3 (s : State) : (s.processAll).r3 = s.r3 := rfl
@[simp] theorem State.processAll_err (s : State) : (s.processAll).err = s.err := rfl
@[simp] theorem State.processAll_life (s : State) : (s.processAll).life = s.life := rfl
@[simp] theorem State.processAll_phase (s : State) : (s.processAll).phase = s.phase := rfl
@[simp] theorem State.processAll_strategy (s : State) : (s.processAll).strategy = s.strategy := rfl
@[simp] theorem State.processAll_tickpend (s : State) : (s.processAll).tickpend = s.tickpend := rfl
@[simp] theorem State.processAll_ovr (s : State) : (s.processAll).ovr = s.ovr := rfl
@[simp] theorem State.processAll_fatal (s : State) : (s.processAll).fatal = s.fatal := rfl
@[simp] theorem State.processAll_cycle (s : State) : (s.processAll).cycle = s.cycle := rfl
@[simp] theorem State.processAll_tPre (s : State) : (s.processAll).tPre = s.tPre := rfl
@[simp] theorem State.processAll_tPost (s : State) : (s.processAll).tPost = s.tPost := rfl
@[simp] theorem State.processAll_tFin (s : State) : (s.processAll).tFin = s.tFin := rfl
@[simp] theorem State.processAll_kdiv (s : State) : (s.processAll).kdiv = s.kdiv := rfl
@[simp] theorem State.processAll_tickcnt (s : State) : (s.processAll).tickcnt = s.tickcnt := rfl
@[simp] theorem State.processAll_fldcnt (s : State) : (s.processAll).fldcnt = s.fldcnt := rfl
@[simp] theorem State.processAll_slv (s : State) : (s.processAll).slv = s.slv := rfl
@[simp] theorem State.processAll_dom (s : State) : (s.processAll).dom = s.dom.map (fun x => if x.valid then processDomain s x else x) := rfl
@[simp] theorem State.processAll_fld (s : State) : (s.processAll).fld = s.fld := rfl
@[simp] theorem State.processAll_dg (s : State) : (s.processAll).dg = s.dg := rfl
@[simp] theorem State.processAll_mx (s : State) : (s.processAll).mx = s.mx := rfl
@[simp] theorem State.processAll_t0 (s : State) : (s.processAll).t0 = s.t0 := rfl
@[simp] theorem State.processAll_log (s : State) : (s.processAll).log = s.log := rfl
@[simp] theorem State.processAll_held (s : State) : (s.processAll).held = s.held := rfl
@[simp] theorem State.processAll_todo (s : State) : (s.processAll).todo = s.todo := rfl
@[simp] theorem State.processAll_hostTicks (s : State) : (s.processAll).hostTicks = s.hostTicks := rfl
@[simp] theorem State.processAll_rdata (s : State) : (s.processAll).rdata = s.rdata := rfl
@[simp] theorem State.processAll_inputs (s : State) : (s.processAll).inputs = s.inputs := rfl
@[simp] theorem State.processAll_wire (s : State) : (s.processAll).wire = s.wire := rfl
@[simp] theorem State.processAll_elapsed (s : State) : (s.processAll).elapsed = s.elapsed := rfl
@[simp] theorem State.processAll_draws (s : State) : (s.processAll).draws = s.draws := rfl
@[simp] theorem State.processAll_now (s : State) : (s.processAll).now = s.now := rfl

/-! ## toApp -/

@[simp] theorem State.toApp_par (s : State) : (s.toApp).par = s.par := rfl
@[simp] theorem State.toApp_a0 (s : State) : (s.toApp).a0 = s.a0 := rfl
@[simp] theorem State.toApp_a1 (s : State) : (s.toApp).a1 = s.a1 := rfl
@[simp] theorem State.toApp_a2 (s : State) : (s.toApp).a2 = s.a2 := rfl
@[simp] theorem State.toApp_a3 (s : State) : (s.toApp).a3 = s.a3 := rfl
@[simp] theorem State.toApp_r0 (s : State) : (s.toApp).r0 = s.r0 := rfl
@[simp] theorem State.toApp_r1 (s : State) : (s.toApp).r1 = s.r1 := rfl
@[simp] theorem State.toApp_r2 (s : State) : (s.toApp).r2 = s.r2 := rfl
@[simp] theorem State.toApp_r3 (s : State) : (s.toApp).r3 = s.r3 := rfl
@[simp] theorem State.toApp_err (s : State) : (s.toApp).err = s.err := rfl
@[simp] theorem State.toApp_life (s : State) : (s.toApp).life = s.life := rfl
@[simp] theorem State.toApp_phase (s : State) : (s.toApp).phase = .app := rfl
@[simp] theorem State.toApp_strategy (s : State) : (s.toApp).strategy = s.strategy := rfl
@[simp] theorem State.toApp_tickpend (s : State) : (s.toApp).tickpend = s.tickpend := rfl
@[simp] theorem State.toApp_ovr (s : State) : (s.toApp).ovr = s.ovr := rfl
@[simp] theorem State.toApp_fatal (s : State) : (s.toApp).fatal = s.fatal := rfl
@[simp] theorem State.toApp_cycle (s : State) : (s.toApp).cycle = s.cycle := rfl
@[simp] theorem State.toApp_tPre (s : State) : (s.toApp).tPre = s.tPre := rfl
@[simp] theorem State.toApp_tPost (s : State) : (s.toApp).tPost = s.readTime.sinceStart := rfl
@[simp] theorem State.toApp_tFin (s : State) : (s.toApp).tFin = s.tFin := rfl
@[simp] theorem State.toApp_kdiv (s : State) : (s.toApp).kdiv = s.kdiv := rfl
@[simp] theorem State.toApp_tickcnt (s : State) : (s.toApp).tickcnt = s.tickcnt := rfl
@[simp] theorem State.toApp_fldcnt (s : State) : (s.toApp).fldcnt = s.fldcnt := rfl
@[simp] theorem State.toApp_slv (s : State) : (s.toApp).slv = s.slv := rfl
@[simp] theorem State.toApp_dom (s : State) : (s.toApp).dom = s.dom := rfl
@[simp] theorem State.toApp_fld (s : State) : (s.toApp).fld = s.fld := rfl
@[simp] theorem State.toApp_dg (s : State) : (s.toApp).dg = s.dg := rfl
@[simp] theorem State.toApp_mx (s : State) : (s.toApp).mx = s.mx := rfl
@[simp] theorem State.toApp_t0 (s : State) : (s.toApp).t0 = s.t0 := rfl
@[simp] theorem State.toApp_log (s : State) : (s.toApp).log = s.log := rfl
@[simp] theorem State.toApp_held (s : State) : (s.toApp).held = s.held := rfl
@[simp] theorem State.toApp_todo (s : State) : (s.toApp).todo = s.todo := rfl
@[simp] theorem State.toApp_hostTicks (s : State) : (s.toApp).hostTicks = s.hostTicks := rfl
@[simp] theorem State.toApp_rdata (s : State) : (s.toApp).rdata = s.rdata := rfl
@[simp] theorem State.toApp_inputs (s : State) : (s.toApp).inputs = s.inputs := rfl
@[simp] theorem State.toApp_wire (s : State) : (s.toApp).wire = s.wire := rfl
@[simp] theorem State.toApp_elapsed (s : State) : (s.toApp).elapsed = s.elapsed.tail := rfl
@[simp] theorem State.toApp_draws (s : State) : (s.toApp).draws = s.draws + 1 := rfl
@[simp] theorem State.toApp_now (s : State) : (s.toApp).now = s.now + s.advance := rfl

/-! ## startCycle -/

@[simp] theorem State.startCycle_par (s : State) : (s.startCycle).par = s.par := rfl
@[simp] theorem State.startCycle_a0 (s : State) : (s.startCycle).a0 = s.a0 := rfl
@[simp] theorem State.startCycle_a1 (s : State) : (s.startCycle).a1 = s.a1 := rfl
@[simp] theorem State.startCycle_a2 (s : State) : (s.startCycle).a2 = s.a2 := rfl
@[simp] theorem State.startCycle_a3 (s : State) : (s.startCycle).a3 = s.a3 := rfl
@[simp] theorem State.startCycle_r0 (s : State) : (s.startCycle).r0 = s.r0 := rfl
@[simp] theorem State.startCycle_r1 (s : State) : (s.startCycle).r1 = s.r1 := rfl
@[simp] theorem State.startCycle_r2 (s : State) : (s.startCycle).r2 = s.r2 := rfl
@[simp] theorem State.startCycle_r3 (s : State) : (s.startCycle).r3 = s.r3 := rfl
@[simp] theorem State.startCycle_err (s : State) : (s.startCycle).err = s.err := rfl
@[simp] theorem State.startCycle_life (s : State) : (s.startCycle).life = s.life := rfl
@[simp] theorem State.startCycle_phase (s : State) : (s.startCycle).phase = firstPhase s.strategy := rfl
@[simp] theorem State.startCycle_strategy (s : State) : (s.startCycle).strategy = s.strategy := rfl
@[simp] theorem State.startCycle_tickpend (s : State) : (s.startCycle).tickpend = s.tickpend := rfl
@[simp] theorem State.startCycle_ovr (s : State) : (s.startCycle).ovr = s.ovr := rfl
@[simp] theorem State.startCycle_fatal (s : State) : (s.startCycle).fatal = s.fatal := rfl
@[simp] theorem State.startCycle_cycle (s : State) : (s.startCycle).cycle = s.cycle + 1 := rfl
@[simp] theorem State.startCycle_tPost (s : State) : (s.startCycle).tPost = s.tPost := rfl
@[simp] theorem State.startCycle_tFin (s : State) : (s.startCycle).tFin = s.tFin := rfl
@[simp] theorem State.startCycle_kdiv (s : State) : (s.startCycle).kdiv = s.kdiv := rfl
@[simp] theorem State.startCycle_tickcnt (s : State) : (s.startCycle).tickcnt = s.tickcnt := rfl
@[simp] theorem State.startCycle_fldcnt (s : State) : (s.startCycle).fldcnt = s.fldcnt := rfl
@[simp] theorem State.startCycle_slv (s : State) : (s.startCycle).slv = s.slv := rfl
@[simp] theorem State.startCycle_dom (s : State) : (s.startCycle).dom = s.dom := rfl
@[simp] theorem State.startCycle_fld (s : State) : (s.startCycle).fld = s.fld := rfl
@[simp] theorem State.startCycle_dg (s : State) : (s.startCycle).dg = s.dg := rfl
@[simp] theorem State.startCycle_mx (s : State) : (s.startCycle).mx = s.mx := rfl
@[simp] theorem State.startCycle_t0 (s : State) : (s.startCycle).t0 = s.now + s.advance := rfl
@[simp] theorem State.startCycle_log (s : State) : (s.startCycle).log = s.log := rfl
@[simp] theorem State.startCycle_held (s : State) : (s.startCycle).held = s.held := rfl
@[simp] theorem State.startCycle_todo (s : State) : (s.startCycle).todo = cycleProgram s.strategy := rfl
@[simp] theorem State.startCycle_hostTicks (s : State) : (s.startCycle).hostTicks = s.hostTicks := rfl
@[simp] theorem State.startCycle_rdata (s : State) : (s.startCycle).rdata = s.rdata := rfl
@[simp] theorem State.startCycle_inputs (s : State) : (s.startCycle).inputs = s.inputs := rfl
@[simp] theorem State.startCycle_wire (s : State) : (s.startCycle).wire = s.wire := rfl
@[simp] theorem State.startCycle_elapsed (s : State) : (s.startCycle).elapsed = s.elapsed.tail.tail := rfl
@[simp] theorem State.startCycle_draws (s : State) : (s.startCycle).draws = s.draws + 2 := rfl

/-! ## withArgs -/

@[simp] theorem State.withArgs_par (s : State) (h : Held) : (s.withArgs h).par = s.par := rfl
@[simp] theorem State.withArgs_a0 (s : State) (h : Held) : (s.withArgs h).a0 = h.a0 := rfl
@[simp] theorem State.withArgs_a1 (s : State) (h : Held) : (s.withArgs h).a1 = h.a1 := rfl
@[simp] theorem State.withArgs_a2 (s : State) (h : Held) : (s.withArgs h).a2 = h.a2 := rfl
@[simp] theorem State.withArgs_a3 (s : State) (h : Held) : (s.withArgs h).a3 = h.a3 := rfl
@[simp] theorem State.withArgs_r0 (s : State) (h : Held) : (s.withArgs h).r0 = s.r0 := rfl
@[simp] theorem State.withArgs_r1 (s : State) (h : Held) : (s.withArgs h).r1 = s.r1 := rfl
@[simp] theorem State.withArgs_r2 (s : State) (h : Held) : (s.withArgs h).r2 = s.r2 := rfl
@[simp] theorem State.withArgs_r3 (s : State) (h : Held) : (s.withArgs h).r3 = s.r3 := rfl
@[simp] theorem State.withArgs_err (s : State) (h : Held) : (s.withArgs h).err = s.err := rfl
@[simp] theorem State.withArgs_life (s : State) (h : Held) : (s.withArgs h).life = s.life := rfl
@[simp] theorem State.withArgs_phase (s : State) (h : Held) : (s.withArgs h).phase = s.phase := rfl
@[simp] theorem State.withArgs_strategy (s : State) (h : Held) : (s.withArgs h).strategy = s.strategy := rfl
@[simp] theorem State.withArgs_tickpend (s : State) (h : Held) : (s.withArgs h).tickpend = s.tickpend := rfl
@[simp] theorem State.withArgs_ovr (s : State) (h : Held) : (s.withArgs h).ovr = s.ovr := rfl
@[simp] theorem State.withArgs_fatal (s : State) (h : Held) : (s.withArgs h).fatal = s.fatal := rfl
@[simp] theorem State.withArgs_cycle (s : State) (h : Held) : (s.withArgs h).cycle = s.cycle := rfl
@[simp] theorem State.withArgs_tPre (s : State) (h : Held) : (s.withArgs h).tPre = s.tPre := rfl
@[simp] theorem State.withArgs_tPost (s : State) (h : Held) : (s.withArgs h).tPost = s.tPost := rfl
@[simp] theorem State.withArgs_tFin (s : State) (h : Held) : (s.withArgs h).tFin = s.tFin := rfl
@[simp] theorem State.withArgs_kdiv (s : State) (h : Held) : (s.withArgs h).kdiv = s.kdiv := rfl
@[simp] theorem State.withArgs_tickcnt (s : State) (h : Held) : (s.withArgs h).tickcnt = s.tickcnt := rfl
@[simp] theorem State.withArgs_fldcnt (s : State) (h : Held) : (s.withArgs h).fldcnt = s.fldcnt := rfl
@[simp] theorem State.withArgs_slv (s : State) (h : Held) : (s.withArgs h).slv = s.slv := rfl
@[simp] theorem State.withArgs_dom (s : State) (h : Held) : (s.withArgs h).dom = s.dom := rfl
@[simp] theorem State.withArgs_fld (s : State) (h : Held) : (s.withArgs h).fld = s.fld := rfl
@[simp] theorem State.withArgs_dg (s : State) (h : Held) : (s.withArgs h).dg = s.dg := rfl
@[simp] theorem State.withArgs_mx (s : State) (h : Held) : (s.withArgs h).mx = s.mx := rfl
@[simp] theorem State.withArgs_t0 (s : State) (h : Held) : (s.withArgs h).t0 = s.t0 := rfl
@[simp] theorem State.withArgs_log (s : State) (h : Held) : (s.withArgs h).log = s.log := rfl
@[simp] theorem State.withArgs_held (s : State) (h : Held) : (s.withArgs h).held = s.held := rfl
@[simp] theorem State.withArgs_todo (s : State) (h : Held) : (s.withArgs h).todo = s.todo := rfl
@[simp] theorem State.withArgs_hostTicks (s : State) (h : Held) : (s.withArgs h).hostTicks = s.hostTicks := rfl
@[simp] theorem State.withArgs_rdata (s : State) (h : Held) : (s.withArgs h).rdata = s.rdata := rfl
@[simp] theorem State.withArgs_inputs (s : State) (h : Held) : (s.withArgs h).inputs = s.inputs := rfl
@[simp] theorem State.withArgs_wire (s : State) (h : Held) : (s.withArgs h).wire = s.wire := rfl
@[simp] theorem State.withArgs_elapsed (s : State) (h : Held) : (s.withArgs h).elapsed = s.elapsed := rfl
@[simp] theorem State.withArgs_draws (s : State) (h : Held) : (s.withArgs h).draws = s.draws := rfl
@[simp] theorem State.withArgs_now (s : State) (h : Held) : (s.withArgs h).now = s.now := rfl

/-! ## restoreArgs -/

@[simp] theorem State.restoreArgs_par (s : State) (t : State) : (s.restoreArgs t).par = t.par := rfl
@[simp] theorem State.restoreArgs_a0 (s : State) (t : State) : (s.restoreArgs t).a0 = s.a0 := rfl
@[simp] theorem State.restoreArgs_a1 (s : State) (t : State) : (s.restoreArgs t).a1 = s.a1 := rfl
@[simp] theorem State.restoreArgs_a2 (s : State) (t : State) : (s.restoreArgs t).a2 = s.a2 := rfl
@[simp] theorem State.restoreArgs_a3 (s : State) (t : State) : (s.restoreArgs t).a3 = s.a3 := rfl
@[simp] theorem State.restoreArgs_r0 (s : State) (t : State) : (s.restoreArgs t).r0 = t.r0 := rfl
@[simp] theorem State.restoreArgs_r1 (s : State) (t : State) : (s.restoreArgs t).r1 = t.r1 := rfl
@[simp] theorem State.restoreArgs_r2 (s : State) (t : State) : (s.restoreArgs t).r2 = t.r2 := rfl
@[simp] theorem State.restoreArgs_r3 (s : State) (t : State) : (s.restoreArgs t).r3 = t.r3 := rfl
@[simp] theorem State.restoreArgs_err (s : State) (t : State) : (s.restoreArgs t).err = t.err := rfl
@[simp] theorem State.restoreArgs_life (s : State) (t : State) : (s.restoreArgs t).life = t.life := rfl
@[simp] theorem State.restoreArgs_phase (s : State) (t : State) : (s.restoreArgs t).phase = t.phase := rfl
@[simp] theorem State.restoreArgs_strategy (s : State) (t : State) : (s.restoreArgs t).strategy = t.strategy := rfl
@[simp] theorem State.restoreArgs_tickpend (s : State) (t : State) : (s.restoreArgs t).tickpend = t.tickpend := rfl
@[simp] theorem State.restoreArgs_ovr (s : State) (t : State) : (s.restoreArgs t).ovr = t.ovr := rfl
@[simp] theorem State.restoreArgs_fatal (s : State) (t : State) : (s.restoreArgs t).fatal = t.fatal := rfl
@[simp] theorem State.restoreArgs_cycle (s : State) (t : State) : (s.restoreArgs t).cycle = t.cycle := rfl
@[simp] theorem State.restoreArgs_tPre (s : State) (t : State) : (s.restoreArgs t).tPre = t.tPre := rfl
@[simp] theorem State.restoreArgs_tPost (s : State) (t : State) : (s.restoreArgs t).tPost = t.tPost := rfl
@[simp] theorem State.restoreArgs_tFin (s : State) (t : State) : (s.restoreArgs t).tFin = t.tFin := rfl
@[simp] theorem State.restoreArgs_kdiv (s : State) (t : State) : (s.restoreArgs t).kdiv = t.kdiv := rfl
@[simp] theorem State.restoreArgs_tickcnt (s : State) (t : State) : (s.restoreArgs t).tickcnt = t.tickcnt := rfl
@[simp] theorem State.restoreArgs_fldcnt (s : State) (t : State) : (s.restoreArgs t).fldcnt = t.fldcnt := rfl
@[simp] theorem State.restoreArgs_slv (s : State) (t : State) : (s.restoreArgs t).slv = t.slv := rfl
@[simp] theorem State.restoreArgs_dom (s : State) (t : State) : (s.restoreArgs t).dom = t.dom := rfl
@[simp] theorem State.restoreArgs_fld (s : State) (t : State) : (s.restoreArgs t).fld = t.fld := rfl
@[simp] theorem State.restoreArgs_dg (s : State) (t : State) : (s.restoreArgs t).dg = t.dg := rfl
@[simp] theorem State.restoreArgs_mx (s : State) (t : State) : (s.restoreArgs t).mx = t.mx := rfl
@[simp] theorem State.restoreArgs_t0 (s : State) (t : State) : (s.restoreArgs t).t0 = t.t0 := rfl
@[simp] theorem State.restoreArgs_log (s : State) (t : State) : (s.restoreArgs t).log = t.log := rfl
@[simp] theorem State.restoreArgs_held (s : State) (t : State) : (s.restoreArgs t).held = t.held := rfl
@[simp] theorem State.restoreArgs_todo (s : State) (t : State) : (s.restoreArgs t).todo = t.todo := rfl
@[simp] theorem State.restoreArgs_hostTicks (s : State) (t : State) : (s.restoreArgs t).hostTicks = t.hostTicks := rfl
@[simp] theorem State.restoreArgs_rdata (s : State) (t : State) : (s.restoreArgs t).rdata = t.rdata := rfl
@[simp] theorem State.restoreArgs_inputs (s : State) (t : State) : (s.restoreArgs t).inputs = t.inputs := rfl
@[simp] theorem State.restoreArgs_wire (s : State) (t : State) : (s.restoreArgs t).wire = t.wire := rfl
@[simp] theorem State.restoreArgs_elapsed (s : State) (t : State) : (s.restoreArgs t).elapsed = t.elapsed := rfl
@[simp] theorem State.restoreArgs_draws (s : State) (t : State) : (s.restoreArgs t).draws = t.draws := rfl
@[simp] theorem State.restoreArgs_now (s : State) (t : State) : (s.restoreArgs t).now = t.now := rfl

/-! ## fwd -/

@[simp] theorem State.fwd_par (s : State) : (s.fwd).par = s.par := rfl
@[simp] theorem State.fwd_a0 (s : State) : (s.fwd).a0 = s.a0 := rfl
@[simp] theorem State.fwd_a1 (s : State) : (s.fwd).a1 = s.a1 := rfl
@[simp] theorem State.fwd_a2 (s : State) : (s.fwd).a2 = s.a2 := rfl
@[simp] theorem State.fwd_a3 (s : State) : (s.fwd).a3 = s.a3 := rfl
@[simp] theorem State.fwd_r0 (s : State) : (s.fwd).r0 = s.r0 := rfl
@[simp] theorem State.fwd_r1 (s : State) : (s.fwd).r1 = s.r1 := rfl
@[simp] theorem State.fwd_r2 (s : State) : (s.fwd).r2 = s.r2 := rfl
@[simp] theorem State.fwd_r3 (s : State) : (s.fwd).r3 = s.r3 := rfl
@[simp] theorem State.fwd_err (s : State) : (s.fwd).err = s.err := rfl
@[simp] theorem State.fwd_life (s : State) : (s.fwd).life = s.life := rfl
@[simp] theorem State.fwd_phase (s : State) : (s.fwd).phase = s.phase := rfl
@[simp] theorem State.fwd_strategy (s : State) : (s.fwd).strategy = s.strategy := rfl
@[simp] theorem State.fwd_tickpend (s : State) : (s.fwd).tickpend = s.tickpend := rfl
@[simp] theorem State.fwd_ovr (s : State) : (s.fwd).ovr = s.ovr := rfl
@[simp] theorem State.fwd_fatal (s : State) : (s.fwd).fatal = s.fatal := rfl
@[simp] theorem State.fwd_cycle (s : State) : (s.fwd).cycle = s.cycle := rfl
@[simp] theorem State.fwd_tPre (s : State) : (s.fwd).tPre = s.tPre := rfl
@[simp] theorem State.fwd_tPost (s : State) : (s.fwd).tPost = s.tPost := rfl
@[simp] theorem State.fwd_tFin (s : State) : (s.fwd).tFin = s.tFin := rfl
@[simp] theorem State.fwd_kdiv (s : State) : (s.fwd).kdiv = s.kdiv := rfl
@[simp] theorem State.fwd_fldcnt (s : State) : (s.fwd).fldcnt = s.fldcnt := rfl
@[simp] theorem State.fwd_slv (s : State) : (s.fwd).slv = s.slv := rfl
@[simp] theorem State.fwd_dom (s : State) : (s.fwd).dom = s.dom := rfl
@[simp] theorem State.fwd_fld (s : State) : (s.fwd).fld = s.fld := rfl
@[simp] theorem State.fwd_dg (s : State) : (s.fwd).dg = s.dg := rfl
@[simp] theorem State.fwd_mx (s : State) : (s.fwd).mx = s.mx := rfl
@[simp] theorem State.fwd_t0 (s : State) : (s.fwd).t0 = s.t0 := rfl
@[simp] theorem State.fwd_log (s : State) : (s.fwd).log = s.log := rfl
@[simp] theorem State.fwd_held (s : State) : (s.fwd).held = s.held := rfl
@[simp] theorem State.fwd_todo (s : State) : (s.fwd).todo = s.todo := rfl
@[simp] theorem State.fwd_rdata (s : State) : (s.fwd).rdata = s.rdata := rfl
@[simp] theorem State.fwd_inputs (s : State) : (s.fwd).inputs = s.inputs := rfl
@[simp] theorem State.fwd_wire (s : State) : (s.fwd).wire = s.wire := rfl
@[simp] theorem State.fwd_elapsed (s : State) : (s.fwd).elapsed = s.elapsed := rfl
@[simp] theorem State.fwd_draws (s : State) : (s.fwd).draws = s.draws := rfl
@[simp] theorem State.fwd_now (s : State) : (s.fwd).now = s.now := rfl

/-! ## finishTiming -/

@[simp] theorem State.finishTiming_par (s : State) : (s.finishTiming).par = s.par := rfl
@[simp] theorem State.finishTiming_a0 (s : State) : (s.finishTiming).a0 = s.a0 := rfl
@[simp] theorem State.finishTiming_a1 (s : State) : (s.finishTiming).a1 = s.a1 := rfl
@[simp] theorem State.finishTiming_a2 (s : State) : (s.finishTiming).a2 = s.a2 := rfl
@[simp] theorem State.finishTiming_a3 (s : State) : (s.finishTiming).a3 = s.a3 := rfl
@[simp] theorem State.finishTiming_r0 (s : State) : (s.finishTiming).r0 = s.r0 := rfl
@[simp] theorem State.finishTiming_r1 (s : State) : (s.finishTiming).r1 = s.r1 := rfl
@[simp] theorem State.finishTiming_r2 (s : State) : (s.finishTiming).r2 = s.r2 := rfl
@[simp] theorem State.finishTiming_r3 (s : State) : (s.finishTiming).r3 = s.r3 := rfl
@[simp] theorem State.finishTiming_err (s : State) : (s.finishTiming).err = s.err := rfl
@[simp] theorem State.finishTiming_life (s : State) : (s.finishTiming).life = s.life := rfl
@[simp] theorem State.finishTiming_phase (s : State) : (s.finishTiming).phase = s.phase := rfl
@[simp] theorem State.finishTiming_strategy (s : State) : (s.finishTiming).strategy = s.strategy := rfl
@[simp] theorem State.finishTiming_tickpend (s : State) : (s.finishTiming).tickpend = s.tickpend := rfl
@[simp] theorem State.finishTiming_fatal (s : State) : (s.finishTiming).fatal = s.fatal := rfl
@[simp] theorem State.finishTiming_cycle (s : State) : (s.finishTiming).cycle = s.cycle := rfl
@[simp] theorem State.finishTiming_tPre (s : State) : (s.finishTiming).tPre = s.tPre := rfl
@[simp] theorem State.finishTiming_tPost (s : State) : (s.finishTiming).tPost = s.tPost := rfl
@[simp] theorem State.finishTiming_kdiv (s : State) : (s.finishTiming).kdiv = s.kdiv := rfl
@[simp] theorem State.finishTiming_tickcnt (s : State) : (s.finishTiming).tickcnt = s.tickcnt := rfl
@[simp] theorem State.finishTiming_fldcnt (s : State) : (s.finishTiming).fldcnt = s.fldcnt := rfl
@[simp] theorem State.finishTiming_slv (s : State) : (s.finishTiming).slv = s.slv := rfl
@[simp] theorem State.finishTiming_dom (s : State) : (s.finishTiming).dom = s.dom := rfl
@[simp] theorem State.finishTiming_fld (s : State) : (s.finishTiming).fld = s.fld := rfl
@[simp] theorem State.finishTiming_dg (s : State) : (s.finishTiming).dg = s.dg := rfl
@[simp] theorem State.finishTiming_mx (s : State) : (s.finishTiming).mx = s.mx := rfl
@[simp] theorem State.finishTiming_t0 (s : State) : (s.finishTiming).t0 = s.t0 := rfl
@[simp] theorem State.finishTiming_log (s : State) : (s.finishTiming).log = s.log := rfl
@[simp] theorem State.finishTiming_held (s : State) : (s.finishTiming).held = s.held := rfl
@[simp] theorem State.finishTiming_todo (s : State) : (s.finishTiming).todo = s.todo := rfl
@[simp] theorem State.finishTiming_hostTicks (s : State) : (s.finishTiming).hostTicks = s.hostTicks := rfl
@[simp] theorem State.finishTiming_rdata (s : State) : (s.finishTiming).rdata = s.rdata := rfl
@[simp] theorem State.finishTiming_inputs (s : State) : (s.finishTiming).inputs = s.inputs := rfl
@[simp] theorem State.finishTiming_wire (s : State) : (s.finishTiming).wire = s.wire := rfl

/-! ## endCycle -/

@[simp] theorem State.endCycle_par (s : State) : (s.endCycle).par = s.par := by
  simp only [State.endCycle]
  split <;> simp
@[simp] theorem State.endCycle_a0 (s : State) : (s.endCycle).a0 = s.a0 := by
  simp only [State.endCycle]
  split <;> simp
@[simp] theorem State.endCycle_a1 (s : State) : (s.endCycle).a1 = s.a1 := by
  simp only [State.endCycle]
  split <;> simp
@[simp] theorem State.endCycle_a2 (s : State) : (s.endCycle).a2 = s.a2 := by
  simp only [State.endCycle]
  split <;> simp
@[simp] theorem State.endCycle_a3 (s : State) : (s.endCycle).a3 = s.a3 := by
  simp only [State.endCycle]
  split <;> simp
@[simp] theorem State.endCycle_r0 (s : State) : (s.endCycle).r0 = s.r0 := by
  simp only [State.endCycle]
  split <;> simp
@[simp] theorem State.endCycle_r1 (s : State) : (s.endCycle).r1 = s.r1 := by
  simp only [State.endCycle]
  split <;> simp
@[simp] theorem State.endCycle_r2 (s : State) : (s.endCycle).r2 = s.r2 := by
  simp only [State.endCycle]
  split <;> simp
@[simp] theorem State.endCycle_r3 (s : State) : (s.endCycle).r3 = s.r3 := by
  simp only [State.endCycle]
  split <;> simp
@[simp] theorem State.endCycle_err (s : State) : (s.endCycle).err = s.err := by
  simp only [State.endCycle]
  split <;> simp
@[simp] theorem State.endCycle_life (s : State) : (s.endCycle).life = s.life := by
  simp only [State.endCycle]
  split <;> simp
@[simp] theorem State.endCycle_strategy (s : State) : (s.endCycle).strategy = s.strategy := by
  simp only [State.endCycle]
  split <;> simp
@[simp] theorem State.endCycle_fatal (s : State) : (s.endCycle).fatal = s.fatal := by
  simp only [State.endCycle]
  split <;> simp
@[simp] theorem State.endCycle_tPost (s : State) : (s.endCycle).tPost = s.tPost := by
  simp only [State.endCycle]
  split <;> simp
@[simp] theorem State.endCycle_kdiv (s : State) : (s.endCycle).kdiv = s.kdiv := by
  simp only [State.endCycle]
  split <;> simp
@[simp] theorem State.endCycle_fldcnt (s : State) : (s.endCycle).fldcnt = s.fldcnt := by
  simp only [State.endCycle]
  split <;> simp
@[simp] theorem State.endCycle_slv (s : State) : (s.endCycle).slv = s.slv := by
  simp only [State.endCycle]
  split <;> simp
@[simp] theorem State.endCycle_dom (s : State) : (s.endCycle).dom = s.dom := by
  simp only [State.endCycle]
  split <;> simp
@[simp] theorem State.endCycle_fld (s : State) : (s.endCycle).fld = s.fld := by
  simp only [State.endCycle]
  split <;> simp
@[simp] theorem State.endCycle_dg (s : State) : (s.endCycle).dg = s.dg := by
  simp only [State.endCycle]
  split <;> simp
@[simp] theorem State.endCycle_mx (s : State) : (s.endCycle).mx = s.mx := by
  simp only [State.endCycle]
  split <;> simp
@[simp] theorem State.endCycle_log (s : State) : (s.endCycle).log = s.log := by
  simp only [State.endCycle]
  split <;> simp
@[simp] theorem State.endCycle_held (s : State) : (s.endCycle).held = s.held := by
  simp only [State.endCycle]
  split <;> simp
@[simp] theorem State.endCycle_rdata (s : State) : (s.endCycle).rdata = s.rdata := by
  simp only [State.endCycle]
  split <;> simp
@[simp] theorem State.endCycle_inputs (s : State) : (s.endCycle).inputs = s.inputs := by
  simp only [State.endCycle]
  split <;> simp
@[simp] theorem State.endCycle_wire (s : State) : (s.endCycle).wire = s.wire := by
  simp only [State.endCycle]
  split <;> simp

/-! ## tick -/

@[simp] theorem State.tick_par (s : State) : (s.tick).par = s.par := by
  unfold State.tick
  (repeat' split) <;> rfl
@[simp] theorem State.tick_a0 (s : State) : (s.tick).a0 = s.a0 := by
  unfold State.tick
  (repeat' split) <;> rfl
@[simp] theorem State.tick_a1 (s : State) : (s.tick).a1 = s.a1 := by
  unfold State.tick
  (repeat' split) <;> rfl
@[simp] theorem State.tick_a2 (s : State) : (s.tick).a2 = s.a2 := by
  unfold State.tick
  (repeat' split) <;> rfl
@[simp] theorem State.tick_a3 (s : State) : (s.tick).a3 = s.a3 := by
  unfold State.tick
  (repeat' split) <;> rfl
@[simp] theorem State.tick_r0 (s : State) : (s.tick).r0 = s.r0 := by
  unfold State.tick
  (repeat' split) <;> rfl
@[simp] theorem State.tick_r1 (s : State) : (s.tick).r1 = s.r1 := by
  unfold State.tick
  (repeat' split) <;> rfl
@[simp] theorem State.tick_r2 (s : State) : (s.tick).r2 = s.r2 := by
  unfold State.tick
  (repeat' split) <;> rfl
@[simp] theorem State.tick_r3 (s : State) : (s.tick).r3 = s.r3 := by
  unfold State.tick
  (repeat' split) <;> rfl
@[simp] theorem State.tick_err (s : State) : (s.tick).err = s.err := by
  unfold State.tick
  (repeat' split) <;> rfl
@[simp] theorem State.tick_life (s : State) : (s.tick).life = s.life := by
  unfold State.tick
  (repeat' split) <;> rfl
@[simp] theorem State.tick_strategy (s : State) : (s.tick).strategy = s.strategy := by
  unfold State.tick
  (repeat' split) <;> rfl
@[simp] theorem State.tick_fatal (s : State) : (s.tick).fatal = s.fatal := by
  unfold State.tick
  (repeat' split) <;> rfl
@[simp] theorem State.tick_tPost (s : State) : (s.tick).tPost = s.tPost := by
  unfold State.tick
  (repeat' split) <;> rfl
@[simp] theorem State.tick_tFin (s : State) : (s.tick).tFin = s.tFin := by
  unfold State.tick
  (repeat' split) <;> rfl
@[simp] theorem State.tick_kdiv (s : State) : (s.tick).kdiv = s.kdiv := by
  unfold State.tick
  (repeat' split) <;> rfl
@[simp] theorem State.tick_tickcnt (s : State) : (s.tick).tickcnt = s.tickcnt := by
  unfold State.tick
  (repeat' split) <;> rfl
@[simp] theorem State.tick_fldcnt (s : State) : (s.tick).fldcnt = s.fldcnt := by
  unfold State.tick
  (repeat' split) <;> rfl
@[simp] theorem State.tick_slv (s : State) : (s.tick).slv = s.slv := by
  unfold State.tick
  (repeat' split) <;> rfl
@[simp] theorem State.tick_dom (s : State) : (s.tick).dom = s.dom := by
  unfold State.tick
  (repeat' split) <;> rfl
@[simp] theorem State.tick_fld (s : State) : (s.tick).fld = s.fld := by
  unfold State.tick
  (repeat' split) <;> rfl
@[simp] theorem State.tick_dg (s : State) : (s.tick).dg = s.dg := by
  unfold State.tick
  (repeat' split) <;> rfl
@[simp] theorem State.tick_mx (s : State) : (s.tick).mx = s.mx := by
  unfold State.tick
  (repeat' split) <;> rfl
@[simp] theorem State.tick_log (s : State) : (s.tick).log = s.log := by
  unfold State.tick
  (repeat' split) <;> rfl
@[simp] theorem State.tick_held (s : State) : (s.tick).held = s.held := by
  unfold State.tick
  (repeat' split) <;> rfl
@[simp] theorem State.tick_hostTicks (s : State) : (s.tick).hostTicks = s.hostTicks := by
  unfold State.tick
  (repeat' split) <;> rfl
@[simp] theorem State.tick_rdata (s : State) : (s.tick).rdata = s.rdata := by
  unfold State.tick
  (repeat' split) <;> rfl
@[simp] theorem State.tick_inputs (s : State) : (s.tick).inputs = s.inputs := by
  unfold State.tick
  (repeat' split) <;> rfl
@[simp] theorem State.tick_wire (s : State) : (s.tick).wire = s.wire := by
  unfold State.tick
  (repeat' split) <;> rfl

end Sys2Proof.Machine
end

