-- ==== Sys2Proof/Laws/Slots.lean ====
section
/-! SUPPORT. The laws of the slot pool: what a slot reads as after a write, what borrowing a slot does, and what the
operand lookups answer. -/

namespace Sys2Proof.Machine

/-! ## Reading the pool -/

/-- A slot that is not Free is the one the pool lists. -/
theorem State.slotAt_eq_some {s : State} {q : Nat} {x : Datagram} : s.slotAt q = some x ↔ s.dg[q]? = some (some x) := by
  unfold State.slotAt
  cases h : s.dg[q]? with
  | none => simp
  | some y => simp

/-- A slot that answers lies in the pool. -/
theorem State.slotAt_lt {s : State} {q : Nat} {x : Datagram} (h : s.slotAt q = some x) : q < s.dg.length :=
  (List.getElem?_eq_some_iff.1 (State.slotAt_eq_some.1 h)).1

/-- `slotAt` looks at the pool only. -/
theorem State.slotAt_congr {s t : State} (h : t.dg = s.dg) (q : Nat) : t.slotAt q = s.slotAt q := by
  unfold State.slotAt
  rw [h]

/-- A slot does not depend on what is left to run. -/
@[simp] theorem State.slotAt_todo (s : State) (rest : List MicroOp) (q : Nat) :
    State.slotAt { s with todo := rest } q = s.slotAt q := rfl

/-- Read after write in the pool. -/
theorem State.slotAt_setSlot (s : State) (q r : Nat) (x : Slot) :
    (s.setSlot q x).slotAt r = if r = q ∧ q < s.dg.length then x else s.slotAt r := by
  unfold State.slotAt
  simp only [State.setSlot_dg, List.getElem?_set]
  by_cases hr : q = r
  · subst hr
    by_cases hq : q < s.dg.length
    · simp [hq]
    · simp [hq]
  · have hr' : ¬ r = q := fun e => hr e.symm
    simp [hr, hr']

/-- A completed slot. -/
theorem State.doneAt_eq_some {s : State} {q : Nat} {x : Datagram} :
    s.doneAt q = some x ↔ s.slotAt q = some x ∧ x.st = .done := by
  unfold State.doneAt
  cases h : s.slotAt q with
  | none => simp
  | some y =>
    by_cases hy : y.st = .done
    · simp only [hy, if_true, Option.some.injEq]
      constructor
      · rintro rfl
        exact ⟨rfl, hy⟩
      · rintro ⟨rfl, -⟩
        rfl
    · simp only [hy, if_false, Option.some.injEq]
      constructor
      · intro hn
        cases hn
      · rintro ⟨rfl, hd⟩
        exact absurd hd hy

/-- The slave a command names is a valid entry of the table. -/
theorem State.slaveAt_eq_some {s : State} {v : Nat} {e : Slave} :
    s.slaveAt v = some e ↔ s.slv[v]? = some e ∧ e.valid = true := by
  unfold State.slaveAt
  cases h : s.slv[v]? with
  | none => simp
  | some y =>
    by_cases hy : y.valid = true
    · simp only [hy, if_true, Option.some.injEq]
      constructor
      · rintro rfl
        exact ⟨rfl, hy⟩
      · exact fun h => h.1
    · simp only [hy, Option.some.injEq]
      constructor
      · intro hn
        cases hn
      · rintro ⟨rfl, hd⟩
        exact absurd hd hy

/-- The domain a command names is a valid entry of the table. -/
theorem State.domainAt_eq_some {s : State} {d : Nat} {x : Domain} :
    s.domainAt d = some x ↔ s.dom[d]? = some x ∧ x.valid = true := by
  unfold State.domainAt
  cases h : s.dom[d]? with
  | none => simp
  | some y =>
    by_cases hy : y.valid = true
    · simp only [hy, if_true, Option.some.injEq]
      constructor
      · rintro rfl
        exact ⟨rfl, hy⟩
      · exact fun h => h.1
    · simp only [hy, Option.some.injEq]
      constructor
      · intro hn
        cases hn
      · rintro ⟨rfl, hd⟩
        exact absurd hd hy

/-! ## Borrowing -/

/-- The slot taken is Free and every lower slot is not (20_memory.md R81). -/
theorem firstFree_eq_some {l : List Slot} {q : Nat} :
    firstFree l = some q ↔ l[q]? = some none ∧ ∀ r, r < q → ∃ x, l[r]? = some (some x) := by
  induction l generalizing q with
  | nil => simp [firstFree]
  | cons a l ih =>
    cases a with
    | none =>
      simp only [firstFree, Option.some.injEq]
      constructor
      · rintro rfl
        exact ⟨rfl, fun r hr => absurd hr (Nat.not_lt_zero r)⟩
      · rintro ⟨-, h⟩
        cases q with
        | zero => rfl
        | succ q =>
          obtain ⟨x, hx⟩ := h 0 (Nat.succ_pos q)
          simp at hx
    | some y =>
      simp only [firstFree, Option.map_eq_some_iff]
      constructor
      · rintro ⟨p, hp, rfl⟩
        obtain ⟨h1, h2⟩ := ih.1 hp
        refine ⟨by simpa using h1, fun r hr => ?_⟩
        cases r with
        | zero => exact ⟨y, rfl⟩
        | succ r => simpa using h2 r (by omega)
      · rintro ⟨h1, h2⟩
        cases q with
        | zero => simp at h1
        | succ q =>
          refine ⟨q, ih.2 ⟨by simpa using h1, fun r hr => ?_⟩, rfl⟩
          simpa using h2 (r + 1) (by omega)

/-- There is a Free slot or every slot of the pool is taken. -/
theorem firstFree_eq_none {l : List Slot} : firstFree l = none ↔ ∀ x ∈ l, x ≠ none := by
  induction l with
  | nil => simp [firstFree]
  | cons a l ih =>
    cases a with
    | none => simp [firstFree]
    | some y => simpa [firstFree] using ih

/-- Every other Free slot lies above the lowest one. -/
theorem firstFree_lt {s : State} {q r : Nat} (h : firstFree s.dg = some q) (hr : s.slotAt r = none) (hne : r ≠ q) :
    q < r := by
  refine Nat.lt_of_le_of_ne (Nat.le_of_not_lt fun hlt => ?_) (Ne.symm hne)
  obtain ⟨x, hx⟩ := (firstFree_eq_some.1 h).2 r hlt
  rw [State.slotAt_eq_some.2 hx] at hr
  cases hr

/-- Everything borrowing can do: it takes the lowest Free slot and changes nothing else (20_memory.md R81). -/
theorem State.borrow_eq_some {s t : State} {x : Datagram} {q : Nat} :
    s.borrow x = some (q, t) ↔ firstFree s.dg = some q ∧ t = s.setSlot q (some x) := by
  unfold State.borrow
  cases h : firstFree s.dg with
  | none => simp
  | some p =>
    simp only [Option.some.injEq, Prod.mk.injEq]
    constructor
    · rintro ⟨rfl, rfl⟩
      exact ⟨rfl, rfl⟩
    · rintro ⟨rfl, rfl⟩
      exact ⟨rfl, rfl⟩

/-- Borrowing fails exactly when no slot is Free. -/
theorem State.borrow_eq_none {s : State} {x : Datagram} : s.borrow x = none ↔ firstFree s.dg = none := by
  unfold State.borrow
  cases h : firstFree s.dg <;> simp

/-- The slot a borrow takes was Free and now holds the datagram; every other slot is as before. -/
theorem State.borrow_slotAt {s t : State} {x : Datagram} {q : Nat} (h : s.borrow x = some (q, t)) :
    s.slotAt q = none ∧ t.slotAt q = some x ∧ ∀ r, r ≠ q → t.slotAt r = s.slotAt r := by
  obtain ⟨hf, rfl⟩ := State.borrow_eq_some.1 h
  obtain ⟨h0, -⟩ := firstFree_eq_some.1 hf
  have hq : q < s.dg.length := (List.getElem?_eq_some_iff.1 h0).1
  refine ⟨by simp [State.slotAt, h0], by simp [State.slotAt_setSlot, hq], fun r hr => ?_⟩
  simp [State.slotAt_setSlot, hr]

/-- A slot that was not Free is untouched by a borrow. -/
theorem State.borrow_keeps {s t : State} {x y : Datagram} {q r : Nat} (h : s.borrow x = some (q, t))
    (hr : s.slotAt r = some y) : t.slotAt r = some y := by
  obtain ⟨h0, -, h2⟩ := State.borrow_slotAt h
  rw [h2 r (fun e => by subst e; simp [h0] at hr), hr]

/-- Read after write in the domain table: the buffer of domain `d` and no other. -/
theorem State.setDomBuf_getElem (s : State) (d : Nat) (b : Buf) (i : Nat) :
    (s.setDomBuf d b).dom[i]? = (s.dom[i]?).map (fun x => if i = d then { x with buf := b } else x) := by
  rw [State.setDomBuf_dom, List.getElem?_modify]
  by_cases hi : d = i
  · subst hi
    simp
  · have hi' : ¬ i = d := fun e => hi e.symm
    simp [hi, hi']

/-- The buffer of a field in a state that has its domain (41_domain.md R153). -/
theorem State.fieldBuf_eq {s : State} {f : Field} {x : Domain} (h : s.dom[f.dom]? = some x) : s.fieldBuf f = x.buf := by
  simp [State.fieldBuf, h]

/-! ## Whole-pool operations -/

/-- A slot after an operation that maps every slot. -/
theorem State.slotAt_map {s t : State} {f : Slot → Slot} (h : t.dg = s.dg.map f) (hf : f none = none) (q : Nat) :
    t.slotAt q = f (s.slotAt q) := by
  unfold State.slotAt
  rw [h, List.getElem?_map]
  cases s.dg[q]? <;> simp [hf]

/-- REL, slot by slot (20_memory.md R88). -/
theorem State.rel_slotAt (s : State) (q : Nat) : s.rel.slotAt q = relSlot (s.slotAt q) :=
  State.slotAt_map (s := s) (f := relSlot) rfl rfl q

/-- SEND_ALL, slot by slot (20_memory.md R85). -/
theorem State.sendAll_slotAt (s : State) (q : Nat) : s.sendAll.slotAt q = sendSlot (s.slotAt q) :=
  State.slotAt_map (s := s) (f := sendSlot) rfl rfl q

/-- After `halt` every slot is Free (43_driver_lifecycle.md R225). -/
theorem State.halt_slotAt (s : State) (q : Nat) : s.halt.slotAt q = none :=
  State.slotAt_map (s := s) (f := fun _ => none) rfl rfl q

/-- After `Fatal()` every slot is Free (43_driver_lifecycle.md R228). -/
theorem State.fatalStop_slotAt (s : State) (q : Nat) : s.fatalStop.slotAt q = none := s.halt_slotAt q

end Sys2Proof.Machine
end

