-- ==== Sys2Proof/Laws/Micro.lean ====
section
/-! SUPPORT. What each micro-operation can do, said once: QUEUE_ALL, RECV_ALL, PROCESS_ALL, MBX_OUT, MBX_IN and the two
boundaries of a cycle. -/

namespace Sys2Proof.Machine

/-! ## The pool's free slots -/

/-- How many slots are Free. -/
def freeCount (l : List Slot) : Nat := (l.filter Option.isNone).length

/-- No Free slot: the count is 0. -/
theorem freeCount_eq_zero {l : List Slot} : freeCount l = 0 ↔ firstFree l = none := by
  rw [firstFree_eq_none]
  simp only [freeCount, List.length_eq_zero_iff, List.filter_eq_nil_iff]
  exact forall₂_congr fun x _ => by cases x <;> simp

/-- Taking a Free slot lowers the count by 1. -/
theorem freeCount_set {l : List Slot} {q : Nat} (h : l[q]? = some none) (y : Datagram) :
    freeCount (l.set q (some y)) + 1 = freeCount l := by
  induction l generalizing q with
  | nil => simp at h
  | cons a l ih =>
    cases q with
    | zero =>
      simp only [List.getElem?_cons_zero, Option.some.injEq] at h
      subst h
      simp [freeCount]
    | succ q =>
      have := ih (q := q) (by simpa using h)
      cases a <;> simp_all [freeCount]

/-- No Free slot lies below the lowest one. -/
theorem freeCount_take_firstFree {l : List Slot} {q r : Nat} (h : firstFree l = some q) (hr : r ≤ q) :
    freeCount (l.take r) = 0 := by
  rw [freeCount_eq_zero, firstFree_eq_none]
  intro x hx
  obtain ⟨i, hi, rfl⟩ := List.mem_iff_getElem.1 hx
  rw [List.length_take] at hi
  rw [List.getElem_take]
  obtain ⟨y, hy⟩ := (firstFree_eq_some.1 h).2 i (by omega)
  rw [List.getElem?_eq_getElem (by omega), Option.some.injEq] at hy
  rw [hy]
  simp

/-- Taking a Free slot lowers the count of the Free slots below a later one by 1. -/
theorem freeCount_take_set {l : List Slot} {q r : Nat} (h : l[q]? = some none) (hr : q < r) (y : Datagram) :
    freeCount ((l.set q (some y)).take r) + 1 = freeCount (l.take r) := by
  rw [List.take_set]
  refine freeCount_set ?_ y
  rw [List.getElem?_take_of_lt hr]
  exact h

/-! ## QUEUE_ALL -/

/-- How many domains are valid. -/
def validCount (l : List Domain) : Nat := (l.filter (fun x => x.valid)).length

/-- A valid domain in front raises the count by 1. -/
theorem validCount_cons {x : Domain} (hv : x.valid = true) (xs : List Domain) :
    validCount (x :: xs) = validCount xs + 1 := by simp [validCount, hv]

@[simp] theorem Domain.unlink_dg (x : Domain) (q : Option Nat) : Domain.unlink { x with dg := q } = x.unlink := rfl

/-- `Fatal()` forgets what QUEUE_ALL had done so far. -/
theorem State.fatalStop_queued {s : State} {q d : Nat} {x : Domain} {y : Slot} (hx : s.dom[d]? = some x)
    (r : Option Nat) :
    State.fatalStop { s.setSlot q y with dom := (s.setSlot q y).dom.set d { x with dg := r } } = s.fatalStop := by
  have h1 : (s.dg.set q y).map (fun _ => (none : Slot)) = s.dg.map (fun _ => none) := by
    simp [List.map_const']
  have h2 : (s.dom.set d { x with dg := r }).map Domain.unlink = s.dom.map Domain.unlink := by
    rw [List.map_set, Domain.unlink_dg]
    apply List.ext_getElem? fun i => ?_
    rw [List.getElem?_set]
    split
    · subst_vars
      obtain ⟨hlt, rfl⟩ := List.getElem?_eq_some_iff.1 hx
      simp [hlt]
    · rfl
  simp only [State.fatalStop, State.halt, State.setSlot, h1, h2]

/-- What QUEUE_ALL has done when it ends without `Fatal()`, from domain `d` on. Domain `i` has the Free slot with as many
Free slots below it as there are valid domains before `i`: the lowest one left (20_memory.md R81, 41_domain.md R155). -/
structure Queued (d : Nat) (s t : State) : Prop where
  frame : t = { s with dg := t.dg, dom := t.dom }
  domLength : t.dom.length = s.dom.length
  dgLength : t.dg.length = s.dg.length
  earlier : ∀ i, i < d → t.dom[i]? = s.dom[i]?
  invalid : ∀ i x, d ≤ i → s.dom[i]? = some x → x.valid = false → t.dom[i]? = some x
  linked : ∀ i x, d ≤ i → s.dom[i]? = some x → x.valid = true → ∃ q, t.dom[i]? = some { x with dg := some q } ∧
    s.slotAt q = none ∧ t.slotAt q = some (queuedDatagram i x) ∧
    freeCount (s.dg.take q) = validCount ((s.dom.drop d).take (i - d))
  spare : ∀ q, s.slotAt q = none → validCount (s.dom.drop d) ≤ freeCount (s.dg.take q) → t.slotAt q = none
  kept : ∀ q y, s.slotAt q = some y → t.slotAt q = some y
  fresh : ∀ q y, t.slotAt q = some y → s.slotAt q = none →
    ∃ i x, s.dom[i]? = some x ∧ x.valid = true ∧ y = queuedDatagram i x

/-- Everything the loop of QUEUE_ALL can do (41_domain.md R156): with a Free slot for every valid domain it queues them
all, else it is `Fatal()`. -/
theorem queueLoop_cases (xs : List Domain) : ∀ (d : Nat) (s : State), s.dom.drop d = xs →
    (freeCount s.dg < validCount xs ∧ queueLoop xs d s = s.fatalStop) ∨
    (validCount xs ≤ freeCount s.dg ∧ Queued d s (queueLoop xs d s)) := by
  induction xs with
  | nil =>
    intro d s hd
    have hlen : s.dom.length ≤ d := List.drop_eq_nil_iff.1 hd
    refine .inr ⟨by simp [validCount], rfl, rfl, rfl, fun _ _ => rfl, fun _ _ _ h _ => h, ?_, fun _ h _ => h,
      fun _ _ h => h, ?_⟩
    · intro i x hi hx
      have := (List.getElem?_eq_some_iff.1 hx).1
      omega
    · intro q y h1 h2
      simp [queueLoop, h2] at h1
  | cons x xs ih =>
    intro d s hd
    have hx : s.dom[d]? = some x := by
      have := congrArg (fun l => l[0]?) hd
      simpa using this
    have hxs : s.dom.drop (d + 1) = xs := by
      rw [← List.tail_drop, hd, List.tail_cons]
    have hdl : d < s.dom.length := (List.getElem?_eq_some_iff.1 hx).1
    by_cases hv : x.valid = true
    · rw [queueLoop, if_pos hv]
      cases hb : s.borrow (queuedDatagram d x) with
      | none =>
        have h0 := freeCount_eq_zero.2 (State.borrow_eq_none.1 hb)
        exact .inl ⟨by simp [validCount, hv, h0], rfl⟩
      | some p =>
        obtain ⟨q, s1⟩ := p
        obtain ⟨hf, rfl⟩ := State.borrow_eq_some.1 hb
        obtain ⟨b1, b2, b3⟩ := State.borrow_slotAt hb
        have hfree := freeCount_set (firstFree_eq_some.1 hf).1 (queuedDatagram d x)
        have hq : q < s.dg.length := (List.getElem?_eq_some_iff.1 (firstFree_eq_some.1 hf).1).1
        have hvc := validCount_cons hv xs
        let u : State := { s.setSlot q (some (queuedDatagram d x)) with
          dom := (s.setSlot q (some (queuedDatagram d x))).dom.set d { x with dg := some q } }
        have hu : ∀ r, u.slotAt r = (s.setSlot q (some (queuedDatagram d x))).slotAt r :=
          State.slotAt_congr rfl
        have hud : u.dom.drop (d + 1) = xs := by
          show ((s.dom.set d _).drop (d + 1)) = xs
          rw [List.drop_set_of_lt (by omega)]
          exact hxs
        show _ ∨ (_ ∧ Queued d s (queueLoop xs (d + 1) u))
        rcases ih (d + 1) u hud with ⟨h1, h2⟩ | ⟨h1, h2⟩
        · left
          refine ⟨?_, ?_⟩
          · have : freeCount u.dg = freeCount (s.dg.set q (some (queuedDatagram d x))) := rfl
            omega
          · show queueLoop xs (d + 1) u = _
            rw [h2]
            exact State.fatalStop_queued hx _
        · right
          refine ⟨?_, ?_⟩
          · have : freeCount u.dg = freeCount (s.dg.set q (some (queuedDatagram d x))) := rfl
            omega
          · generalize queueLoop xs (d + 1) u = t at h2
            have hdom : ∀ i, i ≠ d → u.dom[i]? = s.dom[i]? := fun i hi =>
              List.getElem?_set_ne (fun e => hi e.symm)
            refine ⟨?_, ?_, ?_, ?_, ?_, ?_, ?_, ?_, ?_⟩
            · rw [h2.frame]; rfl
            · rw [h2.domLength]; exact List.length_set
            · rw [h2.dgLength]; exact List.length_set
            · intro i hi
              rw [h2.earlier i (by omega), hdom i (by omega)]
            · intro i y hi hy hyv
              have hid : i ≠ d := by
                rintro rfl
                rw [hx] at hy
                cases hy
                simp [hv] at hyv
              exact h2.invalid i y (by omega) (by rw [hdom i hid]; exact hy) hyv
            · intro i y hi hy hyv
              by_cases hid : i = d
              · subst hid
                rw [hx] at hy
                cases hy
                refine ⟨q, ?_, b1, h2.kept _ _ (by rw [hu]; exact b2), ?_⟩
                · rw [h2.earlier i (by omega)]
                  exact List.getElem?_set_self hdl
                · rw [freeCount_take_firstFree hf (Nat.le_refl q), Nat.sub_self]
                  rfl
              · obtain ⟨p, hp1, hp2, hp3, hp4⟩ := h2.linked i y (by omega) (by rw [hdom i hid]; exact hy) hyv
                rw [hu] at hp2
                have hpq : p ≠ q := by
                  rintro rfl
                  rw [b2] at hp2
                  cases hp2
                have hps : s.slotAt p = none := by rw [← b3 p hpq]; exact hp2
                refine ⟨p, hp1, hps, hp3, ?_⟩
                rw [hud] at hp4
                rw [hd, show i - d = (i - (d + 1)) + 1 by omega, List.take_succ_cons, validCount_cons hv, ← hp4]
                exact (freeCount_take_set (firstFree_eq_some.1 hf).1 (firstFree_lt hf hps hpq) _).symm
            · intro p hps hle
              rw [hd, hvc] at hle
              have hqp : q < p := by
                refine Nat.lt_of_not_le fun hle' => ?_
                rw [freeCount_take_firstFree hf hle'] at hle
                omega
              refine h2.spare p (by rw [hu, b3 p (by omega)]; exact hps) ?_
              have : freeCount (u.dg.take p) + 1 = freeCount (s.dg.take p) :=
                freeCount_take_set (firstFree_eq_some.1 hf).1 hqp _
              rw [hud]
              omega
            · intro p y hp
              exact h2.kept p y (by rw [hu]; exact State.borrow_keeps hb hp)
            · intro p y hp hs
              cases hup : u.slotAt p with
              | some z =>
                have := h2.kept p z hup
                rw [hp] at this
                cases this
                by_cases hpq : p = q
                · subst hpq
                  rw [hu, b2] at hup
                  cases hup
                  exact ⟨d, x, hx, hv, rfl⟩
                · rw [hu, b3 p hpq, hs] at hup
                  cases hup
              | none =>
                obtain ⟨i, z, hz, hzv, he⟩ := h2.fresh p y hp hup
                by_cases hid : i = d
                · subst hid
                  have : u.dom[i]? = some { x with dg := some q } := List.getElem?_set_self hdl
                  rw [this] at hz
                  cases hz
                  exact ⟨i, x, hx, hv, he⟩
                · exact ⟨i, z, by rw [← hdom i hid]; exact hz, hzv, he⟩
    · have hv' : x.valid = false := by simpa using hv
      rw [queueLoop, if_neg hv]
      have hvc : validCount (x :: xs) = validCount xs := by simp [validCount, hv']
      rw [hvc]
      refine (ih (d + 1) s hxs).imp id fun ⟨h1, h2⟩ => ⟨h1, ?_⟩
      refine { h2 with
        earlier := fun i hi => h2.earlier i (by omega)
        invalid := ?_, linked := ?_, spare := fun q hq hle => h2.spare q hq (by rwa [hd, hvc, ← hxs] at hle) }
      · intro i y hi hy hyv
        by_cases hid : i = d
        · subst hid; rw [h2.earlier i (by omega)]; exact hy
        · exact h2.invalid i y (by omega) hy hyv
      · intro i y hi hy hyv
        by_cases hid : i = d
        · subst hid
          rw [hx] at hy
          cases hy
          simp [hv'] at hyv
        · obtain ⟨q, h3, h4, h5, h6⟩ := h2.linked i y (by omega) hy hyv
          refine ⟨q, h3, h4, h5, ?_⟩
          rw [h6, hxs, hd, show i - d = (i - (d + 1)) + 1 by omega, List.take_succ_cons]
          simp [validCount, hv']

/-- Everything QUEUE_ALL can do (41_domain.md R156). -/
theorem State.queueAll_cases (s : State) :
    (freeCount s.dg < validCount s.dom ∧ s.queueAll = s.fatalStop) ∨
    (validCount s.dom ≤ freeCount s.dg ∧ Queued 0 s s.queueAll) :=
  queueLoop_cases s.dom 0 s rfl

/-! ## RECV_ALL -/

/-- Everything the loop of RECV_ALL can do to a slot, and when it reports a Lost answer (20_memory.md R86). -/
structure Answered (l : List Slot) (o : Received) : Prop where
  length : o.slots.length = l.length
  completed : ∀ (q : Nat) (x : Datagram), l[q]? = some (some x) → x.st = .inFlight →
    ∃ w n, o.slots[q]? = some (some (completeSlot w n x))
  kept : ∀ q : Nat, (∀ x : Datagram, l[q]? = some (some x) → x.st ≠ .inFlight) → o.slots[q]? = l[q]?
  lost : o.lost = true ↔ ∃ (q : Nat) (x y : Datagram),
    l[q]? = some (some x) ∧ x.st = .inFlight ∧ o.slots[q]? = some (some y) ∧ y.status = .lost

/-- What a completed slot is. -/
theorem completeSlot_status_lost (w : List WireAnswer) (n : Nat) (x : Datagram) :
    (completeSlot w n x).status = .lost ↔ answerStatus w n = .lost := by
  simp only [completeSlot]
  cases answerStatus w n <;> simp [statusOfWire]

@[simp] theorem answerBytes_length (w : List WireAnswer) (n len : Nat) : (answerBytes w n len).length = len := by
  simp [answerBytes]

@[simp] theorem completeSlot_len (w : List WireAnswer) (n : Nat) (x : Datagram) :
    (completeSlot w n x).data.len = x.data.len := by simp [completeSlot]

/-- The loop of RECV_ALL (20_memory.md R86). -/
theorem recvLoop_answered (l : List Slot) : ∀ (w : List WireAnswer) (n : Nat), Answered l (recvLoop l w n) := by
  induction l with
  | nil =>
    intro w n
    exact ⟨rfl, fun q x h => by simp at h, fun _ _ => rfl, by simp [recvLoop]⟩
  | cons a l ih =>
    intro w n
    cases a with
    | none =>
      have h := ih w n
      refine ⟨by simp [recvLoop, h.length], ?_, ?_, ?_⟩
      · intro q x hq hx
        cases q with
        | zero => simp at hq
        | succ q => simpa [recvLoop] using h.completed q x (by simpa using hq) hx
      · intro q hq
        cases q with
        | zero => rfl
        | succ q => simpa [recvLoop] using h.kept q (fun x hx => hq x (by simpa using hx))
      · rw [show (recvLoop (none :: l) w n).lost = (recvLoop l w n).lost from rfl, h.lost]
        constructor
        · rintro ⟨q, x, y, h1, h2, h3, h4⟩
          exact ⟨q + 1, x, y, by simpa using h1, h2, by simpa [recvLoop] using h3, h4⟩
        · rintro ⟨q, x, y, h1, h2, h3, h4⟩
          cases q with
          | zero => simp at h1
          | succ q => exact ⟨q, x, y, by simpa using h1, h2, by simpa [recvLoop] using h3, h4⟩
    | some z =>
      by_cases hz : z.st = .inFlight
      · have h := ih w.tail (n + 1)
        have e : recvLoop (some z :: l) w n =
            { recvLoop l w.tail (n + 1) with
              slots := some (completeSlot w n z) :: (recvLoop l w.tail (n + 1)).slots
              lost := decide (answerStatus w n = .lost) || (recvLoop l w.tail (n + 1)).lost } := by
          simp [recvLoop, hz]
        rw [e]
        refine ⟨by simp [h.length], ?_, ?_, ?_⟩
        · intro q x hq hx
          cases q with
          | zero =>
            simp only [List.getElem?_cons_zero, Option.some.injEq] at hq
            subst hq
            exact ⟨w, n, rfl⟩
          | succ q => simpa using h.completed q x (by simpa using hq) hx
        · intro q hq
          cases q with
          | zero => exact absurd hz (hq z (by simp))
          | succ q => simpa using h.kept q (fun x hx => hq x (by simpa using hx))
        · simp only [Bool.or_eq_true, decide_eq_true_eq, h.lost]
          constructor
          · rintro (hl | ⟨q, x, y, h1, h2, h3, h4⟩)
            · exact ⟨0, z, completeSlot w n z, rfl, hz, rfl, (completeSlot_status_lost w n z).2 hl⟩
            · exact ⟨q + 1, x, y, by simpa using h1, h2, by simpa using h3, h4⟩
          · rintro ⟨q, x, y, h1, h2, h3, h4⟩
            cases q with
            | zero =>
              simp only [List.getElem?_cons_zero, Option.some.injEq] at h1 h3
              subst h3
              exact .inl ((completeSlot_status_lost w n z).1 h4)
            | succ q => exact .inr ⟨q, x, y, by simpa using h1, h2, by simpa using h3, h4⟩
      · have h := ih w n
        have e : recvLoop (some z :: l) w n =
            { recvLoop l w n with slots := some z :: (recvLoop l w n).slots } := by
          simp [recvLoop, hz]
        rw [e]
        refine ⟨by simp [h.length], ?_, ?_, ?_⟩
        · intro q x hq hx
          cases q with
          | zero =>
            simp only [List.getElem?_cons_zero, Option.some.injEq] at hq
            subst hq
            exact absurd hx hz
          | succ q => simpa using h.completed q x (by simpa using hq) hx
        · intro q hq
          cases q with
          | zero => rfl
          | succ q => simpa using h.kept q (fun x hx => hq x (by simpa using hx))
        · rw [h.lost]
          constructor
          · rintro ⟨q, x, y, h1, h2, h3, h4⟩
            exact ⟨q + 1, x, y, by simpa using h1, h2, by simpa using h3, h4⟩
          · rintro ⟨q, x, y, h1, h2, h3, h4⟩
            cases q with
            | zero =>
              simp only [List.getElem?_cons_zero, Option.some.injEq] at h1
              subst h1
              exact absurd h2 hz
            | succ q => exact ⟨q, x, y, by simpa using h1, h2, by simpa using h3, h4⟩

/-- A slot after RECV_ALL: completed when it was in flight, else as it was (20_memory.md R86). -/
theorem State.recvAll_slotAt (s : State) (q : Nat) :
    (∃ x w n, s.slotAt q = some x ∧ x.st = .inFlight ∧ s.recvAll.slotAt q = some (completeSlot w n x)) ∨
    ((∀ x, s.slotAt q = some x → x.st ≠ .inFlight) ∧ s.recvAll.slotAt q = s.slotAt q) := by
  have h := recvLoop_answered s.dg s.wire s.draws
  by_cases hq : ∃ x, s.slotAt q = some x ∧ x.st = .inFlight
  · obtain ⟨x, hx, hf⟩ := hq
    obtain ⟨w, n, hc⟩ := h.completed q x (State.slotAt_eq_some.1 hx) hf
    exact .inl ⟨x, w, n, hx, hf, State.slotAt_eq_some.2 hc⟩
  · refine .inr ⟨fun x hx hf => hq ⟨x, hx, hf⟩, ?_⟩
    have := h.kept q fun x hx hf => hq ⟨x, State.slotAt_eq_some.2 hx, hf⟩
    unfold State.slotAt
    rw [show s.recvAll.dg = (recvLoop s.dg s.wire s.draws).slots from rfl, this]

/-! ## PROCESS_ALL -/

/-- A domain after PROCESS_ALL (41_domain.md R157). -/
theorem State.processAll_getElem (s : State) (d : Nat) :
    s.processAll.dom[d]? = (s.dom[d]?).map (fun x => if x.valid then processDomain s x else x) := by
  simp [State.processAll]

/-- Everything PROCESS_ALL can do to one domain (41_domain.md R157). -/
theorem processDomain_cases (s : State) (x : Domain) :
    (processDomain s x = x ∧ ∀ q, x.dg = some q → s.doneAt q = none) ∨
    ∃ q y, x.dg = some q ∧ s.doneAt q = some y ∧
      ((y.status = .ok ∧ processDomain s x = { x with buf := x.buf.copyInto y.data, wstate := .ok, dg := none }) ∨
       (y.status ≠ .ok ∧ processDomain s x = { x with wstate := .fail, dg := none })) := by
  unfold processDomain
  split
  · rename_i h
    exact .inl ⟨rfl, fun q hq => by rw [h] at hq; cases hq⟩
  · rename_i q h
    split
    · rename_i hd
      exact .inl ⟨rfl, fun r hr => by rw [h] at hr; cases hr; exact hd⟩
    · rename_i y hd
      refine .inr ⟨q, y, h, hd, ?_⟩
      by_cases hy : y.status = .ok
      · exact .inl ⟨hy, by rw [if_pos hy]⟩
      · exact .inr ⟨hy, by rw [if_neg hy]⟩

/-! ## MBX_OUT and MBX_IN -/

/-- Everything MBX_OUT can do (42_scheduler.md R186): nothing, `Fatal()`, or a read of the sequencer in the lowest Free
slot, which it then waits for. -/
theorem State.mbxOut_cases (s : State) :
    s.mbxOut = s ∨ (firstFree s.dg = none ∧ s.mbxOut = s.fatalStop) ∨
    ∃ q station offset len next, firstFree s.dg = some q ∧ (len = 8 ∨ len = s.mxSlave.txSize.toNat) ∧
      (s.mx.st = .pollReady ∧ next = .pollWait ∨ s.mx.st = .fetchReady ∧ next = .fetchWait) ∧
      s.mbxOut = { s with
        dg := s.dg.set q (some (readDatagram station offset len .seq (some s.mx.slave)))
        mx := { s.mx with dg := q, st := next } } := by
  unfold State.mbxOut
  split
  · rename_i h
    unfold State.mxIssue State.borrow
    cases hf : firstFree s.dg with
    | none => exact .inr (.inl ⟨rfl, rfl⟩)
    | some q => exact .inr (.inr ⟨q, _, _, _, _, rfl, .inl rfl, .inl ⟨h, rfl⟩, rfl⟩)
  · rename_i h
    unfold State.mxIssue State.borrow
    cases hf : firstFree s.dg with
    | none => exact .inr (.inl ⟨rfl, rfl⟩)
    | some q => exact .inr (.inr ⟨q, _, _, _, _, rfl, .inr rfl, .inr ⟨h, rfl⟩, rfl⟩)
  all_goals exact .inl rfl

/-- What MBX_IN can make of the sequencer `m` with the answer `x` (42_scheduler.md R190, R191). -/
structure Progressed (m : Sequencer) (x : Datagram) (m' : Sequencer) : Prop where
  settled : m'.st.waiting = false
  slave : m'.slave = m.slave
  dg : m'.dg = m.dg
  rbuf : m'.rbuf = m.rbuf ∨ ∃ n, m'.rbuf = m.rbuf.blit x.data 6 n
  notIdle : m'.st ≠ .idle

/-- Everything MBX_IN can do (42_scheduler.md R190): nothing, or a move of the sequencer and at most a log entry. -/
theorem State.mbxIn_cases (s : State) :
    (s.mbxIn = s ∧ (s.mx.st.waiting = true → s.doneAt s.mx.dg = none)) ∨
    ∃ x m lg, s.mx.st.waiting = true ∧ s.doneAt s.mx.dg = some x ∧ Progressed s.mx x m ∧
      s.mbxIn = { s with mx := m, log := lg } := by
  by_cases hw : s.mx.st.waiting = true
  · cases hd : s.doneAt s.mx.dg with
    | none => exact .inl ⟨by simp [State.mbxIn, hw, hd], fun _ => rfl⟩
    | some x =>
      refine .inr ⟨x, ?_⟩
      have e : s.mbxIn = if x.status.failed then { s with mx := s.mx.finish (errNumber .transportFailure) }
          else s.mxAnswered x := by simp [State.mbxIn, hw, hd]
      rw [e]
      split
      · refine ⟨_, s.log, hw, rfl, ?_, rfl⟩
        exact ⟨rfl, rfl, rfl, .inl rfl, by simp [Sequencer.finish]⟩
      · cases hst : s.mx.st with
        | idle => simp [hst, MxState.waiting] at hw
        | pollReady => simp [hst, MxState.waiting] at hw
        | fetchReady => simp [hst, MxState.waiting] at hw
        | done => simp [hst, MxState.waiting] at hw
        | sendWait =>
          refine ⟨{ s.mx with st := .pollReady }, s.log, rfl, rfl, ?_, by simp only [State.mxAnswered, hst]⟩
          exact ⟨rfl, rfl, rfl, .inl rfl, by simp⟩
        | pollWait =>
          refine ⟨s.mx.polled x, s.log, rfl, rfl, ?_, by simp only [State.mxAnswered, hst]⟩
          unfold Sequencer.polled
          split
          · exact ⟨rfl, rfl, rfl, .inl rfl, by simp⟩
          · split <;> exact ⟨rfl, rfl, rfl, .inl rfl, by simp [Sequencer.finish]⟩
        | fetchWait =>
          have e2 : s.mxAnswered x = s.mxFetched x := by simp only [State.mxAnswered, hst]
          rw [e2]
          unfold State.mxFetched
          split
          · refine ⟨_, _, rfl, rfl, ?_, rfl⟩
            exact ⟨rfl, rfl, rfl, .inl rfl, by simp [Sequencer.finish]⟩
          · refine ⟨_, s.log, rfl, rfl, ?_, rfl⟩
            exact ⟨rfl, rfl, rfl, .inl rfl, by simp [Sequencer.finish]⟩
          · refine ⟨_, _, rfl, rfl, ?_, rfl⟩
            exact ⟨rfl, rfl, rfl, .inl rfl, by simp [Sequencer.finish]⟩
          · refine ⟨_, s.log, rfl, rfl, ?_, rfl⟩
            exact ⟨rfl, rfl, rfl, .inr ⟨_, rfl⟩, by simp [Sequencer.finish]⟩
  · exact .inl ⟨by simp [State.mbxIn, hw], fun h => absurd h hw⟩

/-- The cases of `fetch_decode` that deliver a payload: it fits the mailbox and the buffer (40_mailbox.md R130). -/
theorem fetchDecode_data {txSize : Nat} {b : Buf} {t : BitVec 4} {n : Half} (h : fetchDecode txSize b = .data t n) :
    n.toNat + 6 ≤ txSize ∧ 6 + n.toNat ≤ b.len := by
  unfold fetchDecode at h
  split at h
  · cases h
  split at h
  · cases h
  split at h
  · cases h
  split at h
  · split at h <;> cases h
  split at h
  · cases h
  · cases h
    omega

end Sys2Proof.Machine
end

