-- ==== Sys2Proof/Laws/Cycle.lean ====
section
/-! SUPPORT. The boundaries of a cycle: the time base, FWD, `end_cycle` and the start of the next cycle. -/

namespace Sys2Proof.Machine

/-! ## Time -/

/-- The telemetry value of a time, as a natural (43_driver_lifecycle.md R214; log 5). -/
theorem State.sinceStart_toNat (s : State) : s.sinceStart.toNat = min (s.now - s.t0) (2 ^ 32 - 1) := by
  unfold State.sinceStart toWord
  rw [BitVec.toNat_ofNat]
  exact Nat.mod_eq_of_lt (by omega)

/-- Later is not less. -/
theorem State.sinceStart_mono {s t : State} (h0 : t.t0 = s.t0) (hn : s.now ≤ t.now) : s.sinceStart ≤ t.sinceStart := by
  rw [BitVec.le_def, State.sinceStart_toNat, State.sinceStart_toNat, h0]
  omega

/-- Reading the time base never moves it back. -/
theorem State.readTime_sinceStart (s : State) : s.sinceStart ≤ s.readTime.sinceStart :=
  State.sinceStart_mono rfl (Nat.le_add_right _ _)

/-- T_PRE of a new cycle is the time since its start (42_scheduler.md R172). -/
theorem State.startCycle_tPre (s : State) : s.startCycle.tPre = s.startCycle.sinceStart := rfl

/-- The new cycle's start is not past the time base. -/
theorem State.startCycle_t0_le (s : State) : s.startCycle.t0 ≤ s.startCycle.now := by
  simp [State.startCycle, State.readTime]

/-! ## FWD and the end of a cycle -/

/-- TICKCNT after FWD, as a natural (43_driver_lifecycle.md R213). -/
theorem State.fwd_tickcnt_toNat (s : State) :
    s.fwd.tickcnt.toNat = if s.kdiv.toNat ≤ s.tickcnt.toNat + 1 then 0 else s.tickcnt.toNat + 1 := by
  have hk : s.kdiv.toNat < 2 ^ 32 := s.kdiv.isLt
  simp only [State.fwd, State.ratioReached, decide_eq_true_eq]
  split
  · rfl
  · simp only [toWord, BitVec.toNat_ofNat]
    exact Nat.mod_eq_of_lt (by omega)

/-- The host ticks after FWD (43_driver_lifecycle.md R213). -/
theorem State.fwd_hostTicks (s : State) :
    s.fwd.hostTicks = if s.kdiv.toNat ≤ s.tickcnt.toNat + 1 then s.hostTicks + 1 else s.hostTicks := by
  simp only [State.fwd, State.ratioReached, decide_eq_true_eq]

/-- FWD keeps TICKCNT below K (10_state.md R60 (d)). -/
theorem State.fwd_tickcnt_lt {s : State} (h : 1 ≤ s.kdiv.toNat) : s.fwd.tickcnt.toNat < s.fwd.kdiv.toNat := by
  rw [State.fwd_tickcnt_toNat, State.fwd_kdiv]
  split <;> omega

/-- The state between two cycles: timing and FWD done, Idle, no tick pending (42_scheduler.md R179). -/
def State.between (s : State) : State := { s.finishTiming.fwd with phase := .idle, todo := [], tickpend := false }

/-- Everything `end_cycle` can do: with a tick pending it starts the next cycle (42_scheduler.md R179). -/
theorem State.endCycle_eq (s : State) : s.endCycle = if s.tickpend then s.between.startCycle else s.between := by
  cases h : s.tickpend <;> simp [State.endCycle, State.between, h]

/-- FWD runs once in `end_cycle`, and the cycle it may start touches neither its count nor the host ticks. -/
theorem State.endCycle_tickcnt (s : State) : s.endCycle.tickcnt = s.fwd.tickcnt := by
  rw [State.endCycle_eq]
  split <;> rfl

theorem State.endCycle_hostTicks (s : State) : s.endCycle.hostTicks = s.fwd.hostTicks := by
  rw [State.endCycle_eq]
  split <;> rfl

/-- The end of a cycle does not depend on what is left to run. -/
theorem State.endCycle_todo (s : State) (rest : List MicroOp) : State.endCycle { s with todo := rest } = s.endCycle := by
  have h : State.between { s with todo := rest } = s.between := rfl
  rw [State.endCycle_eq, State.endCycle_eq, h]

/-- Everything a tick can do (43_driver_lifecycle.md R210, R211). -/
theorem State.tick_cases (s : State) :
    (s.life ≠ .active ∧ s.tick = s) ∨ (s.life = .active ∧ s.phase = .idle ∧ s.tick = s.startCycle) ∨
    (s.life = .active ∧ s.phase ≠ .idle ∧ ∃ p, s.tick = { s with tickpend := p, ovr := true }) := by
  unfold State.tick
  by_cases h1 : s.life = .active
  · by_cases h2 : s.phase = .idle
    · simp [h1, h2]
    · by_cases h3 : s.tickpend = false
      · exact .inr (.inr ⟨h1, h2, true, by simp [h1, h2, h3]⟩)
      · exact .inr (.inr ⟨h1, h2, s.tickpend, by simp [h1, h2, h3]⟩)
  · simp [h1]

/-- Everything APP_DONE does in the App window (42_scheduler.md R178). -/
theorem State.closeWindow_cases (s : State) :
    (s.strategy = .sync ∧ s.closeWindow = s.endCycle) ∨
    (s.strategy = .async ∧ s.closeWindow = { s with phase := .sending, todo := closingProgram }) := by
  unfold State.closeWindow
  cases h : s.strategy <;> simp

end Sys2Proof.Machine
end

