-- ==== Sys2Proof/Laws/Commands.lean ====
section
/-! SUPPORT. What every command can do, said once: it fails and writes ERR, or it has one of the effects listed here. -/

namespace Sys2Proof.Machine

/-! ## The word each error leaves in ERR (60_exceptions.md R240, 10_state.md R27) -/

@[simp] theorem failCommand_unsupportedMailbox (s : State) : failCommand s .unsupportedMailbox = failsWith s 1 := rfl
@[simp] theorem failCommand_payloadTooLarge (s : State) : failCommand s .payloadTooLarge = failsWith s 2 := rfl
@[simp] theorem failCommand_corruptMailboxFrame (s : State) : failCommand s .corruptMailboxFrame = failsWith s 3 := rfl
@[simp] theorem failCommand_domainAlreadyActive (s : State) : failCommand s .domainAlreadyActive = failsWith s 7 := rfl
@[simp] theorem failCommand_transportExhausted (s : State) : failCommand s .transportExhausted = failsWith s 9 := rfl
@[simp] theorem failCommand_badState (s : State) : failCommand s .badState = failsWith s 10 := rfl
@[simp] theorem failCommand_badIndex (s : State) : failCommand s .badIndex = failsWith s 11 := rfl
@[simp] theorem failCommand_badOperand (s : State) : failCommand s .badOperand = failsWith s 12 := rfl
@[simp] theorem failCommand_bufferBounds (s : State) : failCommand s .bufferBounds = failsWith s 13 := rfl
@[simp] theorem failCommand_busy (s : State) : failCommand s .busy = failsWith s 14 := rfl
@[simp] theorem failCommand_illegalCommand (s : State) : failCommand s .illegalCommand = failsWith s 15 := rfl
@[simp] theorem failCommand_tableFull (s : State) : failCommand s .tableFull = failsWith s 16 := rfl

/-! ## What a command can do -/

/-- The effect of a command that got past its tests, with what those tests showed. ERR is left out: it is written last
(10_state.md R27). -/
inductive Effect : Instr → State → State → Prop
  | acquire (s : State) (h : s.life = .released) : Effect .acquire s { s.clearSession with life := .configuring }
  | slaveSet (i : Nat) (station : Half) (s : State) (hl : s.life = .configuring) (hi : i < s.nslave)
      (hr : (highHalf s.a1).toNat ≤ s.par.dgmax) (ht : (highHalf s.a2).toNat ≤ s.par.dgmax) :
      Effect (.slaveSet i station) s { s with slv := s.slv.set i (slaveOperand s station) }
  | activate (σ : Strategy) (s : State) (hl : s.life = .configuring) (hf : s.fatal = false) (ha : s.a0 ≠ 0) :
      Effect (.activate σ) s (s.activated σ)
  | deactivate (s : State) (hl : s.life = .active) : Effect .deactivate s s.halt
  | release (s : State) (hl : s.life = .configuring) : Effect .release s { s.clearTables with life := .released }
  | appDone (s : State) (hl : s.life = .active) (hp : s.phase = .app) : Effect .appDone s s.closeWindow
  | mbxPrepSend (v size : Nat) (s : State) (e : Slave) (q : Nat) (r0 r1 r2 : Word) (hl : s.life = .active)
      (he : s.slaveAt v = some e) (hp : e.protocols ≠ 0) (hs : size + 6 ≤ e.rxSize.toNat)
      (hq : firstFree s.dg = some q) (h0 : r0 = toWord q) (h1 : r1 = 6) (h2 : r2 = toWord (e.rxSize.toNat - 6)) :
      Effect (.mbxPrepSend v size) s
        { s.setSlot q (some (requestDatagram e v size (byte0 s.a0))) with r0 := r0, r1 := r1, r2 := r2 }
  | mbxPrepCheck (v : Nat) (s : State) (e : Slave) (q : Nat) (hl : s.life = .active) (he : s.slaveAt v = some e)
      (hq : firstFree s.dg = some q) :
      Effect (.mbxPrepCheck v) s { s.setSlot q (some (s.pollDatagram e .host v)) with r0 := toWord q }
  | mbxCheck (q : Nat) (s : State) (x : Datagram) (hl : s.life = .active) (hx : s.doneAt q = some x)
      (hb : 6 ≤ x.data.len) :
      Effect (.mbxCheck q) s { s with r0 := (BitVec.ofBool (mbxReady x.data)).setWidth 32 }
  | mbxPrepFetch (v : Nat) (s : State) (e : Slave) (q : Nat) (hl : s.life = .active) (he : s.slaveAt v = some e)
      (hq : firstFree s.dg = some q) :
      Effect (.mbxPrepFetch v) s { s.setSlot q (some (fetchDatagram e .host v)) with r0 := toWord q }
  | mbxFetch (q v : Nat) (s : State) (e : Slave) (x : Datagram) (t : BitVec 4) (n : Half) (hl : s.life = .active)
      (he : s.slaveAt v = some e) (hx : s.doneAt q = some x)
      (hd : fetchDecode e.txSize.toNat x.data = .data t n) :
      Effect (.mbxFetch q v) s { s with r0 := t.setWidth 32, r1 := 6, r2 := n.setWidth 32 }
  | mbxXfer (q budget : Nat) (s : State) (x : Datagram) (v : Nat) (hl : s.life = .active) (hm : s.mx.st = .idle)
      (hx : s.slotAt q = some x) (hv : x.slv = some v) (hw : x.hostWritable = true) (hb : budget ≠ 0) :
      Effect (.mbxXfer q budget) s (s.handOver q x v budget)
  | mbxXstat (s : State) (hl : s.life = .active) :
      Effect .mbxXstat s { s with
        r0 := (mxCode s.mx.st).setWidth 32, r1 := xstatCodeWord s.mx, r2 := xstatLengthWord s.mx
        r3 := s.mx.rerr.setWidth 32 }
  | mbxXrd (i : Nat) (s : State) (hl : s.life = .active) (hd : s.mx.st = .done) (hr : s.mx.rcode = 0)
      (hi : i < s.mx.rlen.toNat) : Effect (.mbxXrd i) s { s with r0 := (s.mx.rbuf.get i).setWidth 32 }
  | mbxXclr (s : State) (hl : s.life = .active) (hd : s.mx.st = .done) :
      Effect .mbxXclr s { s with mx := { s.mx with st := .idle } }
  | domCreate (d size : Nat) (s : State) (x : Domain) (hl : s.life = .configuring) (hx : s.dom[d]? = some x)
      (hv : x.valid = false) (h1 : 1 ≤ size) (h2 : size ≤ s.par.dgmax) :
      Effect (.domCreate d size) s { s with dom := s.dom.set d (freshDomain size s.a0) }
  | domRegField (d off : Nat) (s : State) (x : Domain) (e : Slave) (hl : s.life = .configuring)
      (hx : s.domainAt d = some x) (he : s.slaveAt (fieldSlave s) = some e) (hw : legalWidth (fieldWidth s) = true)
      (ho : off + fieldWidth s ≤ x.buf.len) (hn : s.fldcnt < s.nfield) :
      Effect (.domRegField d off) s { s with
        fld := s.fld.set s.fldcnt (fieldOperand s d off), fldcnt := s.fldcnt + 1, r0 := toWord s.fldcnt }
  | fldRd (h : Nat) (s : State) (f : Field) (n : Nat) (hl : s.life = .active) (hp : s.phase = .app)
      (hf : s.fieldAt h = some f) (hr : (s.fieldBuf f).memRead f.off f.width = some n) :
      Effect (.fldRd h) s { s with r0 := toWord n }
  | fldWr (h : Nat) (s : State) (f : Field) (b : Buf) (hl : s.life = .active) (hp : s.phase = .app)
      (hf : s.fieldAt h = some f) (hr : (s.fieldBuf f).memWrite f.off f.width s.a0 = some b) :
      Effect (.fldWr h) s (s.setDomBuf f.dom b)
  | dgRd (q i : Nat) (s : State) (x : Datagram) (hl : s.life = .active) (hx : s.slotAt q = some x)
      (hi : i < x.data.len) : Effect (.dgRd q i) s { s with r0 := (x.data.get i).setWidth 32 }
  | dgWr (q i : Nat) (s : State) (x : Datagram) (hl : s.life = .active) (hx : s.slotAt q = some x)
      (hw : x.hostWritable = true) (h6 : 6 ≤ i) (hi : i < x.data.len) :
      Effect (.dgWr q i) s (s.setSlot q (some { x with data := x.data.set i (byte0 s.a0) }))
  | dgStat (q : Nat) (s : State) (r0 r1 r2 r3 : Word) (hl : s.life = .active) (hq : q < s.ndg) :
      Effect (.dgStat q) s { s with r0 := r0, r1 := r1, r2 := r2, r3 := r3 }

/-- The three ways a command ends with an error (60_exceptions.md R245, R246): nothing but ERR changes, or MBX_FETCH has
logged a report, or no slot was Free and the block has stopped. -/
inductive Failed : Instr → State → State → Prop
  | plain (i : Instr) (s : State) (e : Err) : Failed i s (s.raise e)
  | corrupt (q v : Nat) (s : State) (l : LogEvent) (hl : s.life = .active) :
      Failed (.mbxFetch q v) s ((s.addLog l).raise .corruptMailboxFrame)
  | reply (q v : Nat) (s : State) (l : LogEvent) (k : Bool) (c : Half) (hl : s.life = .active) :
      Failed (.mbxFetch q v) s ((s.addLog l).raiseWith .mailboxErrorReply k c)
  | exhausted (i : Instr) (s : State) (hl : s.life = .active) (hf : firstFree s.dg = none) :
      Failed i s (s.fatalStop.raise .transportExhausted)

/-- Every command is total: it fails, or it has its effect and ERR is 0 (60_exceptions.md R246, 10_state.md R27). -/
inductive Ends (i : Instr) (s : State) (o : Host.Outcome State Fault Refusal) : Prop
  | fails (t : State) (h : Failed i s t) (ho : o = .next t) : Ends i s o
  | succeeds (t : State) (h : Effect i s t) (ho : o = .next t.succeed) : Ends i s o

/-- `raise E` ends a command. -/
theorem Ends.raise (i : Instr) (s : State) (e : Err) : Ends i s (failCommand s e) := .fails _ (.plain i s e) rfl

/-- A legal life. -/
theorem life_active_of_not {s : State} (h : ¬ s.life ≠ .active) : s.life = .active := by simpa using h

theorem execAcquire_ends (s : State) : Ends .acquire s (execAcquire s) := by
  unfold execAcquire
  split
  · exact Ends.raise _ _ _
  · rename_i h
    exact .succeeds _ (.acquire s (by simpa using h)) rfl

theorem execSlaveSet_ends (n : Nat) (station : Half) (s : State) :
    Ends (.slaveSet n station) s (execSlaveSet n station s) := by
  unfold execSlaveSet
  split
  · exact Ends.raise _ _ _
  split
  · exact Ends.raise _ _ _
  split
  · exact Ends.raise _ _ _
  · rename_i h1 h2 h3
    exact .succeeds _ (.slaveSet n station s (by simpa using h1) (by omega) (by omega) (by omega)) rfl

theorem execActivate_ends (σ : Strategy) (s : State) : Ends (.activate σ) s (execActivate σ s) := by
  unfold execActivate
  split
  · exact Ends.raise _ _ _
  split
  · exact Ends.raise _ _ _
  · rename_i h1 h2
    simp only [not_or, ne_eq, Decidable.not_not, Bool.not_eq_true] at h1
    exact .succeeds _ (.activate σ s h1.1 h1.2 h2) rfl

theorem execDeactivate_ends (s : State) : Ends .deactivate s (execDeactivate s) := by
  unfold execDeactivate
  split
  · exact Ends.raise _ _ _
  · rename_i h
    exact .succeeds _ (.deactivate s (by simpa using h)) rfl

theorem execRelease_ends (s : State) : Ends .release s (execRelease s) := by
  unfold execRelease
  split
  · exact Ends.raise _ _ _
  · rename_i h
    exact .succeeds _ (.release s (by simpa using h)) rfl

theorem execAppDone_ends (s : State) : Ends .appDone s (execAppDone s) := by
  unfold execAppDone
  split
  · exact Ends.raise _ _ _
  · rename_i h
    simp only [not_or, ne_eq, Decidable.not_not] at h
    exact .succeeds _ (.appDone s h.1 h.2) rfl

theorem execMbxPrepSend_ends (v size : Nat) (s : State) : Ends (.mbxPrepSend v size) s (execMbxPrepSend v size s) := by
  unfold execMbxPrepSend
  split
  · exact Ends.raise _ _ _
  rename_i h1
  split
  · exact Ends.raise _ _ _
  rename_i e he
  split
  · exact Ends.raise _ _ _
  split
  · exact Ends.raise _ _ _
  rename_i h2 h3
  split
  · rename_i hb
    exact .fails _ (.exhausted _ s (life_active_of_not h1) (State.borrow_eq_none.1 hb)) rfl
  · rename_i q s1 hb
    obtain ⟨hq, rfl⟩ := State.borrow_eq_some.1 hb
    exact .succeeds _ (.mbxPrepSend v size s e q _ _ _ (life_active_of_not h1) he h2 (by omega) hq rfl rfl rfl) rfl

theorem execMbxPrepCheck_ends (v : Nat) (s : State) : Ends (.mbxPrepCheck v) s (execMbxPrepCheck v s) := by
  unfold execMbxPrepCheck
  split
  · exact Ends.raise _ _ _
  rename_i h1
  split
  · exact Ends.raise _ _ _
  rename_i e he
  unfold prepareRead
  split
  · rename_i hb
    exact .fails _ (.exhausted _ s (life_active_of_not h1) (State.borrow_eq_none.1 hb)) rfl
  · rename_i q s1 hb
    obtain ⟨hq, rfl⟩ := State.borrow_eq_some.1 hb
    exact .succeeds _ (.mbxPrepCheck v s e q (life_active_of_not h1) he hq) rfl

theorem execMbxCheck_ends (q : Nat) (s : State) : Ends (.mbxCheck q) s (execMbxCheck q s) := by
  unfold execMbxCheck
  split
  · exact Ends.raise _ _ _
  rename_i h1
  split
  · exact Ends.raise _ _ _
  split
  · exact Ends.raise _ _ _
  rename_i x hx
  split
  · exact Ends.raise _ _ _
  · exact .succeeds _ (.mbxCheck q s x (life_active_of_not h1) hx (by omega)) rfl

theorem execMbxPrepFetch_ends (v : Nat) (s : State) : Ends (.mbxPrepFetch v) s (execMbxPrepFetch v s) := by
  unfold execMbxPrepFetch
  split
  · exact Ends.raise _ _ _
  rename_i h1
  split
  · exact Ends.raise _ _ _
  rename_i e he
  unfold prepareRead
  split
  · rename_i hb
    exact .fails _ (.exhausted _ s (life_active_of_not h1) (State.borrow_eq_none.1 hb)) rfl
  · rename_i q s1 hb
    obtain ⟨hq, rfl⟩ := State.borrow_eq_some.1 hb
    exact .succeeds _ (.mbxPrepFetch v s e q (life_active_of_not h1) he hq) rfl

theorem execMbxFetch_ends (q v : Nat) (s : State) : Ends (.mbxFetch q v) s (execMbxFetch q v s) := by
  unfold execMbxFetch
  split
  · exact Ends.raise _ _ _
  rename_i h1
  split
  · exact Ends.raise _ _ _
  split
  · exact Ends.raise _ _ _
  rename_i e he
  split
  · exact Ends.raise _ _ _
  rename_i x hx
  unfold fetchOutcome
  split
  · exact .fails _ (.corrupt q v s _ (life_active_of_not h1)) rfl
  · exact Ends.raise _ _ _
  · exact .fails _ (.reply q v s _ _ _ (life_active_of_not h1)) rfl
  · rename_i t n hd
    exact .succeeds _ (.mbxFetch q v s e x t n (life_active_of_not h1) he hx hd) rfl

theorem execMbxXfer_ends (q budget : Nat) (s : State) : Ends (.mbxXfer q budget) s (execMbxXfer q budget s) := by
  unfold execMbxXfer
  split
  · exact Ends.raise _ _ _
  rename_i h1
  split
  · exact Ends.raise _ _ _
  split
  · exact Ends.raise _ _ _
  rename_i h2
  split
  · exact Ends.raise _ _ _
  rename_i x hx
  split
  · exact Ends.raise _ _ _
  rename_i v hv
  split
  · exact Ends.raise _ _ _
  split
  · exact Ends.raise _ _ _
  · rename_i h3 h4
    exact .succeeds _ (.mbxXfer q budget s x v (life_active_of_not h1) (by simpa using h2) hx hv (by simpa using h3) h4)
      rfl

theorem execMbxXstat_ends (s : State) : Ends .mbxXstat s (execMbxXstat s) := by
  unfold execMbxXstat
  split
  · exact Ends.raise _ _ _
  · rename_i h
    exact .succeeds _ (.mbxXstat s (life_active_of_not h)) rfl

theorem execMbxXrd_ends (n : Nat) (s : State) : Ends (.mbxXrd n) s (execMbxXrd n s) := by
  unfold execMbxXrd
  split
  · exact Ends.raise _ _ _
  split
  · exact Ends.raise _ _ _
  split
  · exact Ends.raise _ _ _
  · rename_i h1 h2 h3
    simp only [not_or, ne_eq, Decidable.not_not] at h2
    exact .succeeds _ (.mbxXrd n s (life_active_of_not h1) h2.1 h2.2 (by omega)) rfl

theorem execMbxXclr_ends (s : State) : Ends .mbxXclr s (execMbxXclr s) := by
  unfold execMbxXclr
  split
  · exact Ends.raise _ _ _
  split
  · exact Ends.raise _ _ _
  · rename_i h1 h2
    exact .succeeds _ (.mbxXclr s (life_active_of_not h1) (by simpa using h2)) rfl

theorem execDomCreate_ends (d size : Nat) (s : State) : Ends (.domCreate d size) s (execDomCreate d size s) := by
  unfold execDomCreate
  split
  · exact Ends.raise _ _ _
  split
  · exact Ends.raise _ _ _
  split
  · exact Ends.raise _ _ _
  rename_i h1 h2 h3
  split
  · exact Ends.raise _ _ _
  · rename_i h4
    simp only [not_or, Nat.not_le] at h3
    obtain ⟨hd, hs⟩ := h3
    have hx : s.dom[d]? = some s.dom[d] := List.getElem?_eq_getElem hd
    refine .succeeds _ (.domCreate d size s _ (by simpa using h2) hx ?_ (by omega) (by omega)) rfl
    by_contra hv
    exact hs (by rw [State.domainAt_eq_some.2 ⟨hx, by simpa using hv⟩]; rfl)

theorem execDomRegField_ends (d off : Nat) (s : State) : Ends (.domRegField d off) s (execDomRegField d off s) := by
  unfold execDomRegField
  split
  · exact Ends.raise _ _ _
  split
  · exact Ends.raise _ _ _
  rename_i h2
  split
  · exact Ends.raise _ _ _
  rename_i x hx
  split
  · exact Ends.raise _ _ _
  rename_i e he
  split
  · exact Ends.raise _ _ _
  split
  · exact Ends.raise _ _ _
  split
  · exact Ends.raise _ _ _
  · rename_i h3 h4 h5
    exact .succeeds _ (.domRegField d off s x e (by simpa using h2) hx he (by simpa using h3) (by omega) (by omega)) rfl

theorem execFldRd_ends (n : Nat) (s : State) : Ends (.fldRd n) s (execFldRd n s) := by
  unfold execFldRd
  split
  · exact Ends.raise _ _ _
  rename_i h1
  simp only [not_or, ne_eq, Decidable.not_not] at h1
  split
  · exact Ends.raise _ _ _
  rename_i f hf
  split
  · exact Ends.raise _ _ _
  · rename_i r hr
    exact .succeeds _ (.fldRd n s f r h1.1 h1.2 hf hr) rfl

theorem execFldWr_ends (n : Nat) (s : State) : Ends (.fldWr n) s (execFldWr n s) := by
  unfold execFldWr
  split
  · exact Ends.raise _ _ _
  rename_i h1
  simp only [not_or, ne_eq, Decidable.not_not] at h1
  split
  · exact Ends.raise _ _ _
  rename_i f hf
  split
  · exact Ends.raise _ _ _
  · rename_i b hb
    exact .succeeds _ (.fldWr n s f b h1.1 h1.2 hf hb) rfl

theorem execDgRd_ends (q n : Nat) (s : State) : Ends (.dgRd q n) s (execDgRd q n s) := by
  unfold execDgRd
  split
  · exact Ends.raise _ _ _
  rename_i h1
  split
  · exact Ends.raise _ _ _
  split
  · exact Ends.raise _ _ _
  rename_i x hx
  split
  · exact Ends.raise _ _ _
  · exact .succeeds _ (.dgRd q n s x (life_active_of_not h1) hx (by omega)) rfl

theorem execDgWr_ends (q n : Nat) (s : State) : Ends (.dgWr q n) s (execDgWr q n s) := by
  unfold execDgWr
  split
  · exact Ends.raise _ _ _
  rename_i h1
  split
  · exact Ends.raise _ _ _
  split
  · exact Ends.raise _ _ _
  rename_i x hx
  split
  · exact Ends.raise _ _ _
  split
  · exact Ends.raise _ _ _
  · rename_i h2 h3
    exact .succeeds _ (.dgWr q n s x (life_active_of_not h1) hx (by simpa using h2) (by omega) (by omega)) rfl

theorem execDgStat_ends (q : Nat) (s : State) : Ends (.dgStat q) s (execDgStat q s) := by
  unfold execDgStat
  split
  · exact Ends.raise _ _ _
  rename_i h1
  split
  · exact Ends.raise _ _ _
  rename_i h2
  split
  · exact .succeeds _ (.dgStat q s _ _ _ _ (life_active_of_not h1) (by omega)) rfl
  · exact .succeeds _ (.dgStat q s _ _ _ _ (life_active_of_not h1) (by omega)) rfl

/-- Everything a command can do. -/
theorem exec_ends (i : Instr) (s : State) : Ends i s (exec i s) := by
  cases i with
  | acquire => exact execAcquire_ends s
  | slaveSet n st => exact execSlaveSet_ends n st s
  | activate σ => exact execActivate_ends σ s
  | deactivate => exact execDeactivate_ends s
  | release => exact execRelease_ends s
  | appDone => exact execAppDone_ends s
  | mbxPrepSend v n => exact execMbxPrepSend_ends v n s
  | mbxPrepCheck v => exact execMbxPrepCheck_ends v s
  | mbxCheck q => exact execMbxCheck_ends q s
  | mbxPrepFetch v => exact execMbxPrepFetch_ends v s
  | mbxFetch q v => exact execMbxFetch_ends q v s
  | mbxXfer q n => exact execMbxXfer_ends q n s
  | mbxXstat => exact execMbxXstat_ends s
  | mbxXrd n => exact execMbxXrd_ends n s
  | mbxXclr => exact execMbxXclr_ends s
  | domCreate d n => exact execDomCreate_ends d n s
  | domRegField d n => exact execDomRegField_ends d n s
  | fldRd n => exact execFldRd_ends n s
  | fldWr n => exact execFldWr_ends n s
  | dgRd q n => exact execDgRd_ends q n s
  | dgWr q n => exact execDgWr_ends q n s
  | dgStat q => exact execDgStat_ends q s

/-- A command that answers a next state has failed, or has had its effect. -/
theorem exec_next {i : Instr} {s t : State} (h : exec i s = .next t) :
    Failed i s t ∨ ∃ u, Effect i s u ∧ t = u.succeed := by
  cases exec_ends i s with
  | fails u hf ho => rw [ho] at h; cases h; exact .inl hf
  | succeeds u hu ho => rw [ho] at h; cases h; exact .inr ⟨u, hu, rfl⟩

end Sys2Proof.Machine
end

