-- ==== Sys2Proof/Laws/Turns.lean ====
section
/-! SUPPORT. What one step can do, said once, and the induction principle of the invariants: a step is an access to the
host-facing registers, a command, a micro-operation, a tick or the reset event. -/

namespace Sys2Proof.Machine

/-- `t` is `s` but for the argument registers, ERR, LOG, the held command, the host bus and the turns to come. -/
def SameCore (s t : State) : Prop :=
  t = { s with
    a0 := t.a0, a1 := t.a1, a2 := t.a2, a3 := t.a3, err := t.err, log := t.log, held := t.held, rdata := t.rdata
    inputs := t.inputs }

theorem SameCore.refl (s : State) : SameCore s s := rfl

theorem SameCore.trans {s t u : State} (h1 : SameCore s t) (h2 : SameCore t u) : SameCore s u := by
  unfold SameCore at *
  rw [h2, h1]

/-- Writing host-facing fields. -/
theorem SameCore.mk (s : State) (a0 a1 a2 a3 err : Word) (log : List LogEvent) (held : Option Held) (rdata : Word)
    (inputs : List Input) : SameCore s { s with
      a0 := a0, a1 := a1, a2 := a2, a3 := a3, err := err, log := log, held := held, rdata := rdata
      inputs := inputs } := rfl

/-- Everything the execution of a command word can do to the rest of the state. -/
inductive Ran (s t : State) : Prop
  | access (h : SameCore s t)
  | command (i : Instr) (u v : State) (ha : u.accepting = true) (h1 : SameCore s u) (h2 : Effect i u v)
      (h3 : SameCore v t)
  | exhausted (u : State) (ha : u.accepting = true) (hl : u.life = .active) (h1 : SameCore s u)
      (h2 : SameCore u.fatalStop t)

/-- Everything a step can do to the rest of the state. -/
inductive Turned (s t : State) : Prop
  | ran (h : Ran s t)
  | micro (op : MicroOp) (rest : List MicroOp) (hs : s.todo = op :: rest) (u : State) (h1 : SameCore s u)
      (h2 : t = State.runMicro { u with todo := rest } op)
  | tick (u : State) (h1 : SameCore s u) (h2 : t = u.tick)
  | reset (hr : s.inputs.head? = some .reset) (u : State) (h1 : SameCore s u) (h2 : t = u.hardReset)

/-- A word that CORE executes. -/
theorem runWord_ran {w : Word} {s t u : State} (ha : u.accepting = true) (hsu : SameCore s u)
    (h : runWord w u = .next t) : Ran s t := by
  unfold runWord at h
  split at h
  · rename_i i _
    rcases exec_next h with hf | ⟨v, hv, rfl⟩
    · cases hf with
      | plain _ _ e => exact .access (hsu.trans rfl)
      | corrupt q v _ l hl => exact .access (hsu.trans rfl)
      | reply q v _ l k c hl => exact .access (hsu.trans rfl)
      | exhausted _ _ hl hf => exact .exhausted u ha hl hsu rfl
    · exact .command i u v ha hsu hv rfl
  · cases h
    exact .access (hsu.trans rfl)

/-- Putting the argument registers back changes nothing else. -/
theorem Ran.restore {s t u : State} (h : Ran s t) : Ran s (u.restoreArgs t) := by
  cases h with
  | access h => exact .access (h.trans rfl)
  | command i v w ha h1 h2 h3 => exact .command i v w ha h1 h2 (h3.trans rfl)
  | exhausted v ha hl h1 h2 => exact .exhausted v ha hl h1 (h2.trans rfl)

/-- CORE's turn. -/
theorem coreTurn_turned {s t u : State} (hsu : SameCore s u) (h : coreTurn u = .next t) : Turned s t := by
  have htodo : u.todo = s.todo := by rw [hsu]
  unfold coreTurn at h
  split at h
  · rename_i op rest ho
    cases h
    exact .micro op rest (htodo ▸ ho) u hsu rfl
  split at h
  · rename_i hd _
    split at h
    · rename_i ha
      unfold runHeld at h
      split at h
      · rename_i v hv
        cases h
        exact .ran (Ran.restore (runWord_ran (u := State.withArgs { u with held := none } hd) ha (hsu.trans rfl) hv))
      · cases h
      · cases h
    · cases h
      exact .ran (.access hsu)
  · cases h
    exact .ran (.access hsu)

/-- A write of the register map. -/
theorem writeReg_turned {offset : Nat} {w : Word} {s t u : State} (hsu : SameCore s u)
    (h : writeReg offset w u = .next t) : Turned s t := by
  unfold writeReg at h
  split at h
  · unfold presentCommand at h
    split at h
    · cases h
    split at h
    · rename_i ha
      exact .ran (runWord_ran ha hsu h)
    · cases h
      exact .ran (.access (hsu.trans rfl))
  all_goals
    cases h
    exact .ran (.access (hsu.trans rfl))

/-- With no turn listed, or CORE's listed first, the step is CORE's turn (42_scheduler.md R175). -/
theorem step_core {s : State} (h : s.inputs.head? = none ∨ s.inputs.head? = some .core) :
    step s = coreTurn { s with inputs := s.inputs.tail } := by
  unfold step nextTurn
  split
  · rename_i hi
    rw [hi]
    congr 1
    rw [List.tail_nil, ← hi]
  · rename_i e rest hi
    rw [hi] at h
    rcases h with h | h <;> simp at h
    subst h
    simp [State.accessWaits, Input.isAccess, takeTurn, hi]

/-- Everything a step can do (00_scope.md R15). -/
theorem step_turned {s t : State} (h : step s = .next t) : Turned s t := by
  unfold step nextTurn at h
  split at h
  · exact coreTurn_turned (SameCore.refl s) h
  rename_i e rest hi
  split at h
  · exact coreTurn_turned (SameCore.refl s) h
  have hsu : SameCore s { s with inputs := rest } := rfl
  cases e with
  | core => exact coreTurn_turned hsu h
  | tick =>
    cases h
    exact .tick _ hsu rfl
  | write offset w => exact writeReg_turned hsu h
  | read offset =>
    cases h
    exact .ran (.access rfl)
  | reset =>
    cases h
    exact .reset (by rw [hi]; rfl) _ hsu rfl

/-- What an invariant needs so that every step keeps it. -/
structure Kept (Inv : State → Prop) : Prop where
  core : ∀ s t, SameCore s t → Inv s → Inv t
  command : ∀ i s t, s.accepting = true → Inv s → Effect i s t → Inv t
  fatal : ∀ s, s.accepting = true → s.life = .active → Inv s → Inv s.fatalStop
  micro : ∀ s op rest, Inv s → s.todo = op :: rest → Inv (State.runMicro { s with todo := rest } op)
  tick : ∀ s, Inv s → Inv s.tick
  reset : ∀ s, Inv s → Inv s.hardReset

/-- Every step keeps an invariant that its parts keep. -/
theorem Kept.step {Inv : State → Prop} (k : Kept Inv) {s t : State} (hs : Inv s) (h : step s = .next t) : Inv t := by
  cases step_turned h with
  | ran hr =>
    cases hr with
    | access hc => exact k.core s t hc hs
    | command i u v ha h1 h2 h3 => exact k.core v t h3 (k.command i u v ha (k.core s u h1 hs) h2)
    | exhausted u ha hl h1 h2 => exact k.core _ t h2 (k.fatal u ha hl (k.core s u h1 hs))
  | micro op rest ho u h1 h2 =>
    subst h2
    refine k.micro u op rest (k.core s u h1 hs) ?_
    rw [h1]
    exact ho
  | tick u h1 h2 =>
    subst h2
    exact k.tick u (k.core s u h1 hs)
  | reset hr u h1 h2 =>
    subst h2
    exact k.reset u (k.core s u h1 hs)

/-- The first step of a run. -/
theorem core_run_succ {s t : State} (h : step s = .next t) (k : Nat) :
    Sys2Proof.core.run (k + 1) s = Sys2Proof.core.run k t := by
  have h' : Sys2Proof.core.step s = .next t := h
  simp only [Host.Core.run]
  rw [h']

end Sys2Proof.Machine
end

