-- ==== Sys2Proof/Laws/Invariants.lean ====
section
/-! SUPPORT. Consequences of the invariants: what follows a micro-operation in its program, and what keeps the field table
sound. -/

namespace Sys2Proof.Machine

/-- What may be left after a micro-operation (42_scheduler.md R173, R174). -/
def follows : MicroOp → List MicroOp → Bool
  | .rel, rest => rest.head? == some .queueAll
  | .queueAll, rest => rest.head? == some .mbxOut
  | .mbxOut, rest => rest.head? == some .sendAll
  | .sendAll, rest => rest.head? == some .toAwaiting || rest.head? == some .endCycle
  | .toAwaiting, rest => rest.head? == some .recvAll
  | .recvAll, rest => rest.head? == some .toProcessing
  | .toProcessing, rest => rest.head? == some .processAll
  | .processAll, rest => rest.head? == some .mbxIn
  | .mbxIn, rest => rest.head? == some .toApp
  | .toApp, rest => rest.isEmpty
  | .endCycle, rest => rest.isEmpty

/-- `follows` at the head of a program. -/
def followsHead : List MicroOp → Bool
  | [] => true
  | op :: rest => follows op rest

/-- In a positioned state the phase and the rest of the program are those of the next micro-operation. -/
theorem State.positioned_next {s : State} {op : MicroOp} {rest : List MicroOp} (h : s.positioned)
    (ho : s.todo = op :: rest) : s.phase = phaseOf op ∧ follows op rest = true := by
  unfold State.positioned at h
  rw [ho] at h
  have all : ∀ p ∈ [cycleProgram .sync, cycleProgram .async, closingProgram], ∀ l ∈ p.tails, followsHead l = true := by
    decide
  refine ⟨h.1, ?_⟩
  rcases h.2 with h2 | ⟨-, h2⟩
  · exact all (cycleProgram s.strategy) (by cases s.strategy <;> simp) _ ((List.mem_tails _ _).2 h2)
  · exact all closingProgram (by simp) _ ((List.mem_tails _ _).2 h2)

/-- The next micro-operation is done: the state after it is positioned at the one after. -/
theorem State.positioned_advance {s u : State} {op : MicroOp} {rest : List MicroOp} (h : s.positioned)
    (ho : s.todo = op :: rest) (hu : u.todo = rest) (hst : u.strategy = s.strategy)
    (hp : ∀ next, rest.head? = some next → u.phase = phaseOf next) (hn : rest = [] → u.phase = .idle ∨ u.phase = .app) :
    u.positioned := by
  unfold State.positioned at *
  rw [hu]
  rw [ho] at h
  cases rest with
  | nil => exact hn rfl
  | cons o r =>
    refine ⟨hp o rfl, ?_⟩
    rw [hst]
    rcases h.2 with h2 | ⟨h1, h2⟩
    · exact .inl ((List.suffix_cons _ _).trans h2)
    · exact .inr ⟨h1, (List.suffix_cons _ _).trans h2⟩

/-- While a command can execute no program runs. -/
theorem State.todo_nil {s : State} (h : s.positioned) (ha : s.accepting = true) : s.todo = [] := by
  cases ho : s.todo with
  | nil => rfl
  | cons op rest =>
    have hp := (State.positioned_next h ho).1
    simp only [State.accepting, Bool.or_eq_true, decide_eq_true_eq] at ha
    rw [hp] at ha
    cases op <;> rcases ha with ha | ha <;> cases ha

/-- A program runs only while Active. -/
theorem State.active_of_todo {s : State} (h : s.positioned) (hq : s.quietUnlessActive) {op : MicroOp}
    {rest : List MicroOp} (ho : s.todo = op :: rest) : s.life = .active := by
  by_contra hl
  have h1 := (hq hl).1
  rw [(State.positioned_next h ho).1] at h1
  cases op <;> cases h1

/-- The field table stays sound when no domain loses its validity or its size (10_state.md R60 (e)). -/
theorem State.fieldsOk_of_domains {s t : State} (h1 : t.fldcnt = s.fldcnt) (h2 : t.fld = s.fld) (h3 : t.slv = s.slv)
    (h4 : ∀ (d : Nat) (x : Domain), s.dom[d]? = some x →
      ∃ x' : Domain, t.dom[d]? = some x' ∧ x'.valid = x.valid ∧ x'.buf.len = x.buf.len)
    (hs : s.fieldsOk) : t.fieldsOk := by
  unfold State.fieldsOk at *
  rw [h1, h2]
  refine ⟨hs.1, fun h f hf => ?_⟩
  obtain ⟨a, b⟩ := hs.2 h f hf
  refine ⟨a, fun hv => ?_⟩
  obtain ⟨b1, ⟨e, he⟩, x, hx, hb⟩ := b hv
  refine ⟨b1, ⟨e, by unfold State.slaveAt at *; rw [h3]; exact he⟩, ?_⟩
  rw [State.domainAt_eq_some] at hx
  obtain ⟨x', hx', hv', hl⟩ := h4 _ x hx.1
  exact ⟨x', State.domainAt_eq_some.2 ⟨hx', by rw [hv']; exact hx.2⟩, by omega⟩

end Sys2Proof.Machine
end

