-- ==== Sys2Proof/Laws/PerInstr.lean ====
section
/-! SUPPORT. The fields of the command word of every command (30_encoding.md R100, R103), one lemma per constructor. -/

namespace Sys2Proof

/-- The opcode field of a word of format H. -/
theorem opField_formatH (op a imm : Nat) : opField (formatH op a imm) = BitVec.ofNat 8 op := by
  apply BitVec.eq_of_getLsbD_eq
  intro i hi
  simp only [opField, formatH, BitVec.getLsbD_extractLsb', BitVec.getLsbD_append, hi]
  simp [show ¬ 24 + i < 16 by omega, show ¬ 24 + i - 16 < 8 by omega, show 24 + i - 16 - 8 = i by omega]

/-- The index field of a word of format H. -/
theorem aField_formatH (op a imm : Nat) : aField (formatH op a imm) = a % 256 := by
  have h : (formatH op a imm).extractLsb' 16 8 = BitVec.ofNat 8 a := by
    apply BitVec.eq_of_getLsbD_eq
    intro i hi
    simp only [formatH, BitVec.getLsbD_extractLsb', BitVec.getLsbD_append, hi]
    simp [show ¬ 16 + i < 16 by omega, show 16 + i - 16 = i by omega]
    intro h
    omega
  rw [aField, h, BitVec.toNat_ofNat]

/-- The immediate field of a word of format H, as bits. -/
theorem immBits_formatH (op a imm : Nat) : immBits (formatH op a imm) = BitVec.ofNat 16 imm := by
  apply BitVec.eq_of_getLsbD_eq
  intro i hi
  simp only [immBits, formatH, BitVec.getLsbD_extractLsb', BitVec.getLsbD_append, hi]
  simp
  intro h
  omega

/-- The immediate field of a word of format H. -/
theorem immField_formatH (op a imm : Nat) : immField (formatH op a imm) = imm % 65536 := by
  rw [immField, immBits_formatH, BitVec.toNat_ofNat]

namespace Laws.EncodedFields

/-- The word of a well-formed command carries its opcode and its operands in their fields, cut by nothing. -/
def Statement (i : Instr) : Prop :=
  i.wf = true →
    (opField (encode i)).toNat = i.opcode ∧ aField (encode i) = i.aOperand ∧ immField (encode i) = i.immOperand

/-- Every operand of a well-formed command fits its field. -/
theorem operands_fit {i : Instr} (h : i.wf = true) : i.opcode < 256 ∧ i.aOperand < 256 ∧ i.immOperand < 65536 := by
  cases i <;>
    simp_all [Instr.wf, fitsIndex, fitsImm, Instr.opcode, Instr.aOperand, Instr.immOperand, strategyImm] <;>
    first
    | omega
    | (split <;> omega)

/-- The three fields of an encoded well-formed command. -/
theorem fields (i : Instr) : Statement i := fun h => by
  obtain ⟨ho, ha, hi⟩ := operands_fit h
  unfold encode
  rw [opField_formatH, aField_formatH, immField_formatH, BitVec.toNat_ofNat]
  exact ⟨Nat.mod_eq_of_lt ho, Nat.mod_eq_of_lt ha, Nat.mod_eq_of_lt hi⟩

theorem acquire : Statement .acquire := fields _

theorem slaveSet (i : Nat) (st : Half) : Statement (.slaveSet i st) := fields _

theorem activate (σ : Strategy) : Statement (.activate σ) := fields _

theorem deactivate : Statement .deactivate := fields _

theorem release : Statement .release := fields _

theorem appDone : Statement .appDone := fields _

theorem mbxPrepSend (v : Nat) (n : Nat) : Statement (.mbxPrepSend v n) := fields _

theorem mbxPrepCheck (v : Nat) : Statement (.mbxPrepCheck v) := fields _

theorem mbxCheck (q : Nat) : Statement (.mbxCheck q) := fields _

theorem mbxPrepFetch (v : Nat) : Statement (.mbxPrepFetch v) := fields _

theorem mbxFetch (q : Nat) (v : Nat) : Statement (.mbxFetch q v) := fields _

theorem mbxXfer (q : Nat) (n : Nat) : Statement (.mbxXfer q n) := fields _

theorem mbxXstat : Statement .mbxXstat := fields _

theorem mbxXrd (n : Nat) : Statement (.mbxXrd n) := fields _

theorem mbxXclr : Statement .mbxXclr := fields _

theorem domCreate (d : Nat) (n : Nat) : Statement (.domCreate d n) := fields _

theorem domRegField (d : Nat) (n : Nat) : Statement (.domRegField d n) := fields _

theorem fldRd (n : Nat) : Statement (.fldRd n) := fields _

theorem fldWr (n : Nat) : Statement (.fldWr n) := fields _

theorem dgRd (q : Nat) (n : Nat) : Statement (.dgRd q n) := fields _

theorem dgWr (q : Nat) (n : Nat) : Statement (.dgWr q n) := fields _

theorem dgStat (q : Nat) : Statement (.dgStat q) := fields _

end Laws.EncodedFields

end Sys2Proof
end

