-- ==== Sys2Proof/Tests/Slice0.lean ====
section
/-! SUPPORT. Tests on fixed values, with the source of each expected value, and for every statement that has hypotheses a
state and operands that meet them, clause by clause. -/

namespace Sys2Proof.Tests

open Sys2Proof.Machine

/-! ## Helpers -/

/-- The outcome is a next state with the property. -/
def after (o : Host.Outcome State Fault Refusal) (p : State → Bool) : Bool :=
  match o with
  | .next t => p t
  | .fault _ => false
  | .refused _ => false

/-- The outcome is the refusal. -/
def refusedAs (o : Host.Outcome State Fault Refusal) (r : Refusal) : Bool :=
  match o with
  | .refused r' => decide (r' = r)
  | .next _ => false
  | .fault _ => false

/-- The slave of the conventions of 95_test_vectors.md. -/
def slave0 : Slave :=
  { valid := true, station := 0x1001, ring := 0, protocols := 4, rxOff := 0x1000, rxSize := 16, txOff := 0x1080
    txSize := 16 }

/-- A slave without mailbox protocols (95_test_vectors.md, P3). -/
def slave1 : Slave := { slave0 with station := 0x1002, ring := 1, protocols := 0 }

/-- The domain of 95_test_vectors.md, P2, with the given content. -/
def dom0 (bytes : List Byte) : Domain :=
  { valid := true, addr := 0x10000, buf := Buf.ofBytes bytes, dg := none, wstate := .none }

/-- The field of 95_test_vectors.md, P2. -/
def field0 : Field := { valid := true, dom := 0, slave := 0, locator := 0x60000001, off := 0, width := 2 }

/-- Configuring, with two slaves. -/
def conf : State :=
  { State.reset with life := .configuring, slv := [slave0, slave1, Slave.empty, Slave.empty] }

/-- Configuring, with a domain. -/
def confDom : State := { conf with dom := [dom0 [0, 0, 0, 0], Domain.empty] }

/-- Active, with two slaves, a domain that holds `01 01 00 00` and a field of it. -/
def act (σ : Strategy) (p : Phase) (slots : List Slot) : State :=
  { conf with
    life := .active, strategy := σ, phase := p, dg := slots, dom := [dom0 [1, 1, 0, 0], Domain.empty]
    fld := field0 :: List.replicate 7 Field.empty, fldcnt := 1 }

/-- The request of M1. -/
def request : Datagram :=
  { st := .queued, kind := .write, station := 0x1001, offset := 0x1000, addr := none
    data := Buf.ofBytes [0x0A, 0, 1, 0x10, 0, 3, 0, 0, 0, 0, 0, 0, 0, 0, 0, 0], status := .pending, owner := .host
    slv := some 0 }

/-- A completed read. -/
def answer (bytes : List Byte) : Datagram :=
  { request with st := .done, kind := .read, data := Buf.ofBytes bytes, status := .ok }

/-- The answer of M20. -/
def goodFrame : Datagram := answer [2, 0, 1, 0x10, 0, 3, 0x11, 0x22, 0, 0, 0, 0, 0, 0, 0, 0]

/-- The error reply of M25. -/
def errorFrame : Datagram := answer [4, 0, 1, 0x10, 0, 0, 1, 0, 2, 0, 0, 0, 0, 0, 0, 0]

/-- The corrupt frame of M22. -/
def longFrame : Datagram := answer [0x0B, 0, 1, 0x10, 0, 3, 0, 0, 0, 0, 0, 0, 0, 0, 0, 0]

/-- A domain's datagram on the wire. -/
def onWire (d : Nat) (bytes : List Byte) : Datagram :=
  { request with st := .inFlight, kind := .exchange, data := Buf.ofBytes bytes, owner := .dom d, slv := none }

/-- Active in the App window, one slot taken by `x`. -/
def withSlot (x : Datagram) : State := act .sync .app [some x, none, none, none]

/-- `s` with its sequencer in the given state, waiting for slot 0. -/
def waiting (st : MxState) (budget : Half) (x : Datagram) : State :=
  { withSlot { x with owner := .seq } with mx := { Sequencer.empty 64 with st := st, budget := budget } }

/-- The sequencer with the result of X17. -/
def finished : State :=
  { act .sync .app [none, none, none, none] with
    mx := { Sequencer.empty 64 with st := .done, rtype := 3, rlen := 2, rbuf := { len := 64, mem := [(0, 0x11), (1, 0x22)] } } }

/-! ## WellFormed: an ill-formed command for each check -/

theorem test_wf_slaveSet_index : (Instr.slaveSet 256 0).wf = false := by decide
theorem test_wf_mbxPrepSend : (Instr.mbxPrepSend 256 0).wf = false ∧ (Instr.mbxPrepSend 0 65536).wf = false := by decide
theorem test_wf_mbxPrepCheck : (Instr.mbxPrepCheck 256).wf = false := by decide
theorem test_wf_mbxCheck : (Instr.mbxCheck 256).wf = false := by decide
theorem test_wf_mbxPrepFetch : (Instr.mbxPrepFetch 256).wf = false := by decide
theorem test_wf_mbxFetch : (Instr.mbxFetch 256 0).wf = false ∧ (Instr.mbxFetch 0 256).wf = false := by decide
theorem test_wf_mbxXfer : (Instr.mbxXfer 256 0).wf = false ∧ (Instr.mbxXfer 0 65536).wf = false := by decide
theorem test_wf_mbxXrd : (Instr.mbxXrd 65536).wf = false := by decide
theorem test_wf_domCreate : (Instr.domCreate 256 0).wf = false ∧ (Instr.domCreate 0 65536).wf = false := by decide
theorem test_wf_domRegField : (Instr.domRegField 256 0).wf = false ∧ (Instr.domRegField 0 65536).wf = false := by decide
theorem test_wf_fld : (Instr.fldRd 65536).wf = false ∧ (Instr.fldWr 65536).wf = false := by decide
theorem test_wf_dgRd : (Instr.dgRd 256 0).wf = false ∧ (Instr.dgRd 0 65536).wf = false := by decide
theorem test_wf_dgWr : (Instr.dgWr 256 0).wf = false ∧ (Instr.dgWr 0 65536).wf = false := by decide
theorem test_wf_dgStat : (Instr.dgStat 256).wf = false := by decide
theorem test_wf_accepts : (Instr.dgRd 255 65535).wf = true ∧ (Instr.mbxFetch 255 255).wf = true := by decide

/-! ## Decode: the words of 95_test_vectors.md section 2.1, and words with every operand field in use -/

theorem test_decode_acquire : decode 0x01000000 = .ok .acquire := by decide
theorem test_decode_slaveSet : decode 0x02031001 = .ok (.slaveSet 3 0x1001) := by decide
theorem test_decode_activate : decode 0x03000000 = .ok (.activate .sync) ∧ decode 0x03000001 = .ok (.activate .async) := by
  decide
theorem test_decode_deactivate : decode 0x04000000 = .ok .deactivate := by decide
theorem test_decode_release : decode 0x05000000 = .ok .release := by decide
theorem test_decode_appDone : decode 0x06000000 = .ok .appDone := by decide
theorem test_decode_mbxPrepSend : decode 0x10010064 = .ok (.mbxPrepSend 1 100) := by decide
theorem test_decode_mbxPrepCheck : decode 0x11000000 = .ok (.mbxPrepCheck 0) := by decide
theorem test_decode_mbxCheck : decode 0x12010000 = .ok (.mbxCheck 1) := by decide
theorem test_decode_mbxPrepFetch : decode 0x13FF0000 = .ok (.mbxPrepFetch 255) := by decide
theorem test_decode_mbxFetch : decode 0x14020000 = .ok (.mbxFetch 2 0) ∧ decode 0x1402AB03 = .ok (.mbxFetch 2 3) := by
  decide
theorem test_decode_mbxXfer : decode 0x18020001 = .ok (.mbxXfer 2 1) := by decide
theorem test_decode_mbxXstat : decode 0x19000000 = .ok .mbxXstat := by decide
theorem test_decode_mbxXrd : decode 0x1A00FFFE = .ok (.mbxXrd 0xFFFE) := by decide
theorem test_decode_mbxXclr : decode 0x1B000000 = .ok .mbxXclr := by decide
theorem test_decode_domCreate : decode 0x20010004 = .ok (.domCreate 1 4) := by decide
theorem test_decode_domRegField : decode 0x21000002 = .ok (.domRegField 0 2) := by decide
theorem test_decode_fldRd : decode 0x22000005 = .ok (.fldRd 5) := by decide
theorem test_decode_fldWr : decode 0x23000001 = .ok (.fldWr 1) := by decide
theorem test_decode_dgRd : decode 0x30000007 = .ok (.dgRd 0 7) := by decide
theorem test_decode_dgWr : decode 0x31000006 = .ok (.dgWr 0 6) := by decide
theorem test_decode_dgStat : decode 0x32010000 = .ok (.dgStat 1) := by decide
/-- E24 and E25. -/
theorem test_decode_reserved :
    [0x00000000, 0x07000000, 0x15000000, 0x1C000000, 0x24000000, 0x33000000, 0xFF000000].all
      (fun w => decide (decodeOption w = none)) = true := by decide
/-- The numbering of the opcode table: one 32-bit word. -/
theorem test_decodeTableWord : decodeTableWord 32 0x14020000 = some (.mbxFetch 2 0) ∧ decodeTableWord 32 0x07000000 = none := by
  decide
theorem test_encode : encode (.mbxFetch 2 0) = 0x14020000 ∧ encode (.activate .async) = 0x03000001 := by decide

/-! ## Commands -/

/-- L3. -/
theorem test_acquire : after (step (State.reset.withFetchWord 32 0x01000000)) (fun t => t.statusWord == 1) = true := by
  decide
/-- L7. -/
theorem test_acquire_active : after (exec .acquire (withSlot request)) (fun t => t.err == 10 && t.life == .active) = true := by
  decide
/-- E2: the packing of A0 to A2. -/
theorem test_slaveSet :
    after (exec (.slaveSet 0 0x1001) { conf with a0 := 0x00040000, a1 := 0x00101000, a2 := 0x00101080, slv := State.reset.slv })
      (fun t => t.slv == [slave0, Slave.empty, Slave.empty, Slave.empty] && t.err == 0) = true := by decide
/-- L15: rx_size 65. -/
theorem test_slaveSet_size : after (exec (.slaveSet 0 0x1001) { conf with a1 := 0x00411000 }) (fun t => t.err == 12) = true := by
  decide
/-- L4. -/
theorem test_activate :
    after (exec (.activate .async) { conf with a0 := 2, cycle := 7 })
      (fun t => t.statusWord == 0x22 && t.kdiv == 2 && t.cycle == 0) = true := by decide
/-- L13 and L5. -/
theorem test_activate_fails :
    after (exec (.activate .sync) { conf with a0 := 1, fatal := true }) (fun t => t.err == 10) = true ∧
      after (exec (.activate .sync) conf) (fun t => t.err == 12) = true := by decide
/-- L6. -/
theorem test_deactivate :
    after (exec .deactivate (withSlot request)) (fun t => t.statusWord == 1 && t.dg == [none, none, none, none]) = true := by
  decide
/-- L8. -/
theorem test_release :
    after (exec .release confDom)
      (fun t => t.life == .released && t.slv == State.reset.slv && t.dom == State.reset.dom) = true := by decide
/-- X4. -/
theorem test_appDone_idle : after (exec .appDone (act .sync .idle [])) (fun t => t.err == 10) = true := by decide
/-- L12: with BUDGET = 100 a T_FIN of 101 is an overrun and one of 100 is not; K = 1 forwards the tick. -/
theorem test_appDone :
    let s := { act .sync .app [none] with now := 90, par := { Config.standard with budget := 100 } }
    after (exec .appDone { s with elapsed := [11] })
        (fun t => t.ovr && t.tFin == 101 && t.phase == .idle && t.hostTicks == 1) = true ∧
      after (exec .appDone { s with elapsed := [10] }) (fun t => !t.ovr && t.tFin == 100) = true := by decide
/-- M1, with size 10 and type 3. -/
theorem test_mbxPrepSend :
    after (exec (.mbxPrepSend 0 10) { act .sync .app [none, none, none, none] with a0 := 3 })
      (fun t => t.dg == [some request, none, none, none] && t.r0 == 0 && t.r1 == 6 && t.r2 == 10 && t.err == 0) = true := by
  decide
/-- M2 and M6. -/
theorem test_mbxPrepSend_fails :
    after (exec (.mbxPrepSend 0 11) (act .sync .app [none])) (fun t => t.err == 2 && t.dg == [none]) = true ∧
      after (exec (.mbxPrepSend 1 100) (act .sync .app [none])) (fun t => t.err == 1) = true := by decide
/-- M9. -/
theorem test_mbxPrepCheck :
    after (exec (.mbxPrepCheck 0) (withSlot request))
      (fun t => t.r0 == 1 && t.slotAt 1 == some { request with kind := .read, offset := 0x0808, data := { len := 8, mem := [] } }) =
      true := by decide
/-- X20. -/
theorem test_mbxPrepCheck_exhausted :
    after (exec (.mbxPrepCheck 0) (act .sync .app [some request, some request]))
      (fun t => t.err == 9 && t.statusWord == 0x2101) = true := by decide
/-- M10 to M13. -/
theorem test_mbxCheck :
    after (exec (.mbxCheck 0) (withSlot (answer [0, 0, 0, 0, 0, 8, 0, 0]))) (fun t => t.r0 == 1) = true ∧
      after (exec (.mbxCheck 0) { withSlot (answer [255, 255, 255, 255, 255, 0xF7, 255, 255]) with r0 := 9 })
        (fun t => t.r0 == 0) = true := by decide
/-- M16. -/
theorem test_mbxPrepFetch :
    after (exec (.mbxPrepFetch 0) (act .sync .app [none]))
      (fun t => t.dg == [some { request with kind := .read, offset := 0x1080, data := { len := 16, mem := [] } }]) = true := by
  decide
/-- M20 and M21's length bound. -/
theorem test_mbxFetch :
    after (exec (.mbxFetch 0 0) (withSlot goodFrame)) (fun t => t.r0 == 3 && t.r1 == 6 && t.r2 == 2 && t.err == 0) = true ∧
      after (exec (.mbxFetch 0 0) (withSlot longFrame))
        (fun t => t.err == 3 && t.log == [.corruptFrame 0 longFrame.data.toBytes]) = true := by decide
/-- M25 and M26. -/
theorem test_mbxFetch_errorReply :
    after (exec (.mbxFetch 0 0) (withSlot errorFrame))
        (fun t => t.err == 0x00020104 && t.log == [.errorReply 0 2 "MBXERR_UNSUPPORTEDPROTOCOL"]) = true ∧
      after (exec (.mbxFetch 0 0) (withSlot (answer [4, 0, 1, 0x10, 0, 0, 1, 0, 255, 0])))
        (fun t => t.err == 0x00FF0004 && t.log == [.errorReply 0 255 "unknown code"]) = true := by decide
/-- X6. -/
theorem test_mbxXfer :
    after (exec (.mbxXfer 0 2) (withSlot request))
      (fun t => t.mx.st == .sendWait && t.mx.budget == 2 && t.slotAt 0 == some { request with owner := .seq } &&
        t.statusWord == 0x412) = true := by decide
/-- X7 and X8. -/
theorem test_mbxXfer_fails :
    after (exec (.mbxXfer 0 0) (withSlot request)) (fun t => t.err == 12) = true ∧
      after (exec (.mbxXfer 0 1) finished) (fun t => t.err == 14) = true := by decide
/-- X17. -/
theorem test_mbxXstat :
    after (exec .mbxXstat { finished with r1 := 5 })
      (fun t => t.r0 == 6 && t.r1 == 0 && t.r2 == 0x00020003 && t.r3 == 0) = true := by decide
/-- X17. -/
theorem test_mbxXrd :
    after (exec (.mbxXrd 0) finished) (fun t => t.r0 == 0x11) = true ∧
      after (exec (.mbxXrd 2) finished) (fun t => t.err == 13) = true := by decide
/-- X18 and P1 line 20. -/
theorem test_mbxXclr :
    after (exec .mbxXclr finished) (fun t => t.mx.st == .idle && t.mx.rlen == 2 && t.err == 0) = true ∧
      after (exec .mbxXclr (withSlot request)) (fun t => t.err == 10) = true := by decide
/-- DV1. -/
theorem test_domCreate :
    after (exec (.domCreate 0 4) { conf with a0 := 0x10000 }) (fun t => t.dom == confDom.dom && t.err == 0) = true := by
  decide
/-- DV2, DV3 and DV4. -/
theorem test_domCreate_fails :
    after (exec (.domCreate 0 4) confDom) (fun t => t.err == 11) = true ∧
      after (exec (.domCreate 1 65) confDom) (fun t => t.err == 12) = true ∧
      after (exec (.domCreate 2 4) confDom) (fun t => t.err == 11) = true := by decide
/-- DV7 and DV11. -/
theorem test_domRegField :
    after (exec (.domRegField 0 0) { confDom with a0 := 0x200, a1 := 0x60000001 })
      (fun t => t.fld.head? == some field0 && t.fldcnt == 1 && t.r0 == 0 && t.err == 0) = true := by decide
/-- DV9 and DV10. -/
theorem test_domRegField_fails :
    after (exec (.domRegField 0 3) { confDom with a0 := 0x200 }) (fun t => t.err == 12) = true ∧
      after (exec (.domRegField 0 0) { confDom with a0 := 0x300 }) (fun t => t.err == 12) = true := by decide
/-- DV13. -/
theorem test_fldRd : after (exec (.fldRd 0) (act .sync .app [])) (fun t => t.r0 == 0x101 && t.err == 0) = true := by decide
/-- DV16 and DV17. -/
theorem test_fldRd_fails :
    after (exec (.fldRd 5) (act .sync .app [])) (fun t => t.err == 11) = true ∧
      after (exec (.fldRd 0) (act .sync .idle [])) (fun t => t.err == 10) = true := by decide
/-- DV15. -/
theorem test_fldWr :
    after (exec (.fldWr 0) { act .sync .app [] with a0 := 0xDEADBEEF })
      (fun t => t.dom.head? == some (dom0 [0xEF, 0xBE, 0, 0])) = true := by decide
/-- M20. -/
theorem test_dgRd : after (exec (.dgRd 0 7) (withSlot goodFrame)) (fun t => t.r0 == 0x22 && t.err == 0) = true := by decide
/-- M33 and M34. -/
theorem test_dgWr :
    after (exec (.dgWr 0 15) { withSlot request with a0 := 0x1A5 })
        (fun t => (t.slotAt 0).map (fun x => x.data.get 15) == some 0xA5 && t.err == 0) = true ∧
      after (exec (.dgWr 0 5) (withSlot request)) (fun t => t.err == 13) = true ∧
      after (exec (.dgWr 0 16) (withSlot request)) (fun t => t.err == 13) = true := by decide
/-- M35. -/
theorem test_dgWr_fails :
    after (exec (.dgWr 0 6) (withSlot (onWire 0 [0, 0, 0, 0, 0, 0, 0]))) (fun t => t.err == 10) = true := by decide
/-- M38. -/
theorem test_dgStat :
    after (exec (.dgStat 0) (withSlot (onWire 1 [1, 2, 3, 4])))
      (fun t => t.r0 == 2 && t.r1 == 0 && t.r2 == 4 && t.r3 == 0x00010202) = true := by decide
/-- M36 and M37. -/
theorem test_dgStat_free :
    after (exec (.dgStat 3) { withSlot request with r0 := 7 }) (fun t => t.r0 == 0 && t.err == 0) = true ∧
      after (exec (.dgStat 4) (withSlot request)) (fun t => t.err == 11) = true := by decide
/-- L2, and a reserved word (E24). -/
theorem test_reset_rejects :
    after (step (State.reset.withFetchWord 32 0x03000000)) (fun t => t.err == 10 && t.statusWord == 0x2000) = true ∧
      after (step (State.reset.withFetchWord 32 0)) (fun t => t.err == 15) = true := by decide

/-! ## Micro-operations, ticks and the host interface -/

/-- DV20. -/
theorem test_queueAll :
    let s := { act .sync .sending [none, none] with dom := [dom0 [1, 2, 3, 4], dom0 [5, 6]] }
    (s.queueAll.dg.map (fun x => x.map (fun y => (y.data.toBytes, y.owner)))) =
      [some ([1, 2, 3, 4], .dom 0), some ([5, 6], .dom 1)] := by decide
/-- X19: no slot for the second domain. -/
theorem test_queueAll_fatal :
    let s := { act .sync .sending [none] with dom := [dom0 [1, 2, 3, 4], dom0 [5, 6]] }
    s.queueAll.statusWord = 0x101 ∧ s.queueAll.dg = [none] := by decide
/-- DV18 and DV19. -/
theorem test_processAll :
    let linked := { dom0 [1, 1, 0, 0] with dg := some 0 }
    let s := act .sync .processing [some { onWire 0 [9, 8, 7, 6] with st := .done, status := .ok }]
    let s' := act .sync .processing [some { onWire 0 [9, 8, 7, 6] with st := .done, status := .notActed }]
    (State.processAll { s with dom := [linked] }).dom = [{ dom0 [9, 8, 7, 6] with wstate := .ok }] ∧
      (State.processAll { s' with dom := [linked] }).dom = [{ dom0 [1, 1, 0, 0] with wstate := .fail }] := by decide
/-- X10: a request that nobody acted on ends the exchange. -/
theorem test_mbxIn_failed :
    (waiting .sendWait 2 { goodFrame with status := .notActed }).mbxIn.mx.rcode = 8 ∧
      (waiting .sendWait 2 { goodFrame with status := .notActed }).mbxIn.mx.st = .done := by decide
/-- P1, cycles 3 and 4: a clear flag uses up one poll, a set flag leads to the fetch. -/
theorem test_mbxIn_poll :
    (waiting .pollWait 2 (answer [0, 0, 0, 0, 0, 0, 0, 0])).mbxIn.mx.budget = 1 ∧
      (waiting .pollWait 1 (answer [0, 0, 0, 0, 0, 8, 0, 0])).mbxIn.mx.st = .fetchReady := by decide
/-- P1, cycle 5. -/
theorem test_mbxIn_fetch :
    let m := (waiting .fetchWait 1 goodFrame).mbxIn.mx
    m.rtype = 3 ∧ m.rlen = 2 ∧ m.rbuf = { len := 64, mem := [(0, 0x11), (1, 0x22)] } ∧ m.rcode = 0 ∧ m.st = .done := by
  decide
/-- A listed answer of the wire; a Lost one is an overrun under the synchronous strategy (20_memory.md R86). -/
theorem test_recvAll :
    let s := act .sync .awaitingReceive [some (onWire 0 [1, 2])]
    let t := State.recvAll { s with wire := [{ status := .lost, bytes := [7, 8] }] }
    t.ovr = true ∧ t.dg = [some { onWire 0 [7, 8] with st := .done, status := .lost }] := by decide
/-- L10: the first tick starts cycle 1, the second waits, the third is lost. -/
theorem test_tick :
    (State.tick { act .sync .idle [] with elapsed := [1, 1] }).cycle = 1 ∧
      (State.tick (act .sync .app [])).statusWord = 0xD2 ∧
      (State.tick (State.tick (act .sync .app []))).statusWord = 0xD2 := by decide
/-- L9. -/
theorem test_tick_ignored : conf.tick = conf := by decide
/-- X5: a command written during Sending is held and runs on entry to App. -/
theorem test_held :
    after (step { act .sync .sending [] with inputs := [.write 0 0x22000000], todo := [.rel] })
        (fun t => t.held.isSome && t.todo == [.rel]) = true ∧
      after (step { act .sync .app [] with held := some { word := 0x22000000, a0 := 0, a1 := 0, a2 := 0, a3 := 0 } })
        (fun t => t.r0 == 0x101 && t.held.isNone) = true := by decide
/-- 60_exceptions.md R262. -/
theorem test_refusal :
    refusedAs (step { act .sync .sending [] with
        inputs := [.write 0 0], held := some { word := 0, a0 := 0, a1 := 0, a2 := 0, a3 := 0 } }) .commandWhileHeld = true := by
  decide
/-- 10_state.md R25: an offset that is not in the table, a multiple of 4 or not, reads 0 and ignores a write. -/
theorem test_unmapped :
    after (step { conf with rdata := 1, inputs := [.read 0x26] }) (fun t => t.rdata == 0) = true ∧
      after (step { conf with inputs := [.write 0x05 7] }) (fun t => t.a0 == conf.a0 && t.a1 == conf.a1) = true := by decide
/-- 70_reset_and_hazards.md R290: a read of STATUS waits until the held command has executed. -/
theorem test_accessWaits :
    let s := { act .sync .app [] with
      inputs := [.read 0x24], held := some { word := 0x22000000, a0 := 0, a1 := 0, a2 := 0, a3 := 0 } }
    after (step s) (fun t => t.r0 == 0x101 && t.held.isNone && t.inputs == s.inputs) = true := by decide
/-- L1, and a write to a read-only register (10_state.md R25). -/
theorem test_registers :
    after (step { State.reset with inputs := [.read 0x3C] }) (fun t => t.rdata == 1) = true ∧
      after (step { State.reset with inputs := [.write 0x14 5] }) (fun t => t.r0 == 0) = true := by decide
/-- Memory: a write of 0 takes the cell out, and the list stays in order. -/
theorem test_memory :
    Memory.write (Memory.write [] 3 7) 1 5 = [(1, 5), (3, 7)] ∧ Memory.write [(1, 5), (3, 7)] 1 0 = [(3, 7)] := by decide

/-! ## Witnesses: for every statement with hypotheses, a state and operands that meet them, clause by clause -/

/-- Idle with a cycle to come. -/
def idle : State := act .sync .idle [none, none, none, none]

/-- A held command. -/
def heldRead : Held := { word := 0x22000000, a0 := 1, a1 := 2, a2 := 3, a3 := 4 }

/-- A domain entry linked to slot 0. -/
def linked0 : Domain := { dom0 [1, 1, 0, 0] with dg := some 0 }

/-- Processing, with the answer to the domain's datagram in slot 0 and a second, invalid domain. -/
def answered (st : Status) : State :=
  { act .sync .processing [some { onWire 0 [9, 8, 7, 6] with st := .done, status := st }] with
    dom := [linked0, Domain.empty, linked0], todo := [.processAll, .mbxIn, .toApp] }

theorem witness_DecodeOfEncode : (Instr.dgRd 255 65535).wf = true ∧ (Instr.mbxFetch 0 255).wf = true := by decide

theorem witness_ReservedOpcodesAreIllegal :
    (∀ op ∈ [0x00, 0x07, 0x0F, 0x15, 0x17, 0x1C, 0x1F, 0x24, 0x2F, 0x33, 0xFF], reservedOpcode op) ∧
      (∀ op ∈ [0x01, 0x06, 0x10, 0x14, 0x18, 0x1B, 0x20, 0x23, 0x30, 0x32], ¬ reservedOpcode op) ∧
      reservedOpcode ((0x07FFFFFF : Word).toNat / 2 ^ 24) ∧ ¬ reservedOpcode ((0x06ABCDEF : Word).toNat / 2 ^ 24) := by
  unfold reservedOpcode
  decide

theorem witness_StepRunsThePresentedCommand :
    let s (p : Phase) (w : Word) := { act .sync p [] with inputs := [.write 0x00 w, .core] }
    (s .idle 0x22000000).inputs = .write 0x00 0x22000000 :: [.core] ∧ (s .idle 0).held = none ∧
      (s .idle 0).phase = .idle ∧ (s .app 0).phase = .app ∧ decode 0x22000000 = .ok (.fldRd 0) ∧
      reservedOpcode ((0x07000000 : Word).toNat / 2 ^ 24) ∧ reservedOpcode ((0xFF000000 : Word).toNat / 2 ^ 24) := by
  unfold reservedOpcode
  decide

theorem witness_StepHoldsACommandDuringTheCycle :
    let s (p : Phase) := { act .sync p [] with inputs := [.write 0x00 0x22000000] }
    (s .sending).inputs = .write 0x00 0x22000000 :: [] ∧ (s .sending).held = none ∧ (s .sending).phase = .sending ∧
      (s .awaitingReceive).phase = .awaitingReceive ∧ (s .processing).phase = .processing := by decide

theorem witness_HeldCommandRunsWithSampledArguments :
    let s (p : Phase) (l : List Input) (h : Held) := { act .sync p [] with held := some h, inputs := l }
    (s .app [] heldRead).inputs.head? = none ∧ (s .app [.core, .tick] heldRead).inputs.head? = some .core ∧
      (s .app [] heldRead).todo = [] ∧ (s .app [] heldRead).held = some heldRead ∧ (s .app [] heldRead).phase = .app ∧
      (s .idle [] heldRead).phase = .idle ∧ decode heldRead.word = .ok (.fldRd 0) ∧
      reservedOpcode ({ heldRead with word := 0x07000000 }.word.toNat / 2 ^ 24) ∧
      ∃ t, exec (.fldRd 0) { s .app [] heldRead with held := none, a0 := 1, a1 := 2, a2 := 3, a3 := 4 } = .next t := by
  refine ⟨rfl, rfl, rfl, rfl, rfl, rfl, by decide, ?_, _, rfl⟩
  unfold reservedOpcode
  decide

theorem witness_SecondCommandIsRefused :
    let s (p : Phase) := { act .sync p [] with inputs := [.write 0x00 0], held := some heldRead }
    (s .sending).inputs = .write 0x00 0 :: [] ∧ (s .sending).held = some heldRead ∧ (s .sending).phase = .sending ∧
      (s .awaitingReceive).phase = .awaitingReceive ∧ (s .processing).phase = .processing ∧ (s .idle).phase = .idle ∧
      (s .app).phase = .app := by decide

theorem witness_CoreTurnRunsTheNextMicroOperation :
    let s (l : List MicroOp) := { act .sync .sending [] with todo := l, inputs := [.core, .tick] }
    (s [.rel]).inputs.head? = some .core ∧ idle.inputs.head? = none ∧ (s [.rel, .queueAll]).todo = .rel :: [.queueAll] ∧
      (s [.toAwaiting, .recvAll]).todo = .toAwaiting :: [.recvAll] ∧
      (s [.toProcessing, .processAll]).todo = .toProcessing :: [.processAll] ∧ (s [.toApp]).todo = .toApp :: [] ∧
      idle.todo = [] ∧ idle.held = none := by decide

theorem witness_TickIsAcceptedHeldOrLost :
    let s (p : Phase) := { act .sync p [] with inputs := [.tick] }
    { conf with inputs := [.tick] }.inputs = .tick :: [] ∧ conf.life ≠ .active ∧
      (s .idle).life = .active ∧ (s .idle).phase = .idle ∧ (s .app).phase ≠ .idle ∧ (s .app).tickpend = false ∧
      { s .app with tickpend := true }.tickpend = true := by decide

theorem witness_RegisterMapReadsAndWrites :
    let due (e : Input) := { act .sync .app [] with inputs := [e], held := some heldRead }
    (∀ offset ∈ [0x00, 0x03, 0x04, 0x10, 0x14, 0x26, 0x44, 0x45, 0x48],
      { conf with inputs := [.read offset] }.inputs = .read offset :: []) ∧
      { conf with inputs := [.write 0x10 7] }.inputs = .write 0x10 7 :: [] ∧ 0x10 ≠ 0x00 ∧ 0x26 ≠ 0x00 ∧
      ¬ (conf.held ≠ none ∧ (conf.phase = .idle ∨ conf.phase = .app)) ∧
      (due (.read 0x24)).inputs = .read 0x24 :: [] ∧ (due (.write 0x04 7)).inputs = .write 0x04 7 :: [] ∧
      (due (.read 0x24)).held ≠ none ∧ (due (.read 0x24)).phase = .app := by decide

theorem witness_AfterResetOnlyAcquireSucceeds :
    Instr.activate .sync ≠ .acquire ∧ reservedOpcode ((0x07000000 : Word).toNat / 2 ^ 24) := by
  unfold reservedOpcode
  decide

theorem witness_ResetEventRestoresTheResetState :
    { withSlot request with inputs := [.reset, .core] }.inputs = .reset :: [.core] := by decide

theorem witness_PermissionTable :
    denial (.fldRd 0) idle = some .badState ∧ denial (.domCreate 0 4) idle = some .domainAlreadyActive ∧
      denial (.fldRd 0) (act .sync .app []) = none := by decide

theorem witness_FailingCommandIsPrecise :
    after (exec (.mbxFetch 0 0) (withSlot longFrame)) (fun t => t.err == 3 && t.err != 0) = true ∧
      after (exec (.mbxFetch 0 0) (withSlot errorFrame)) (fun t => t.err.toNat % 256 == 4) = true ∧
      after (exec (.mbxPrepCheck 0) (act .sync .app [some request])) (fun t => t.err == 9) = true ∧
      after (exec .acquire idle) (fun t => t.err == 10) = true := by decide

theorem witness_CommandsKeepArguments :
    ∃ t, exec (.fldRd 9) (act .sync .app []) = .next t ∧ t.err ≠ 0 := ⟨_, rfl, by decide⟩

theorem witness_ConfigurationLockedWhileActive :
    idle.life = .active ∧ idle.inputs.head? ≠ some .reset ∧ ∃ t, step idle = .next t := ⟨rfl, by decide, _, rfl⟩

theorem witness_LifecycleTransitions :
    (after (exec .acquire State.reset) (fun t => t.life != State.reset.life) &&
      after (exec (.activate .sync) { conf with a0 := 1 }) (fun t => t.life != conf.life) &&
      after (exec .release conf) (fun t => t.life != conf.life) &&
      after (exec .deactivate idle) (fun t => t.life != idle.life) &&
      after (exec (.mbxPrepFetch 0) (act .sync .app [])) (fun t => t.life != .active)) = true ∧
      (State.runMicro (act .sync .sending []) .queueAll).life ≠ .active := by decide

theorem witness_StickyFlagsClearOnlyByAcquireOrReset :
    let s := { act .sync .app [none] with ovr := true, fatal := true }
    (∃ t, exec .deactivate s = .next t) ∧ Instr.deactivate ≠ .acquire ∧ s.ovr = true ∧ s.fatal = true ∧
      State.reset.life = .released ∧ (∃ t, exec .acquire State.reset = .next t) :=
  ⟨⟨_, rfl⟩, by decide, rfl, rfl, rfl, ⟨_, rfl⟩⟩

theorem witness_SlotsMoveOnlyForward :
    let s := { withSlot request with todo := [.sendAll] }
    s.life = .active ∧ s.inputs.head? ≠ some .reset ∧ (∃ t, step s = .next t ∧ t.life = .active) ∧
      ∃ t, step { withSlot request with inputs := [.write 0 0x04000000] } = .next t ∧ t.life ≠ .active :=
  ⟨rfl, by decide, ⟨_, rfl, rfl⟩, ⟨_, rfl, by decide⟩⟩

/-- The App window of a consistent state: the state of the witnesses of the invariants. -/
theorem witness_consistent : (act .sync .app [none]).consistent := by
  have hdom : ∀ (d : Nat) (x : Domain), (act .sync .app [none]).dom[d]? = some x → x.dg = none := by
    intro d x hx
    match d, hx with
    | 0, hx => cases hx; rfl
    | 1, hx => cases hx; rfl
  refine ⟨.inr rfl, fun h => absurd rfl h, ?_, ?_, ?_, ⟨by decide, ?_⟩, ?_, ?_⟩
  · intro d x q hx hq
    rw [hdom d x hx] at hq
    cases hq
  · intro h
    cases h
  · intro _
    decide
  · intro h f hf
    match h, hf with
    | 0, hf => cases hf; exact ⟨by decide, fun _ => ⟨by decide, ⟨_, rfl⟩, _, rfl, by decide⟩⟩
    | h + 1, hf =>
      have hm := List.mem_of_getElem? (l := List.replicate 7 Field.empty) hf
      rw [(List.mem_replicate.1 hm).2]
      exact ⟨by simp [Field.empty, act], fun hv => by cases hv⟩
  · intro h
    cases h
  · intro h
    cases h

theorem witness_StepKeepsTheInvariantsOfR60 :
    (act .sync .app [none]).consistent ∧ ∃ t, step (act .sync .app [none]) = .next t :=
  ⟨witness_consistent, _, rfl⟩

theorem witness_StepKeepsBuffersCanonical :
    (withSlot request).buffersWf = true ∧ ∃ t, step (withSlot request) = .next t := ⟨by decide, _, rfl⟩

theorem witness_sized : (act .sync .app [none]).sized := by
  refine ⟨by unfold State.parametersOk; decide, by decide, by decide, ?_, rfl⟩
  intro y hy
  simp [act] at hy

theorem witness_StepKeepsSizesWithinBounds :
    (act .sync .app [none]).sized ∧ ∃ t, step (act .sync .app [none]) = .next t := ⟨witness_sized, _, rfl⟩

/-- T_PRE 3, T_POST 5, time base 7, as in the App window or while the asynchronous batch is sent. -/
def timed (σ : Strategy) (p : Phase) : State := { act σ p [none] with tPre := 3, tPost := 5, now := 7 }

theorem witness_timely : (timed .sync .app).timely ∧ (timed .async .sending).timely := by
  unfold State.timely
  decide

theorem witness_StepKeepsTelemetryInOrder :
    (act .sync .app [none]).consistent ∧ (act .sync .app [none]).timely ∧
      ∃ t, step (act .sync .app [none]) = .next t :=
  ⟨witness_consistent, by unfold State.timely; decide, _, rfl⟩

theorem witness_EndOfCycleOrdersTelemetry :
    (timed .sync .app).timely ∧ (timed .sync .app).phase = .app ∧ (timed .async .sending).timely ∧
      (timed .async .sending).phase = .sending ∧ (timed .async .sending).strategy = .async ∧
      (timed .sync .app).tickpend = false ∧ { timed .async .sending with tickpend := true }.tickpend = true :=
  ⟨witness_timely.1, rfl, witness_timely.2, rfl, rfl, rfl, rfl⟩

theorem witness_ResetMeetsTheInvariants :
    let p (n : Nat) := { Config.standard with dgmax := n }
    let z (a b c d : Nat) : Config.Sizes := { nslave := a, ndom := b, nfield := c, ndg := d }
    16 ≤ (p 16).dgmax ∧ (p 65535).dgmax ≤ 65535 ∧ 1 ≤ (z 1 1 1 1).nslave ∧ (z 256 256 65536 256).nslave ≤ 256 ∧
      1 ≤ (z 1 1 1 1).ndom ∧ (z 256 256 65536 256).ndom ≤ 256 ∧ 1 ≤ (z 1 1 1 1).nfield ∧
      (z 256 256 65536 256).nfield ≤ 65536 ∧ 1 ≤ (z 1 1 1 1).ndg ∧ (z 256 256 65536 256).ndg ≤ 256 := by decide

theorem witness_CycleReachesTheAppWindow :
    let s := { idle with inputs := [.tick] }
    s.life = .active ∧ s.phase = .idle ∧ s.todo = [] ∧ s.held = none ∧ s.inputs = [.tick] := by decide

theorem witness_RecvAllCompletesEverySlotInFlight :
    let s := act .sync .awaitingReceive [some (onWire 0 [1, 2]), some request]
    s.slotAt 0 = some (onWire 0 [1, 2]) ∧ (onWire 0 [1, 2]).st = .inFlight ∧ s.slotAt 1 = some request ∧
      request.st ≠ .inFlight ∧ s.slotAt 2 = none := by decide

theorem witness_QueueAllSendsEveryBuffer :
    let s (slots : List Slot) := act .sync .sending slots
    let free (l : List Slot) := (l.filter Option.isNone).length
    let valid (l : List Domain) := (l.filter (fun x => x.valid)).length
    free (s [some request]).dg < valid (s [some request]).dom ∧
      valid (s [some request, none, none]).dom ≤ free (s [some request, none, none]).dg ∧
      (s []).dom[0]? = some (dom0 [1, 1, 0, 0]) ∧ (dom0 [1, 1, 0, 0]).valid = true ∧
      (s []).dom[1]? = some Domain.empty ∧ Domain.empty.valid = false ∧
      (s [some request, none, none]).slotAt 0 = some request ∧ (s [some request, none, none]).slotAt 2 = none ∧
      valid (s [some request, none, none]).dom ≤ free ((s [some request, none, none]).dg.take 2) := by decide

theorem witness_ProcessAllCopiesAnswers :
    (answered .ok).dom[0]? = some linked0 ∧ linked0.valid = true ∧ linked0.dg = some 0 ∧
      (answered .ok).doneAt 0 = some { onWire 0 [9, 8, 7, 6] with st := .done, status := .ok } ∧
      (answered .lost).doneAt 0 = some { onWire 0 [9, 8, 7, 6] with st := .done, status := .lost } ∧
      (answered .ok).dom[1]? = some Domain.empty ∧ Domain.empty.valid = false ∧
      (act .sync .processing [some (onWire 0 [1])]).doneAt 0 = none := by decide

theorem witness_SendAllAndRel :
    (withSlot request).slotAt 0 = some request ∧ request.st = .queued ∧ (withSlot goodFrame).slotAt 0 = some goodFrame ∧
      goodFrame.st = .done ∧ (withSlot goodFrame).slotAt 3 = none := by decide

theorem witness_MbxOutIssuesPollOrFetch :
    let s (st : MxState) (slots : List Slot) := { act .sync .sending slots with mx := { Sequencer.empty 64 with st := st } }
    (s .pollReady [none]).slv[(s .pollReady [none]).mx.slave]? = some slave0 ∧
      firstFree (s .pollReady [none]).dg = some 0 ∧ (s .pollReady [none]).mx.st = .pollReady ∧
      (s .fetchReady [none]).mx.st = .fetchReady ∧ firstFree (s .fetchReady [some request]).dg = none ∧
      (s .done [none]).mx.st ≠ .pollReady ∧ (s .done [none]).mx.st ≠ .fetchReady := by decide

theorem witness_MbxInFollowsTheExchange :
    let clear := { answer [0, 0, 0, 0, 0, 0xF7] with owner := .seq }
    let set := { answer [0, 0, 0, 0, 0, 8] with owner := .seq }
    idle.mx.st ≠ .sendWait ∧ idle.mx.st ≠ .pollWait ∧ idle.mx.st ≠ .fetchWait ∧ idle.doneAt idle.mx.dg = none ∧
      (waiting .sendWait 2 clear).doneAt 0 = some clear ∧ (waiting .sendWait 2 clear).mx.dg = 0 ∧
      clear.status ≠ .notActed ∧ clear.status ≠ .lost ∧ (clear.data.get 5).getLsbD 3 = false ∧
      (set.data.get 5).getLsbD 3 = true ∧ (waiting .pollWait 2 clear).mx.budget.toNat = 2 ∧
      (waiting .pollWait 1 clear).mx.budget.toNat = 1 ∧
      (waiting .fetchWait 1 { clear with status := .lost }).doneAt 0 = some { clear with status := .lost } := by decide

/-- The sequencer waits for its fetch, and slot 0 holds the answer. -/
def fetching (x : Datagram) : State := waiting .fetchWait 1 x

theorem fetching_sized (x : Datagram) (h : x.data.len ≤ 64) : (fetching x).sized := by
  have hp : (withSlot request).parametersOk := by
    unfold State.parametersOk
    decide
  refine ⟨hp, ?_, ?_, ?_, rfl⟩
  · exact witness_sized.2.1
  · exact witness_sized.2.2.1
  · intro y hy
    have : y = { x with owner := .seq } := by simpa [fetching, waiting, withSlot, act] using hy
    rw [this]
    exact h

theorem witness_SequencedFetchKeepsThePayload :
    (fetching goodFrame).sized ∧ (fetching goodFrame).buffersWf = true ∧ (fetching goodFrame).mx.st = .fetchWait ∧
      (fetching goodFrame).slv[(fetching goodFrame).mx.slave]? = some slave0 ∧
      (fetching goodFrame).doneAt (fetching goodFrame).mx.dg = some { goodFrame with owner := .seq } ∧
      goodFrame.status ≠ .notActed ∧ goodFrame.status ≠ .lost ∧
      fetchDecode slave0.txSize.toNat goodFrame.data = .data 3 2 ∧
      fetchDecode slave0.txSize.toNat longFrame.data = .corrupt ∧
      fetchDecode slave0.txSize.toNat errorFrame.data = .errorReply 2 ∧
      fetchDecode slave0.txSize.toNat (answer [0, 0, 0, 0, 0]).data = .bounds ∧
      (fetching longFrame).sized ∧ (fetching errorFrame).sized ∧ (fetching (answer [0, 0, 0, 0, 0])).sized := by
  refine ⟨fetching_sized _ (by decide), by decide, by decide, by decide, by decide, by decide, by decide, by decide,
    by decide, by decide, by decide, fetching_sized _ (by decide), fetching_sized _ (by decide),
    fetching_sized _ (by decide)⟩

theorem witness_MailboxExchangeIsBounded :
    let s := waiting .pollWait 1 (answer [])
    s.mx.st.waiting = true ∧ 1 ≤ s.mx.budget.toNat ∧ s.doneAt s.mx.dg = some { answer [] with owner := .seq } ∧
      idle.doneAt idle.mx.dg = none := by decide

theorem witness_HostTickEveryKthCycle : idle.tickcnt = 0 ∧ 1 ≤ idle.kdiv.toNat ∧ MicroOp.toApp ≠ .endCycle := by decide

theorem witness_EchoRoundTrip :
    let start (σ : Strategy) (p : Phase) (l : List Input) := { act σ p [none, none, none, none] with inputs := l }
    let s (σ : Strategy) (p : Phase) (l : List Input) :=
      { start σ p l with wire := echoWire (start σ p l).sendBatch.dg }
    let sync := s .sync .idle [.tick]
    let async := s .async .app [.write 0x00 0x06000000, .core, .core, .core, .core, .core, .tick]
    sync.buffersWf = true ∧ sync.life = .active ∧ sync.sendBatch.life = .active ∧
      sync.wire = echoWire sync.sendBatch.dg ∧ sync.strategy = .sync ∧ sync.phase = .idle ∧ sync.todo = [] ∧
      sync.held = none ∧ sync.dom[0]? = some (dom0 [1, 1, 0, 0]) ∧ (dom0 [1, 1, 0, 0]).valid = true ∧
      async.buffersWf = true ∧ async.life = .active ∧ async.sendBatch.life = .active ∧
      async.wire = echoWire async.sendBatch.dg ∧ async.strategy = .async ∧ async.phase = .app ∧
      async.tickpend = false ∧ async.todo = [] ∧ async.held = none := by decide

theorem witness_MemWriteThenMemRead :
    let b := Buf.ofBytes [1, 2, 0, 4]
    b.wf = true ∧ 0 + 4 ≤ b.len ∧ 4 + 0 ≤ b.len ∧ 3 + 1 ≤ b.len ∧ b.len < 1 + 4 ∧ b.len < 4 + 1 := by decide

theorem witness_FetchDecodeTestsInOrder :
    let b := Buf.ofBytes [0, 0, 0, 0, 0]
    let reply := Buf.ofBytes [0, 0, 0, 0, 0, 0x10, 0, 0, 2, 0]
    let data := Buf.ofBytes [2, 0, 0, 0, 0, 3, 1, 2]
    let value (c : Buf) := (c.get 0).toNat + 256 * (c.get 1).toNat
    5 < 6 ∧ b.len < 6 ∧ 6 ≤ reply.len ∧ 6 ≤ data.len ∧ 7 < value data + 6 ∧ value data + 6 ≤ 8 ∧
      (reply.get 5).toNat % 16 = 0 ∧ 10 ≤ reply.len ∧ value reply + 6 ≤ 6 ∧ (data.get 5).toNat % 16 ≠ 0 ∧
      6 + value data ≤ data.len ∧ (Buf.ofBytes [0, 0, 0, 0, 0, 0, 0, 0, 0]).len < 10 ∧
      (Buf.ofBytes [2, 0, 0, 0, 0, 3, 1]).len < 6 + value data := by decide

theorem witness_AcquireStartsASession : idle.life ≠ .released ∧ State.reset.life = .released := by decide

theorem witness_SlaveSetWritesOneEntry :
    let size (n : Word) := (n.extractLsb' 16 16 : Half).toNat
    idle.life ≠ .configuring ∧ conf.life = .configuring ∧ conf.nslave ≤ 4 ∧ 3 < conf.nslave ∧
      conf.par.dgmax < size 0x00410000 ∧ size 0x00400000 ≤ conf.par.dgmax := by decide

theorem witness_ActivateStartsCyclicOperation :
    idle.life ≠ .configuring ∧ { conf with fatal := true }.fatal = true ∧ conf.life = .configuring ∧ conf.fatal = false ∧
      conf.a0 = 0 ∧ { conf with a0 := 1 }.a0 ≠ 0 := by decide

theorem witness_DeactivateAndRelease :
    conf.life ≠ .active ∧ idle.life = .active ∧ idle.life ≠ .configuring ∧ conf.life = .configuring := by decide

theorem witness_AppDoneEndsTheWindow :
    let s := act .sync .app []
    conf.life ≠ .active ∧ idle.phase ≠ .app ∧ s.life = .active ∧ s.phase = .app ∧ s.strategy = .sync ∧
      (act .async .app []).strategy = .async ∧ s.tickpend = false ∧ { s with tickpend := true }.tickpend = true := by
  decide

theorem witness_MbxXferStartsAnExchange :
    let s := withSlot request
    conf.life ≠ .active ∧ s.life = .active ∧ s.ndg ≤ 4 ∧ 3 < s.ndg ∧ finished.mx.st ≠ .idle ∧ s.mx.st = .idle ∧
      s.slotAt 3 = none ∧ (withSlot goodFrame).slotAt 0 = some goodFrame ∧ goodFrame.st ≠ .queued ∧
      s.slotAt 0 = some request ∧ request.st = .queued ∧ request.kind = .write ∧ request.owner = .host ∧
      request.slv = some 0 := by decide

theorem witness_MbxXstatAndXclr :
    conf.life ≠ .active ∧ idle.life = .active ∧ idle.mx.st ≠ .done ∧ finished.life = .active ∧ finished.mx.st = .done := by
  decide

theorem witness_MbxXrdReadsTheResponse :
    conf.life ≠ .active ∧ idle.life = .active ∧ idle.mx.st ≠ .done ∧ finished.life = .active ∧ finished.mx.st = .done ∧
      finished.mx.rcode = 0 ∧ finished.mx.rlen.toNat ≤ 2 ∧ 1 < finished.mx.rlen.toNat ∧
      (Sequencer.finish finished.mx 5).rcode ≠ 0 := by decide

theorem witness_MbxPrepSendFramesARequest :
    let s := act .sync .app [none]
    conf.life ≠ .active ∧ s.life = .active ∧ s.slaveAt 2 = none ∧ s.slaveAt 4 = none ∧ s.slaveAt 1 = some slave1 ∧
      slave1.protocols = 0 ∧ s.slaveAt 0 = some slave0 ∧ slave0.protocols ≠ 0 ∧ slave0.rxSize.toNat < 11 + 6 ∧
      10 + 6 ≤ slave0.rxSize.toNat ∧ firstFree s.dg = some 0 ∧ firstFree (act .sync .app [some request]).dg = none := by
  decide

theorem witness_MbxPrepCheckAndFetchQueueARead :
    let s := withSlot request
    conf.life ≠ .active ∧ s.life = .active ∧ s.slaveAt 4 = none ∧ s.slaveAt 0 = some slave0 ∧ firstFree s.dg = some 1 ∧
      firstFree (act .sync .app [some request]).dg = none := by decide

theorem witness_MbxCheckTestsTheReadinessFlag :
    let s := withSlot goodFrame
    conf.life ≠ .active ∧ s.life = .active ∧ s.ndg ≤ 4 ∧ 3 < s.ndg ∧ s.slotAt 3 = none ∧
      (withSlot request).slotAt 0 = some request ∧ request.st ≠ .done ∧ s.slotAt 0 = some goodFrame ∧
      goodFrame.st = .done ∧ (answer [0, 0, 0, 0, 0]).data.len < 6 ∧ 6 ≤ (answer [0, 0, 0, 0, 0, 8]).data.len := by decide

theorem witness_MbxFetchValidatesAndDecodes :
    let s := withSlot goodFrame
    conf.life ≠ .active ∧ s.life = .active ∧ s.ndg ≤ 4 ∧ s.slaveAt 2 = none ∧ s.slaveAt 0 = some slave0 ∧ 3 < s.ndg ∧
      s.slotAt 3 = none ∧ s.slotAt 0 = some goodFrame ∧ goodFrame.st = .done ∧
      fetchDecode slave0.txSize.toNat longFrame.data = .corrupt ∧
      fetchDecode slave0.txSize.toNat (answer [0, 0, 0, 0, 0]).data = .bounds ∧
      fetchDecode slave0.txSize.toNat errorFrame.data = .errorReply 2 ∧
      fetchDecode slave0.txSize.toNat goodFrame.data = .data 3 2 := by decide

theorem witness_DgRdReadsOneByte :
    let s := withSlot goodFrame
    conf.life ≠ .active ∧ s.life = .active ∧ s.ndg ≤ 4 ∧ 3 < s.ndg ∧ s.slotAt 3 = none ∧ s.slotAt 0 = some goodFrame ∧
      goodFrame.data.len ≤ 16 ∧ 15 < goodFrame.data.len := by decide

theorem witness_DgWrWritesOneByte :
    let s := withSlot request
    s.buffersWf = true ∧ conf.buffersWf = true ∧ conf.life ≠ .active ∧ s.life = .active ∧ s.ndg ≤ 4 ∧ 3 < s.ndg ∧
      s.slotAt 3 = none ∧ s.slotAt 0 = some request ∧ request.st = .queued ∧ request.kind = .write ∧
      request.owner = .host ∧ 5 < 6 ∧ request.data.len ≤ 16 ∧ 6 ≤ 15 ∧ 15 < request.data.len := by decide

theorem witness_DgStatShowsTheBookkeeping :
    let s := withSlot goodFrame
    conf.life ≠ .active ∧ s.life = .active ∧ s.ndg ≤ 4 ∧ 3 < s.ndg ∧ s.slotAt 3 = none ∧ s.slotAt 0 = some goodFrame := by
  decide

theorem witness_DomCreateMakesADomain :
    idle.life = .active ∧ State.reset.life = .released ∧ confDom.life = .configuring ∧ confDom.ndom ≤ 2 ∧
      confDom.dom[0]? = some (dom0 [0, 0, 0, 0]) ∧ (dom0 [0, 0, 0, 0]).valid = true ∧
      confDom.dom[1]? = some Domain.empty ∧ Domain.empty.valid = false ∧ confDom.par.dgmax < 65 ∧
      1 ≤ 64 ∧ 64 ≤ confDom.par.dgmax := by decide

theorem witness_DomRegFieldGivesOutAHandle :
    let s (a0 : Word) := { confDom with a0 := a0 }
    let slave (a0 : Word) := (a0.extractLsb' 0 8 : Byte).toNat
    let width (a0 : Word) := (a0.extractLsb' 8 8 : Byte).toNat
    idle.life = .active ∧ State.reset.life = .released ∧ (s 0).life = .configuring ∧ (s 0).domainAt 1 = none ∧
      (s 4).slaveAt (slave 4) = none ∧ (s 0x200).domainAt 0 = some (dom0 [0, 0, 0, 0]) ∧
      (s 0x200).slaveAt (slave 0x200) = some slave0 ∧ ¬ (width 0x300 = 1 ∨ width 0x300 = 2 ∨ width 0x300 = 4) ∧
      width 0x200 = 2 ∧ (dom0 [0, 0, 0, 0]).buf.len < 3 + width 0x200 ∧ 2 + width 0x200 ≤ (dom0 [0, 0, 0, 0]).buf.len ∧
      { confDom with fldcnt := 8 }.nfield ≤ 8 ∧ 7 < confDom.nfield := by decide

theorem witness_FldRdReadsTheField :
    let s := act .sync .app [none]
    conf.life ≠ .active ∧ idle.phase ≠ .app ∧ s.consistent ∧ s.life = .active ∧ s.phase = .app ∧ s.fldcnt ≤ 1 ∧
      0 < s.fldcnt :=
  ⟨by decide, by decide, witness_consistent, rfl, rfl, by decide, by decide⟩

theorem witness_FldWrWritesTheField :
    let s := act .sync .app [none]
    conf.life ≠ .active ∧ idle.phase ≠ .app ∧ s.consistent ∧ s.buffersWf = true ∧ s.life = .active ∧ s.phase = .app ∧
      s.fldcnt ≤ 1 ∧ 0 < s.fldcnt :=
  ⟨by decide, by decide, witness_consistent, by decide, rfl, rfl, by decide, by decide⟩

theorem witness_FieldReadAfterWrite :
    let s := act .sync .app [none]
    s.consistent ∧ s.buffersWf = true ∧ s.life = .active ∧ s.phase = .app ∧ 0 < s.fldcnt ∧ s.fld[0]? = some field0 ∧
      ∃ t, exec (.fldWr 0) s = .next t :=
  ⟨witness_consistent, by decide, rfl, rfl, by decide, rfl, _, rfl⟩

end Sys2Proof.Tests
end

section
/-! The proofs of the family of 00_scope.md: the bounds of R8 as an invariant, and the byte accesses of R12. -/

namespace Sys2Proof.Machine

/-! ## Multi-byte accesses (00_scope.md R12) -/

/-- Byte `k` of a register value. -/
theorem Word.byte_toNat (v : Word) (k : Nat) : (v.extractLsb' (8 * k) 8).toNat = v.toNat / 256 ^ k % 256 := by
  rw [BitVec.extractLsb'_toNat, Nat.shiftRight_eq_div_pow, Nat.pow_mul]

/-- The byte `MemWrite` puts at `a + k`. -/
theorem Buf.putBytes_get_written {b : Buf} (h : b.wf = true) {a n k : Nat} (v : Word) (hn : a + n ≤ b.len) (hk : k < n) :
    (b.putBytes a v n).get (a + k) = v.extractLsb' (8 * k) 8 := by
  rw [Buf.putBytes_get h a v n hn, if_pos (by omega), Nat.add_sub_cancel_left]

/-- `MemWrite` leaves the bytes outside its range. -/
theorem Buf.putBytes_get_frame {b : Buf} (h : b.wf = true) {a n i : Nat} (v : Word) (hn : a + n ≤ b.len)
    (hi : i < a ∨ a + n ≤ i) : (b.putBytes a v n).get i = b.get i := by
  rw [Buf.putBytes_get h a v n hn, if_neg (by omega)]

/-- Read after write of the same bytes. -/
theorem Buf.putBytes_memRead {b : Buf} (h : b.wf = true) {a n : Nat} (v : Word) (hn : a + n ≤ b.len) :
    (b.putBytes a v n).memRead a n = some (v.toNat % 256 ^ n) := by
  refine Buf.memRead_eq_some.2 ⟨by rwa [Buf.putBytes_len], ?_⟩
  exact (Buf.sumBytes_of_bytes _ a v n fun k hk => Buf.putBytes_get_written h v hn hk).symm

/-- Settles O39: inside the buffer `MemWrite` is `putBytes`, whose laws give each clause. -/
theorem memWriteThenMemRead : Obligations.MemWriteThenMemRead := by
  unfold Obligations.MemWriteThenMemRead
  intro b a n v hb _
  refine ⟨fun hin => ?_, fun hpast => ?_⟩
  · refine ⟨b.putBytes a v n, Buf.memWrite_eq_some.2 ⟨hin, rfl⟩, Buf.putBytes_wf hb a v n, Buf.putBytes_len b a v n,
      Buf.putBytes_memRead hb v hin, fun i hi => Buf.putBytes_get_frame hb v hin hi, fun k hk => ?_⟩
    rw [Buf.putBytes_get_written hb v hin hk, Word.byte_toNat]
  · have hout : ¬ a + n ≤ b.len := by omega
    exact ⟨if_neg hout, if_neg hout⟩

/-! ## Tables of a fixed length whose entries keep a property -/

/-- `l'` is as long as `l`, and where all entries of `l` have the property so have those of `l'`. -/
def TableKept {α : Type} (P : α → Prop) (l l' : List α) : Prop :=
  l'.length = l.length ∧ ((∀ x ∈ l, P x) → ∀ x ∈ l', P x)

section
variable {α : Type} {P : α → Prop}

theorem TableKept.refl (l : List α) : TableKept P l l := ⟨rfl, id⟩

theorem TableKept.set {y : α} (l : List α) (i : Nat) (hy : P y) : TableKept P l (l.set i y) :=
  ⟨List.length_set, fun h _ hx => (List.mem_or_eq_of_mem_set hx).elim (h _) (· ▸ hy)⟩

theorem TableKept.map {f : α → α} (l : List α) (hf : ∀ x, P x → P (f x)) : TableKept P l (l.map f) :=
  ⟨List.length_map f, fun h => List.forall_mem_map.2 fun x hx => hf x (h x hx)⟩

/-- Entry by entry. -/
theorem TableKept.of_getElem {l l' : List α} (hlen : l'.length = l.length)
    (h : ∀ (i : Nat) x y, l[i]? = some x → l'[i]? = some y → P x → P y) : TableKept P l l' := by
  refine ⟨hlen, fun hl y hy => ?_⟩
  obtain ⟨i, hi, rfl⟩ := List.mem_iff_getElem.1 hy
  have hi' : i < l.length := hlen ▸ hi
  exact h i l[i] l'[i] (List.getElem?_eq_getElem hi') (List.getElem?_eq_getElem hi) (hl _ (List.getElem_mem hi'))

end

/-! ## The size bounds (10_state.md R40, R42, R46) -/

/-- Both mailboxes of a slave are at most `n` bytes (10_state.md R40). -/
def slaveFits (n : Nat) (e : Slave) : Prop := e.rxSize.toNat ≤ n ∧ e.txSize.toNat ≤ n

/-- The exchange buffer of a domain is at most `n` bytes, and not empty where the domain is valid (10_state.md R42). -/
def domainFits (n : Nat) (x : Domain) : Prop := x.buf.len ≤ n ∧ (x.valid = true → 1 ≤ x.buf.len)

/-- The data of a slot is at most `n` bytes (10_state.md R46). -/
def slotFits (n : Nat) (o : Slot) : Prop := ∀ y, o = some y → y.data.len ≤ n

theorem slaveFits_empty (n : Nat) : slaveFits n Slave.empty := ⟨Nat.zero_le n, Nat.zero_le n⟩

theorem domainFits_empty (n : Nat) : domainFits n Domain.empty := ⟨Nat.zero_le n, fun h => nomatch h⟩

/-- The bound of a domain depends on its validity and the length of its buffer only. -/
theorem domainFits_congr {n : Nat} {x y : Domain} (hv : y.valid = x.valid) (hl : y.buf.len = x.buf.len)
    (h : domainFits n x) : domainFits n y := by
  unfold domainFits at *
  rwa [hv, hl]

theorem slotFits_none (n : Nat) : slotFits n none := fun _ h => nomatch h

@[simp] theorem slotFits_some (n : Nat) (y : Datagram) : slotFits n (some y) ↔ y.data.len ≤ n := by
  simp [slotFits]

/-- The size bounds, table by table. -/
theorem State.sizesOk_iff (s : State) :
    s.sizesOk ↔ (∀ e ∈ s.slv, slaveFits s.par.dgmax e) ∧ (∀ x ∈ s.dom, domainFits s.par.dgmax x) ∧
      (∀ o ∈ s.dg, slotFits s.par.dgmax o) ∧ s.mx.rbuf.len = s.par.dgmax := by
  have hdg : (∀ y, some y ∈ s.dg → y.data.len ≤ s.par.dgmax) ↔ ∀ o ∈ s.dg, slotFits s.par.dgmax o :=
    ⟨fun h o ho y hy => h y (hy ▸ ho), fun h y hy => h _ hy y rfl⟩
  unfold State.sizesOk
  rw [hdg]
  rfl

/-! ### What the bounds say of the entry a command names -/

section
variable {s : State}

theorem State.sized.sixteen_le_dgmax (hs : s.sized) : 16 ≤ s.par.dgmax := hs.1.1

theorem State.sized.rbuf_len (hs : s.sized) : s.mx.rbuf.len = s.par.dgmax :=
  ((State.sizesOk_iff s).1 hs.2).2.2.2

theorem State.sized.slaveAt_fits (hs : s.sized) {v : Nat} {e : Slave} (h : s.slaveAt v = some e) :
    slaveFits s.par.dgmax e :=
  ((State.sizesOk_iff s).1 hs.2).1 e (List.mem_of_getElem? (State.slaveAt_eq_some.1 h).1)

theorem State.sized.dom_fits (hs : s.sized) {d : Nat} {x : Domain} (h : s.dom[d]? = some x) :
    domainFits s.par.dgmax x :=
  ((State.sizesOk_iff s).1 hs.2).2.1 x (List.mem_of_getElem? h)

theorem State.sized.slotAt_le (hs : s.sized) {q : Nat} {x : Datagram} (h : s.slotAt q = some x) :
    x.data.len ≤ s.par.dgmax :=
  hs.2.2.2.1 x (List.mem_of_getElem? (State.slotAt_eq_some.1 h))

/-- The slave of the sequencer's exchange, also where its index names no entry (log 17). -/
theorem State.sized.mxSlave_fits (hs : s.sized) : slaveFits s.par.dgmax s.mxSlave := by
  unfold State.mxSlave
  split
  · next e he => exact ((State.sizesOk_iff s).1 hs.2).1 e (List.mem_of_getElem? he)
  · exact slaveFits_empty _

end

/-! ## What keeps the bounds -/

/-- From `s` to `t` the parameters and the sizes of the tables stay, and every table keeps its bound. A field left out is
one that the change does not touch. -/
structure SizesKept (s t : State) : Prop where
  par : t.par = s.par := by rfl
  slv : TableKept (slaveFits s.par.dgmax) s.slv t.slv := by exact TableKept.refl _
  dom : TableKept (domainFits s.par.dgmax) s.dom t.dom := by exact TableKept.refl _
  fld : t.fld.length = s.fld.length := by rfl
  dg : TableKept (slotFits s.par.dgmax) s.dg t.dg := by exact TableKept.refl _
  rbuf : s.mx.rbuf.len = s.par.dgmax → t.mx.rbuf.len = s.par.dgmax := by exact id

theorem SizesKept.sized {s t : State} (k : SizesKept s t) (hs : s.sized) : t.sized := by
  obtain ⟨hpar, hsizes⟩ := hs
  obtain ⟨hslv, hdom, hdg, hrbuf⟩ := (State.sizesOk_iff s).1 hsizes
  refine ⟨?_, (State.sizesOk_iff t).2 ?_⟩
  · unfold State.parametersOk State.nslave State.ndom State.nfield State.ndg at *
    rwa [k.par, k.slv.1, k.dom.1, k.fld, k.dg.1]
  · rw [k.par]
    exact ⟨k.slv.2 hslv, k.dom.2 hdom, k.dg.2 hdg, k.rbuf hrbuf⟩

/-- The host-facing registers have no part in the bounds. -/
theorem SameCore.sizesKept {s t : State} (h : SameCore s t) : SizesKept s t := by
  unfold SameCore at h
  rw [h]
  exact {}

section
variable {s : State}

/-- A datagram within the bound, in any slot. -/
theorem State.setSlot_sizesKept (q : Nat) {x : Datagram} (hx : x.data.len ≤ s.par.dgmax) :
    SizesKept s (s.setSlot q (some x)) :=
  { dg := .set _ _ ((slotFits_some _ _).2 hx) }

/-! ### Stopping, the tick, and the tables at reset -/

theorem State.halt_sizesKept (s : State) : SizesKept s s.halt where
  dom := .map _ fun _ => id
  dg := .map _ fun _ _ => slotFits_none _

theorem State.fatalStop_sizesKept (s : State) : SizesKept s s.fatalStop :=
  { s.halt_sizesKept with }

theorem State.endCycle_sizesKept (s : State) : SizesKept s s.endCycle where
  par := s.endCycle_par
  slv := by rw [s.endCycle_slv]; exact .refl _
  dom := by rw [s.endCycle_dom]; exact .refl _
  fld := by rw [s.endCycle_fld]
  dg := by rw [s.endCycle_dg]; exact .refl _
  rbuf := by rw [s.endCycle_mx]; exact id

theorem State.closeWindow_sizesKept (s : State) : SizesKept s s.closeWindow := by
  rcases s.closeWindow_cases with ⟨-, h⟩ | ⟨-, h⟩ <;> rw [h]
  · exact s.endCycle_sizesKept
  · exact {}

theorem State.tick_sizesKept (s : State) : SizesKept s s.tick := by
  rcases s.tick_cases with ⟨-, h⟩ | ⟨-, -, h⟩ | ⟨-, -, p, h⟩ <;> rw [h] <;> exact {}

theorem State.clearTables_sizesKept (s : State) : SizesKept s s.clearTables where
  slv := .map _ fun _ _ => slaveFits_empty _
  dom := .map _ fun _ _ => domainFits_empty _
  fld := List.length_map _

theorem State.clearSession_sizesKept (s : State) : SizesKept s s.clearSession :=
  { s.clearTables_sizesKept with
    dg := .map _ fun _ _ => slotFits_none _
    rbuf := fun _ => rfl }

theorem State.hardReset_sizesKept (s : State) : SizesKept s s.hardReset :=
  { s.clearSession_sizesKept with }

/-! ### The micro-operations -/

theorem relSlot_fits {n : Nat} {o : Slot} (h : slotFits n o) : slotFits n (relSlot o) := by
  unfold relSlot
  split
  · split
    · exact slotFits_none n
    · exact h
  · exact h

theorem sendSlot_fits {n : Nat} {o : Slot} (h : slotFits n o) : slotFits n (sendSlot o) := by
  unfold sendSlot
  split
  · next x =>
    split
    · exact (slotFits_some _ _).2 (h x rfl)
    · exact h
  · exact h

/-- PROCESS_ALL copies into the buffer a domain has (41_domain.md R157). -/
theorem processDomain_fits {n : Nat} {x : Domain} (h : domainFits n x) : domainFits n (processDomain s x) := by
  rcases processDomain_cases s x with ⟨e, -⟩ | ⟨q, y, -, -, ⟨-, e⟩ | ⟨-, e⟩⟩ <;> rw [e]
  · exact h
  · exact domainFits_congr rfl (Buf.copyInto_len _ _) h
  · exact h

theorem State.processAll_sizesKept (s : State) : SizesKept s s.processAll where
  dom := .map _ fun x h => by
    split
    · exact processDomain_fits h
    · exact h

/-- An answer has the length of its datagram (20_memory.md R86). -/
theorem recvLoop_tableKept (n : Nat) (l : List Slot) (w : List WireAnswer) (k : Nat) :
    TableKept (slotFits n) l (recvLoop l w k).slots := by
  have ha := recvLoop_answered l w k
  refine .of_getElem ha.length fun q o o' ho ho' h => ?_
  by_cases hf : ∃ x, o = some x ∧ x.st = .inFlight
  · obtain ⟨x, rfl, hx⟩ := hf
    obtain ⟨w', k', hc⟩ := ha.completed q x ho hx
    obtain rfl : some (completeSlot w' k' x) = o' := Option.some.inj (hc.symm.trans ho')
    exact (slotFits_some _ _).2 (by rw [completeSlot_len]; exact h x rfl)
  · have hk := ha.kept q fun x hx hst => hf ⟨x, Option.some.inj (ho.symm.trans hx), hst⟩
    rw [hk, ho] at ho'
    exact Option.some.inj ho' ▸ h

theorem State.recvAll_sizesKept (s : State) : SizesKept s s.recvAll where
  dg := recvLoop_tableKept _ _ _ _

/-- The datagrams of QUEUE_ALL are as long as the exchange buffers (41_domain.md R156). -/
theorem Queued.sizesKept {t : State} (hq : Queued 0 s t) (hs : s.sized) : SizesKept s t := by
  have hdom : TableKept (domainFits s.par.dgmax) s.dom t.dom := by
    refine .of_getElem hq.domLength fun i x y hx hy h => ?_
    cases hv : x.valid with
    | false =>
      rw [hq.invalid i x (Nat.zero_le i) hx hv] at hy
      exact Option.some.inj hy ▸ h
    | true =>
      obtain ⟨q, ht, -⟩ := hq.linked i x (Nat.zero_le i) hx hv
      obtain rfl : { x with dg := some q } = y := Option.some.inj (ht.symm.trans hy)
      exact h
  have hdg : TableKept (slotFits s.par.dgmax) s.dg t.dg := by
    refine .of_getElem hq.dgLength fun q o o' ho ho' h y hy => ?_
    have ht : t.slotAt q = some y := State.slotAt_eq_some.2 (hy ▸ ho')
    cases hsq : s.slotAt q with
    | some z =>
      obtain rfl : z = y := Option.some.inj ((hq.kept q z hsq).symm.trans ht)
      exact hs.slotAt_le hsq
    | none =>
      obtain ⟨i, x, hx, -, rfl⟩ := hq.fresh q y ht hsq
      exact (hs.dom_fits hx).1
  rw [hq.frame]
  exact { dom := hdom, dg := hdg }

theorem State.queueAll_sizesKept (hs : s.sized) : SizesKept s s.queueAll := by
  rcases s.queueAll_cases with ⟨-, h⟩ | ⟨-, h⟩
  · exact h ▸ s.fatalStop_sizesKept
  · exact h.sizesKept hs

/-- The sequencer reads 8 bytes or a transmit mailbox (42_scheduler.md R186). -/
theorem State.mbxOut_sizesKept (hs : s.sized) : SizesKept s s.mbxOut := by
  rcases s.mbxOut_cases with h | ⟨-, h⟩ | ⟨q, station, offset, len, next, -, hlen, -, h⟩ <;> rw [h]
  · exact {}
  · exact s.fatalStop_sizesKept
  · have hle : len ≤ s.par.dgmax := by
      have := hs.sixteen_le_dgmax
      have := hs.mxSlave_fits.2
      omega
    exact { dg := .set _ _ ((slotFits_some _ _).2 hle) }

/-- MBX_IN copies a payload into the buffer the sequencer has (42_scheduler.md R191). -/
theorem State.mbxIn_sizesKept (s : State) : SizesKept s s.mbxIn := by
  rcases s.mbxIn_cases with ⟨h, -⟩ | ⟨x, m, lg, -, -, hm, h⟩ <;> rw [h]
  · exact {}
  · have hlen : m.rbuf.len = s.mx.rbuf.len := by
      rcases hm.rbuf with e | ⟨n, e⟩ <;> rw [e]
      exact Buf.blit_len _ _ _ _
    exact { rbuf := hlen.trans }

theorem State.runMicro_sizesKept (hs : s.sized) (op : MicroOp) : SizesKept s (s.runMicro op) := by
  cases op with
  | rel => exact { dg := .map _ fun _ => relSlot_fits }
  | queueAll => exact State.queueAll_sizesKept hs
  | mbxOut => exact State.mbxOut_sizesKept hs
  | sendAll => exact { dg := .map _ fun _ => sendSlot_fits }
  | toAwaiting => exact {}
  | recvAll => exact s.recvAll_sizesKept
  | toProcessing => exact {}
  | processAll => exact s.processAll_sizesKept
  | mbxIn => exact s.mbxIn_sizesKept
  | toApp => exact {}
  | endCycle => exact s.endCycle_sizesKept

/-! ### The commands -/

/-- FLD_WR writes inside the exchange buffer of its field (41_domain.md R154). -/
theorem State.setDomBuf_sizesKept {f : Field} {b : Buf} {v : Word}
    (h : (s.fieldBuf f).memWrite f.off f.width v = some b) : SizesKept s (s.setDomBuf f.dom b) where
  dom := by
    refine .of_getElem (by simp) fun i x y hx hy hfit => ?_
    rw [State.setDomBuf_getElem, hx, Option.map_some, Option.some.injEq] at hy
    split at hy
    · next hi =>
      subst hi hy
      refine domainFits_congr (x := x) rfl ?_ hfit
      rw [(Buf.memWrite_eq_some.1 h).2, Buf.putBytes_len, State.fieldBuf_eq hx]
    · exact hy ▸ hfit

/-- Every command whose tests passed keeps the bounds: SLAVE_SET and DOM_CREATE test them (43_driver_lifecycle.md R221,
41_domain.md R151), and a new datagram is as long as a mailbox or 8 bytes. -/
theorem Effect.sizesKept {i : Instr} {t : State} (h : Effect i s t) (hs : s.sized) : SizesKept s t := by
  cases h with
  | acquire => exact { s.clearSession_sizesKept with }
  | slaveSet n station _ hl hi hr ht => exact { slv := .set _ _ ⟨hr, ht⟩ }
  | activate => exact { dom := .map _ fun _ => id, dg := .map _ fun _ _ => slotFits_none _ }
  | deactivate => exact s.halt_sizesKept
  | release => exact { s.clearTables_sizesKept with }
  | appDone => exact s.closeWindow_sizesKept
  | mbxPrepSend v size _ e q _ _ _ _ he =>
    have hlen : (requestDatagram e v size (byte0 s.a0)).data.len ≤ s.par.dgmax := by
      simpa [requestDatagram] using (hs.slaveAt_fits he).1
    exact { State.setSlot_sizesKept q hlen with }
  | mbxPrepCheck v _ e q _ he =>
    have hlen : (s.pollDatagram e .host v).data.len ≤ s.par.dgmax :=
      Nat.le_trans (by decide : 8 ≤ 16) hs.sixteen_le_dgmax
    exact { State.setSlot_sizesKept q hlen with }
  | mbxCheck => exact {}
  | mbxPrepFetch v _ e q _ he =>
    have hlen : (fetchDatagram e .host v).data.len ≤ s.par.dgmax := (hs.slaveAt_fits he).2
    exact { State.setSlot_sizesKept q hlen with }
  | mbxFetch => exact {}
  | mbxXfer q budget _ x v _ _ hx =>
    have hlen : x.data.len ≤ s.par.dgmax := hs.slotAt_le hx
    exact { State.setSlot_sizesKept q (x := { x with owner := .seq }) hlen with }
  | mbxXstat => exact {}
  | mbxXrd => exact {}
  | mbxXclr => exact {}
  | domCreate d size _ x _ _ _ h1 h2 => exact { dom := .set _ _ ⟨h2, fun _ => h1⟩ }
  | domRegField => exact { fld := List.length_set }
  | fldRd => exact {}
  | fldWr _ _ f b _ _ _ hr => exact State.setDomBuf_sizesKept hr
  | dgRd => exact {}
  | dgWr q i _ x _ hx =>
    have hlen : (x.data.set i (byte0 s.a0)).len ≤ s.par.dgmax := by
      rw [Buf.set_len]
      exact hs.slotAt_le hx
    exact State.setSlot_sizesKept q hlen
  | dgStat => exact {}

end

/-! ### Every step -/

/-- The parts of a step keep the bounds. -/
theorem sized_kept : Kept State.sized where
  core _ _ h hs := h.sizesKept.sized hs
  command _ _ _ _ hs h := (h.sizesKept hs).sized hs
  fatal s _ _ hs := s.fatalStop_sizesKept.sized hs
  micro s op rest hs _ := by
    have hs' : State.sized { s with todo := rest } := SizesKept.sized (s := s) {} hs
    exact (State.runMicro_sizesKept hs' op).sized hs'
  tick s hs := s.tick_sizesKept.sized hs
  reset s hs := s.hardReset_sizesKept.sized hs

/-- Settles O24, by the bounds that each part of a step keeps. -/
theorem stepKeepsSizesWithinBounds : Obligations.StepKeepsSizesWithinBounds := by
  unfold Obligations.StepKeepsSizesWithinBounds
  intro s t hs hstep
  exact sized_kept.step hs hstep

end Sys2Proof.Machine
end

section
/-! The proofs of the family of 10_state.md: the invariants of R60, the sticky flags, the slot pool, the presented and
the held command, the register map, and what commands and micro-operations leave alone. -/

namespace Sys2Proof.Machine

/-! ## What a micro-operation can write (44_common_laws.md R230) -/

/-- The phase after a micro-operation that starts in phase `p`. -/
def phaseAfter (op : MicroOp) (p : Phase) : Phase :=
  match op with
  | .toAwaiting => .awaitingReceive
  | .toProcessing => .processing
  | .toApp => .app
  | _ => p

/-- `t` is `s` after the phase change of `op`, but for what the cycle works on: the flag `ovr`, T_POST, the domains, the
pool, the sequencer, LOG, the wire and the time base. -/
def CycleWrites (op : MicroOp) (s t : State) : Prop :=
  t = { s with
    phase := phaseAfter op s.phase, ovr := t.ovr, tPost := t.tPost, dom := t.dom, dg := t.dg, mx := t.mx, log := t.log
    wire := t.wire, elapsed := t.elapsed, draws := t.draws, now := t.now }

/-- Everything a micro-operation can do: `Fatal()`, `end_cycle`, or writes to what the cycle works on. -/
theorem State.runMicro_cases (s : State) (op : MicroOp) :
    s.runMicro op = s.fatalStop ∨ (op = .endCycle ∧ s.runMicro op = s.endCycle) ∨
      (op ≠ .endCycle ∧ CycleWrites op s (s.runMicro op)) := by
  cases op with
  | endCycle => exact .inr (.inl ⟨rfl, rfl⟩)
  | queueAll =>
    rcases s.queueAll_cases with ⟨-, h⟩ | ⟨-, h⟩
    · exact .inl h
    · exact .inr (.inr ⟨by decide, show CycleWrites .queueAll s s.queueAll by unfold CycleWrites; rw [h.frame]; rfl⟩)
  | mbxOut =>
    rcases s.mbxOut_cases with h | ⟨-, h⟩ | ⟨_, _, _, _, _, -, -, -, h⟩
    · exact .inr (.inr ⟨by decide, show CycleWrites .mbxOut s s.mbxOut by rw [h]; rfl⟩)
    · exact .inl h
    · exact .inr (.inr ⟨by decide, show CycleWrites .mbxOut s s.mbxOut by rw [h]; rfl⟩)
  | mbxIn =>
    have hw : CycleWrites .mbxIn s s.mbxIn := by
      rcases s.mbxIn_cases with ⟨h, -⟩ | ⟨_, _, _, -, -, -, h⟩ <;> rw [h] <;> rfl
    exact .inr (.inr ⟨by decide, hw⟩)
  | _ => exact .inr (.inr ⟨by decide, rfl⟩)

/-! ## The configuration that only Configuring changes -/

/-- From `s` to `t` the slaves, the fields and the shape of every domain stay. A field left out is one that the change
does not touch. -/
structure ConfigKept (s t : State) : Prop where
  slv : t.slv = s.slv := by rfl
  fld : t.fld = s.fld := by rfl
  fldcnt : t.fldcnt = s.fldcnt := by rfl
  shape : t.dom.map domainShape = s.dom.map domainShape := by rfl

/-- The field table stays sound (10_state.md R60 (e)). -/
theorem ConfigKept.fieldsOk {s t : State} (k : ConfigKept s t) (hs : s.fieldsOk) : t.fieldsOk := by
  refine State.fieldsOk_of_domains k.fldcnt k.fld k.slv (fun d x hx => ?_) hs
  have hd : (t.dom[d]?).map domainShape = some (domainShape x) := by
    rw [← List.getElem?_map, k.shape, List.getElem?_map, hx, Option.map_some]
  obtain ⟨x', hx', hshape⟩ := Option.map_eq_some_iff.1 hd
  simp only [domainShape, Prod.mk.injEq] at hshape
  obtain ⟨hv, -, hl⟩ := hshape
  exact ⟨x', hx', hv, hl⟩

section
variable {s : State}

theorem State.halt_configKept (s : State) : ConfigKept s s.halt where
  shape := by simp [Function.comp_def, Domain.unlink, domainShape]

theorem State.fatalStop_configKept (s : State) : ConfigKept s s.fatalStop :=
  { s.halt_configKept with }

theorem State.endCycle_configKept (s : State) : ConfigKept s s.endCycle where
  slv := s.endCycle_slv
  fld := s.endCycle_fld
  fldcnt := s.endCycle_fldcnt
  shape := by rw [s.endCycle_dom]

theorem processDomain_shape (s : State) (x : Domain) : domainShape (processDomain s x) = domainShape x := by
  rcases processDomain_cases s x with ⟨e, -⟩ | ⟨q, y, -, -, ⟨-, e⟩ | ⟨-, e⟩⟩ <;> rw [e] <;> rfl

theorem State.processAll_configKept (s : State) : ConfigKept s s.processAll where
  shape := by
    rw [State.processAll_dom, List.map_map]
    refine List.map_congr_left fun x _ => ?_
    simp only [Function.comp_apply]
    split
    · exact processDomain_shape s x
    · rfl

/-- QUEUE_ALL links domains to slots and changes nothing else of them (41_domain.md R156). -/
theorem Queued.configKept {t : State} (hq : Queued 0 s t) : ConfigKept s t := by
  have hshape : t.dom.map domainShape = s.dom.map domainShape := by
    refine List.ext_getElem? fun i => ?_
    rw [List.getElem?_map, List.getElem?_map]
    cases hx : s.dom[i]? with
    | none =>
      rw [List.getElem?_eq_none_iff, ← hq.domLength, ← List.getElem?_eq_none_iff] at hx
      rw [hx]
    | some x =>
      cases hv : x.valid with
      | false => rw [hq.invalid i x (Nat.zero_le i) hx hv]
      | true =>
        obtain ⟨q, ht, -⟩ := hq.linked i x (Nat.zero_le i) hx hv
        rw [ht]
        rfl
  rw [hq.frame]
  exact { shape := hshape }

theorem State.queueAll_configKept (s : State) : ConfigKept s s.queueAll := by
  rcases s.queueAll_cases with ⟨-, h⟩ | ⟨-, h⟩
  · exact h ▸ s.fatalStop_configKept
  · exact h.configKept

theorem State.mbxOut_configKept (s : State) : ConfigKept s s.mbxOut := by
  rcases s.mbxOut_cases with h | ⟨-, h⟩ | ⟨q, _, _, _, _, -, -, -, h⟩ <;> rw [h]
  · exact {}
  · exact s.fatalStop_configKept
  · exact {}

theorem State.mbxIn_configKept (s : State) : ConfigKept s s.mbxIn := by
  rcases s.mbxIn_cases with ⟨h, -⟩ | ⟨x, m, lg, -, -, -, h⟩ <;> rw [h] <;> exact {}

theorem State.runMicro_configKept (s : State) (op : MicroOp) : ConfigKept s (s.runMicro op) := by
  cases op with
  | rel => exact {}
  | queueAll => exact s.queueAll_configKept
  | mbxOut => exact s.mbxOut_configKept
  | sendAll => exact {}
  | toAwaiting => exact {}
  | recvAll => exact {}
  | toProcessing => exact {}
  | processAll => exact s.processAll_configKept
  | mbxIn => exact s.mbxIn_configKept
  | toApp => exact {}
  | endCycle => exact s.endCycle_configKept

/-- FLD_WR writes inside the exchange buffer of its field (41_domain.md R154). -/
theorem State.setDomBuf_configKept {f : Field} {b : Buf} {v : Word}
    (h : (s.fieldBuf f).memWrite f.off f.width v = some b) : ConfigKept s (s.setDomBuf f.dom b) where
  shape := by
    refine List.ext_getElem? fun i => ?_
    rw [List.getElem?_map, List.getElem?_map, State.setDomBuf_getElem, Option.map_map]
    cases hx : s.dom[i]? with
    | none => rfl
    | some x =>
      simp only [Option.map_some, Function.comp_apply, Option.some.injEq]
      split
      · next hi =>
        subst hi
        have hlen : b.len = x.buf.len := by
          rw [(Buf.memWrite_eq_some.1 h).2, Buf.putBytes_len, State.fieldBuf_eq hx]
        simp only [domainShape, hlen]
      · rfl

end

/-! ## Slots that are lent (10_state.md R60 (b), (c)) -/

/-- Slot `q` is lent to `o`, and is Done only where `w` holds. -/
def State.lends (s : State) (q : Nat) (o : Owner) (w : Prop) : Prop :=
  ∃ y, s.slotAt q = some y ∧ y.owner = o ∧ (y.st = .done → w)

/-- Every link of a domain, and of a sequencer that waits, is to a slot lent to it. An answer may be completed for a
domain only where `w` holds, and for the sequencer only where `v` does. -/
def State.linked (s : State) (w v : Prop) : Prop :=
  (∀ d x q, s.dom[d]? = some x → x.dg = some q → x.valid = true ∧ s.lends q (.dom d) w) ∧
    (s.mx.st.waiting = true → s.lends s.mx.dg .seq v)

/-- A completed answer may wait for PROCESS_ALL. -/
def domainWaits (todo : List MicroOp) : Prop := todo.head? = some .toProcessing ∨ todo.head? = some .processAll

/-- A completed answer may wait for MBX_IN. -/
def sequencerWaits (todo : List MicroOp) : Prop := domainWaits todo ∨ todo.head? = some .mbxIn

/-- The two link invariants together. -/
theorem State.linked_iff (s : State) :
    s.linked (domainWaits s.todo) (sequencerWaits s.todo) ↔ s.domainsLinked ∧ s.sequencerLinked := Iff.rfl

section
variable {s t : State} {q : Nat} {o : Owner} {w v w' v' : Prop}

theorem State.lends.imp (h : s.lends q o w) (hw : w → w') : s.lends q o w' := by
  obtain ⟨y, hy, ho, hd⟩ := h
  exact ⟨y, hy, ho, hw ∘ hd⟩

/-- A slot that stays as it is stays lent. -/
theorem State.lends.of_kept (h : s.lends q o w) (hk : ∀ y, s.slotAt q = some y → y.owner = o → t.slotAt q = some y) :
    t.lends q o w := by
  obtain ⟨y, hy, ho, hd⟩ := h
  exact ⟨y, hk y hy ho, ho, hd⟩

theorem State.lends.rel (h : s.lends q o False) : s.rel.lends q o False := by
  obtain ⟨y, hy, ho, hd⟩ := h
  exact ⟨y, by simp [State.rel_slotAt, hy, relSlot, show ¬ y.st = .done from hd], ho, hd⟩

theorem State.lends.sendAll (h : s.lends q o w) : s.sendAll.lends q o w := by
  obtain ⟨y, hy, ho, hd⟩ := h
  have hslot := s.sendAll_slotAt q
  rw [hy] at hslot
  unfold sendSlot at hslot
  split at hslot
  · next x hx =>
    obtain rfl := Option.some.inj hx
    split at hslot
    · exact ⟨_, hslot, ho, fun h => nomatch h⟩
    · exact ⟨_, hslot, ho, hd⟩
  · next hx => cases hx

theorem State.lends.recvAll (h : s.lends q o w) : s.recvAll.lends q o True := by
  obtain ⟨y, hy, ho, -⟩ := h
  rcases s.recvAll_slotAt q with ⟨x, wire, n, hx, -, hc⟩ | ⟨-, hk⟩
  · obtain rfl : x = y := Option.some.inj (hx.symm.trans hy)
    exact ⟨_, hc, ho, fun _ => trivial⟩
  · exact ⟨y, hk.trans hy, ho, fun _ => trivial⟩

theorem State.linked.imp (h : s.linked w v) (hw : w → w') (hv : v → v') : s.linked w' v' :=
  ⟨fun d x q hd hq => ⟨(h.1 d x q hd hq).1, (h.1 d x q hd hq).2.imp hw⟩, fun hm => (h.2 hm).imp hv⟩

/-- With the same links, what was lent has to stay lent. -/
theorem State.linked.of_lends (h : s.linked w v) (hdom : t.dom = s.dom) (hmx : t.mx = s.mx)
    (hw : ∀ q d, s.lends q (.dom d) w → t.lends q (.dom d) w') (hv : ∀ q, s.lends q .seq v → t.lends q .seq v') :
    t.linked w' v' := by
  unfold State.linked
  rw [hdom, hmx]
  exact ⟨fun d x q hd hq => ⟨(h.1 d x q hd hq).1, hw q d (h.1 d x q hd hq).2⟩, fun hm => hv _ (h.2 hm)⟩

/-- With the same links, the slots not owned by the host have to stay. -/
theorem State.linked.of_pool (h : s.linked w v) (hdom : t.dom = s.dom) (hmx : t.mx = s.mx)
    (hk : ∀ q y, s.slotAt q = some y → y.owner ≠ .host → t.slotAt q = some y) : t.linked w v :=
  h.of_lends hdom hmx (fun q _ hl => hl.of_kept fun y hy ho => hk q y hy (by simp [ho]))
    fun q hl => hl.of_kept fun y hy ho => hk q y hy (by simp [ho])

/-- The links are about the domains, the sequencer and the pool only. -/
theorem State.linked.congr (h : s.linked w v) (hdom : t.dom = s.dom) (hmx : t.mx = s.mx) (hdg : t.dg = s.dg) :
    t.linked w v :=
  h.of_pool hdom hmx fun q _ hy _ => (State.slotAt_congr hdg q).trans hy

/-- A slot that is Free or the host's is lent to nobody. -/
theorem State.linked.setSlot (h : s.linked w v) (hq : ∀ y, s.slotAt q = some y → y.owner = .host) (x : Slot) :
    (s.setSlot q x).linked w v := by
  refine h.of_pool rfl rfl fun r y hy ho => ?_
  have hr : r ≠ q := fun e => ho (hq y (e ▸ hy))
  simp [State.slotAt_setSlot, hr, hy]

/-- A sequencer that does not wait has no link. -/
theorem State.linked.withMx (h : s.linked w v) {m : Sequencer} (hm : m.st.waiting = false) (lg : List LogEvent) :
    State.linked { s with mx := m, log := lg } w v' :=
  ⟨h.1, fun hw => absurd (hm.symm.trans hw) (by decide)⟩

theorem State.linked.rel (h : s.linked False False) : s.rel.linked False False :=
  h.of_lends rfl rfl (fun _ _ => .rel) fun _ => .rel

theorem State.linked.sendAll (h : s.linked w v) : s.sendAll.linked w v :=
  h.of_lends rfl rfl (fun _ _ => .sendAll) fun _ => .sendAll

theorem State.linked.recvAll (h : s.linked w v) : s.recvAll.linked True True :=
  h.of_lends rfl rfl (fun _ _ => .recvAll) fun _ => .recvAll

/-- QUEUE_ALL gives every valid domain a fresh slot (41_domain.md R156). -/
theorem State.linked.queued (h : s.linked w v) (hq : Queued 0 s t) : t.linked w v := by
  refine ⟨fun d x q hd hx => ?_, fun hm => ?_⟩
  · have hlt : d < s.dom.length := hq.domLength ▸ (List.getElem?_eq_some_iff.1 hd).1
    have hsd : s.dom[d]? = some s.dom[d] := List.getElem?_eq_getElem hlt
    cases hv : s.dom[d].valid with
    | false =>
      obtain rfl : s.dom[d] = x := Option.some.inj ((hq.invalid d _ (Nat.zero_le d) hsd hv).symm.trans hd)
      exact absurd ((h.1 d _ q hsd hx).1.symm.trans hv) (by decide)
    | true =>
      obtain ⟨p, hp, -, hfresh, -⟩ := hq.linked d _ (Nat.zero_le d) hsd hv
      obtain rfl := Option.some.inj (hp.symm.trans hd)
      obtain rfl := Option.some.inj hx
      exact ⟨hv, _, hfresh, rfl, fun hdone => nomatch hdone⟩
  · have hmx : t.mx = s.mx := by rw [hq.frame]
    rw [hmx] at hm ⊢
    exact (h.2 hm).of_kept fun y hy _ => hq.kept _ y hy

/-- PROCESS_ALL lets go of every completed slot (41_domain.md R157). -/
theorem State.linked.processAll (h : s.linked w v) : s.processAll.linked False v := by
  refine ⟨fun d x q hd hx => ?_, h.2⟩
  rw [State.processAll_getElem] at hd
  obtain ⟨z, hz, he⟩ := Option.map_eq_some_iff.1 hd
  split at he
  · next hv =>
    rcases processDomain_cases s z with ⟨e, hnone⟩ | ⟨r, y, -, -, ⟨-, e⟩ | ⟨-, e⟩⟩ <;> rw [e] at he <;> subst he
    · obtain ⟨y, hy, ho, -⟩ := (h.1 d z q hz hx).2
      have hdone : y.st ≠ .done := fun hst => by
        have := hnone q hx
        rw [State.doneAt_eq_some.2 ⟨hy, hst⟩] at this
        cases this
      exact ⟨hv, y, hy, ho, hdone⟩
    · cases hx
    · cases hx
  · next hv =>
    subst he
    exact absurd (h.1 d z q hz hx).1 hv

/-- MBX_OUT issues its read in a Free slot (42_scheduler.md R186). -/
theorem State.linked.mbxOut (h : s.linked w v) : s.mbxOut = s.fatalStop ∨ s.mbxOut.linked w v := by
  rcases s.mbxOut_cases with e | ⟨-, e⟩ | ⟨q, station, offset, len, next, hf, -, -, e⟩
  · exact .inr (e.symm ▸ h)
  · exact .inl e
  · let x := readDatagram station offset len .seq (some s.mx.slave)
    obtain ⟨hfree, hslot, -⟩ := State.borrow_slotAt (x := x) (State.borrow_eq_some.2 ⟨hf, rfl⟩)
    have hset : (s.setSlot q (some x)).linked w v := h.setSlot (fun y hy => nomatch hfree.symm.trans hy) _
    rw [e]
    exact .inr ⟨hset.1, fun _ => ⟨x, hslot, rfl, fun hd => nomatch hd⟩⟩

/-- After MBX_IN no completed answer waits for the sequencer (42_scheduler.md R190). -/
theorem State.linked.mbxIn (h : s.linked w v) : s.mbxIn.linked w False := by
  rcases s.mbxIn_cases with ⟨e, hnone⟩ | ⟨x, m, lg, -, -, hm, e⟩ <;> rw [e]
  · refine ⟨h.1, fun hw => ?_⟩
    obtain ⟨y, hy, ho, -⟩ := h.2 hw
    refine ⟨y, hy, ho, fun hst => ?_⟩
    have := hnone hw
    rw [State.doneAt_eq_some.2 ⟨hy, hst⟩] at this
    cases this
  · exact h.withMx hm.settled lg

/-- A micro-operation leaves no completed answer behind where none may wait. -/
theorem State.linked.runMicro {op : MicroOp} {rest : List MicroOp} (hop : op ≠ .endCycle)
    (hf : follows op rest = true) (h : s.linked (domainWaits (op :: rest)) (sequencerWaits (op :: rest))) :
    s.runMicro op = s.fatalStop ∨ (s.runMicro op).linked (domainWaits rest) (sequencerWaits rest) := by
  have none_waits (hq : op ∉ [.toProcessing, .processAll, .mbxIn]) : s.linked False False := by
    simp only [List.mem_cons, List.not_mem_nil, or_false, not_or] at hq
    obtain ⟨h1, h2, h3⟩ := hq
    exact h.imp (by simp [domainWaits, h1, h2]) (by simp [sequencerWaits, domainWaits, h1, h2, h3])
  cases op with
  | rel => exact .inr ((none_waits (by decide)).rel.imp False.elim False.elim)
  | queueAll =>
    rcases s.queueAll_cases with ⟨-, e⟩ | ⟨-, hq⟩
    · exact .inl e
    · exact .inr (((none_waits (by decide)).queued hq).imp False.elim False.elim)
  | mbxOut => exact (none_waits (by decide)).mbxOut.imp id fun h => h.imp False.elim False.elim
  | sendAll => exact .inr ((none_waits (by decide)).sendAll.imp False.elim False.elim)
  | toAwaiting => exact .inr (State.linked.imp (none_waits (by decide)) False.elim False.elim)
  | recvAll =>
    have hnext : rest.head? = some .toProcessing := by simpa [follows] using hf
    exact .inr (h.recvAll.imp (fun _ => .inl hnext) fun _ => .inl (.inl hnext))
  | toProcessing =>
    have hnext : rest.head? = some .processAll := by simpa [follows] using hf
    exact .inr (State.linked.imp h (fun _ => .inr hnext) fun _ => .inl (.inr hnext))
  | processAll =>
    have hnext : rest.head? = some .mbxIn := by simpa [follows] using hf
    exact .inr (h.processAll.imp False.elim fun _ => .inr hnext)
  | mbxIn => exact .inr (h.mbxIn.imp (by simp [domainWaits]) False.elim)
  | toApp => exact .inr (State.linked.imp (none_waits (by decide)) False.elim False.elim)
  | endCycle => exact absurd rfl hop

end

/-! ## Where the cycle program stands (42_scheduler.md R173, R174) -/

/-- What follows a micro-operation runs in the phase it leaves. -/
theorem phaseOf_of_follows {op next : MicroOp} {rest : List MicroOp} (h : follows op (next :: rest) = true) :
    phaseOf next = phaseAfter op (phaseOf op) := by
  cases op <;> simp [follows] at h
  case sendAll => rcases h with rfl | rfl <;> rfl
  all_goals subst h; rfl

/-- A program ends with the App window or with `end_cycle`. -/
theorem last_of_follows {op : MicroOp} (h : follows op [] = true) : op = .toApp ∨ op = .endCycle := by
  cases op <;> simp [follows] at h ⊢

theorem phaseAfter_ne_idle (op : MicroOp) : phaseAfter op (phaseOf op) ≠ .idle := by
  cases op <;> decide

/-- The program goes on after a micro-operation that is not `end_cycle`. -/
theorem State.positioned_micro {s t : State} {op : MicroOp} {rest : List MicroOp} (h : s.positioned)
    (ho : s.todo = op :: rest) (hop : op ≠ .endCycle) (ht : t.todo = rest) (hst : t.strategy = s.strategy)
    (hp : t.phase = phaseAfter op (phaseOf op)) : t.positioned := by
  have hf := (State.positioned_next h ho).2
  refine State.positioned_advance h ho ht hst (fun next hn => ?_) fun hnil => ?_
  · obtain ⟨r, rfl⟩ : ∃ r, rest = next :: r := ⟨rest.tail, List.eq_cons_of_mem_head? hn⟩
    rw [hp, phaseOf_of_follows hf]
  · subst hnil
    obtain rfl := (last_of_follows hf).resolve_right hop
    exact .inr hp

/-- A cycle starts at the head of its program (42_scheduler.md R172). -/
theorem State.startCycle_positioned (s : State) : s.startCycle.positioned := by
  unfold State.positioned
  rw [State.startCycle_todo, State.startCycle_phase, State.startCycle_strategy]
  cases s.strategy
  · exact ⟨rfl, .inl (List.suffix_refl _)⟩
  · exact ⟨rfl, .inl (List.suffix_refl _)⟩

theorem firstPhase_ne_idle (σ : Strategy) : firstPhase σ ≠ .idle := by
  cases σ <;> decide

/-! ## What holds while the block is stopped (10_state.md R60 (a)) -/

/-- Not Active, with nothing under way. -/
structure State.stopped (s : State) : Prop where
  life : s.life ≠ .active
  todo : s.todo = []
  phase : s.phase = .idle
  tickpend : s.tickpend = false
  dg : ∀ x ∈ s.dg, x = none
  dom : ∀ x ∈ s.dom, x.dg = none
  mx : s.mx.st = .idle

/-- A block that is stopped meets the invariants when its field table does. -/
theorem State.stopped.consistent {s : State} (h : s.stopped) (hf : s.fieldsOk) : s.consistent where
  left := by
    unfold State.positioned
    rw [h.todo]
    exact .inl h.phase
  right := by
    refine ⟨fun _ => ⟨h.phase, h.tickpend, h.dg, h.dom, h.mx⟩, fun d x q hx hq => ?_, fun hm => ?_,
      fun hl => absurd hl h.life, hf, fun _ => h.life, fun ht => ?_⟩
    · exact nomatch (h.dom x (List.mem_of_getElem? hx)).symm.trans hq
    · rw [h.mx] at hm
      exact nomatch hm
    · exact nomatch h.tickpend.symm.trans ht

/-! ## The parts of the invariant -/

section
variable {s t : State}

theorem State.consistent.positioned (hs : s.consistent) : s.positioned := hs.1

theorem State.consistent.quiet (hs : s.consistent) : s.quietUnlessActive := hs.2.1

theorem State.consistent.fieldsOk (hs : s.consistent) : s.fieldsOk := hs.2.2.2.2.2.1

theorem State.consistent.tickOk (hs : s.consistent) : s.tickOk := hs.2.2.2.2.2.2.2

theorem State.consistent.linked (hs : s.consistent) : s.linked (domainWaits s.todo) (sequencerWaits s.todo) :=
  (State.linked_iff s).2 ⟨hs.2.2.1, hs.2.2.2.1⟩

/-- Without a program no completed answer waits. -/
theorem State.consistent.linked_of_todo_nil (hs : s.consistent) (ho : s.todo = []) : s.linked False False := by
  have h := hs.linked
  rw [ho] at h
  exact h.imp (by simp [domainWaits]) (by simp [sequencerWaits, domainWaits])

theorem State.consistent.stopped (hs : s.consistent) (hl : s.life ≠ .active) : s.stopped := by
  obtain ⟨hphase, htick, hdg, hdom, hmx⟩ := hs.quiet hl
  exact ⟨hl, State.todo_nil hs.positioned (by simp [State.accepting, hphase]), hphase, htick, hdg, hdom, hmx⟩

/-- What keeps the invariants apart from the links, the program and the pending tick. -/
structure Steady (s t : State) : Prop extends ConfigKept s t where
  life : t.life = s.life := by rfl
  fatal : t.fatal = s.fatal := by rfl
  ratio : s.ratioOk → t.ratioOk := by exact id

theorem Steady.consistent (k : Steady s t) (hs : s.consistent) (hl : s.life = .active) (hpos : t.positioned)
    (htick : t.tickOk) (hlinked : t.linked (domainWaits t.todo) (sequencerWaits t.todo)) : t.consistent := by
  obtain ⟨-, -, -, -, hratio, hfields, hfatal, -⟩ := hs
  obtain ⟨hdom, hseq⟩ := (State.linked_iff t).1 hlinked
  refine ⟨hpos, fun hn => absurd (k.life.trans hl) hn, hdom, hseq, k.ratio hratio, k.fieldsOk hfields, fun hf => ?_,
    htick⟩
  rw [k.life]
  exact hfatal (k.fatal ▸ hf)

/-! ## Stopping and the boundaries of a cycle -/

theorem State.halt_stopped (s : State) : s.halt.stopped where
  life := by simp
  todo := rfl
  phase := rfl
  tickpend := rfl
  dg := by simp
  dom := by simp [Domain.unlink]
  mx := rfl

theorem State.consistent.halt (hs : s.consistent) : s.halt.consistent :=
  s.halt_stopped.consistent (s.halt_configKept.fieldsOk hs.fieldsOk)

theorem State.consistent.fatalStop (hs : s.consistent) : s.fatalStop.consistent :=
  State.stopped.consistent { s.halt_stopped with } (s.fatalStop_configKept.fieldsOk hs.fieldsOk)

/-- Tables as after reset hold no field. -/
theorem State.fieldsOk_of_empty (h0 : s.fldcnt = 0) (hf : ∀ f ∈ s.fld, f = Field.empty) : s.fieldsOk := by
  unfold State.fieldsOk
  rw [h0]
  refine ⟨Nat.zero_le _, fun h f hh => ?_⟩
  obtain rfl := hf f (List.mem_of_getElem? hh)
  exact ⟨⟨fun hv => absurd hv (by decide), fun hlt => absurd hlt (Nat.not_lt_zero h)⟩, fun hv => absurd hv (by decide)⟩

theorem State.clearSession_stopped (s : State) : s.clearSession.stopped where
  life := by simp [State.clearSession]
  todo := rfl
  phase := rfl
  tickpend := rfl
  dg := by simp [State.clearSession]
  dom := by simp [State.clearSession, State.clearTables, Domain.empty]
  mx := rfl

theorem State.clearTables_fieldsOk (s : State) : s.clearTables.fieldsOk :=
  State.fieldsOk_of_empty rfl (by simp [State.clearTables])

theorem State.consistent.startCycle (hs : s.consistent) (hl : s.life = .active) (hp : s.phase = .idle) :
    s.startCycle.consistent := by
  have hlinked := hs.linked_of_todo_nil (State.todo_nil hs.positioned (by simp [State.accepting, hp]))
  have k : Steady s s.startCycle :=
    { slv := s.startCycle_slv, fld := s.startCycle_fld, fldcnt := s.startCycle_fldcnt, shape := by rw [s.startCycle_dom]
      life := s.startCycle_life, fatal := s.startCycle_fatal
      ratio := fun hr => by unfold State.ratioOk; rwa [s.startCycle_life, s.startCycle_kdiv, s.startCycle_tickcnt] }
  have hphase : s.startCycle.phase ≠ .idle := s.startCycle_phase ▸ firstPhase_ne_idle s.strategy
  exact k.consistent hs hl s.startCycle_positioned (fun _ => hphase)
    ((hlinked.congr s.startCycle_dom s.startCycle_mx s.startCycle_dg).imp False.elim False.elim)

@[simp] theorem State.between_life (s : State) : s.between.life = s.life := by simp [State.between]
@[simp] theorem State.between_fatal (s : State) : s.between.fatal = s.fatal := by simp [State.between]
@[simp] theorem State.between_kdiv (s : State) : s.between.kdiv = s.kdiv := by simp [State.between]
@[simp] theorem State.between_fldcnt (s : State) : s.between.fldcnt = s.fldcnt := by simp [State.between]
@[simp] theorem State.between_slv (s : State) : s.between.slv = s.slv := by simp [State.between]
@[simp] theorem State.between_dom (s : State) : s.between.dom = s.dom := by simp [State.between]
@[simp] theorem State.between_fld (s : State) : s.between.fld = s.fld := by simp [State.between]
@[simp] theorem State.between_dg (s : State) : s.between.dg = s.dg := by simp [State.between]
@[simp] theorem State.between_mx (s : State) : s.between.mx = s.mx := by simp [State.between]

/-- Between two cycles the block waits in Idle (42_scheduler.md R179). -/
theorem State.consistent.between (hs : s.consistent) (hl : s.life = .active) (hlinked : s.linked False False) :
    s.between.consistent := by
  have k : Steady s s.between :=
    { slv := s.between_slv, fld := s.between_fld, fldcnt := s.between_fldcnt, shape := by rw [s.between_dom]
      life := s.between_life, fatal := s.between_fatal
      ratio := fun hr _ => by
        obtain ⟨hk, -⟩ := hr hl
        exact ⟨s.between_kdiv.symm ▸ hk, State.fwd_tickcnt_lt (s := s.finishTiming) hk⟩ }
  exact k.consistent hs hl (.inl rfl) (fun ht => nomatch ht)
    ((hlinked.congr s.between_dom s.between_mx s.between_dg).imp False.elim False.elim)

theorem State.consistent.endCycle (hs : s.consistent) (hl : s.life = .active) (hlinked : s.linked False False) :
    s.endCycle.consistent := by
  have hb := hs.between hl hlinked
  rw [State.endCycle_eq]
  split
  · exact hb.startCycle (s.between_life.trans hl) rfl
  · exact hb

theorem State.consistent.tick (hs : s.consistent) : s.tick.consistent := by
  rcases s.tick_cases with ⟨-, h⟩ | ⟨hl, hp, h⟩ | ⟨hl, hp, p, h⟩ <;> rw [h]
  · exact hs
  · exact hs.startCycle hl hp
  · exact Steady.consistent {} hs hl hs.positioned (fun _ => hp) hs.linked

theorem State.hardReset_consistent (s : State) : s.hardReset.consistent :=
  State.stopped.consistent { s.clearSession_stopped with } s.clearTables_fieldsOk

/-! ## The micro-operations -/

theorem State.consistent.runMicro {op : MicroOp} {rest : List MicroOp} (hs : s.consistent)
    (ho : s.todo = op :: rest) : (State.runMicro { s with todo := rest } op).consistent := by
  obtain ⟨hphase, hfollows⟩ := State.positioned_next hs.positioned ho
  have hl := State.active_of_todo hs.positioned hs.quiet ho
  have hlinked := hs.linked
  rw [ho] at hlinked
  have hfatal : (State.fatalStop { s with todo := rest }).consistent := show s.fatalStop.consistent from hs.fatalStop
  by_cases hop : op = .endCycle
  · subst hop
    show (State.endCycle { s with todo := rest }).consistent
    rw [State.endCycle_todo]
    exact hs.endCycle hl (hlinked.imp (by simp [domainWaits]) (by simp [sequencerWaits, domainWaits]))
  · rcases State.linked.runMicro (s := { s with todo := rest }) hop hfollows hlinked with h | hl'
    · rw [h]
      exact hfatal
    rcases State.runMicro_cases { s with todo := rest } op with h | ⟨he, -⟩ | ⟨-, hw⟩
    · rw [h]
      exact hfatal
    · exact absurd he hop
    · have hk := State.runMicro_configKept { s with todo := rest } op
      generalize State.runMicro { s with todo := rest } op = t at *
      have hp : t.phase = phaseAfter op (phaseOf op) := by rw [hw, ← hphase]
      have ht : t.todo = rest := by rw [hw]
      have k : Steady s t :=
        { hk with life := by rw [hw], fatal := by rw [hw], ratio := fun hr => by rw [hw]; exact hr }
      exact k.consistent hs hl (State.positioned_micro hs.positioned ho hop ht (by rw [hw]) hp)
        (fun _ => hp ▸ phaseAfter_ne_idle op) (ht.symm ▸ hl')

/-! ## The commands -/

/-- The lowest Free slot is Free. -/
theorem State.slotAt_firstFree {q : Nat} (h : firstFree s.dg = some q) : s.slotAt q = none := by
  unfold State.slotAt
  rw [(firstFree_eq_some.1 h).1]

theorem Datagram.owner_of_hostWritable {x : Datagram} (h : x.hostWritable = true) : x.owner = .host := by
  simp only [Datagram.hostWritable, Bool.and_eq_true, decide_eq_true_eq] at h
  exact h.2

theorem Datagram.queued_of_hostWritable {x : Datagram} (h : x.hostWritable = true) : x.st = .queued := by
  simp only [Datagram.hostWritable, Bool.and_eq_true, decide_eq_true_eq] at h
  exact h.1.1

/-- The host writes a slot that is Free or its own. -/
theorem State.consistent.setSlot (hs : s.consistent) (hl : s.life = .active) {q : Nat}
    (hq : ∀ y, s.slotAt q = some y → y.owner = .host) (x : Slot) : (s.setSlot q x).consistent :=
  Steady.consistent {} hs hl hs.positioned hs.tickOk (hs.linked.setSlot hq x)

/-- The host borrows the lowest Free slot. -/
theorem State.consistent.borrow (hs : s.consistent) (hl : s.life = .active) {q : Nat} (hq : firstFree s.dg = some q)
    (x : Slot) : (s.setSlot q x).consistent :=
  hs.setSlot hl (fun _ hy => nomatch (State.slotAt_firstFree hq).symm.trans hy) x

/-- MBX_XFER hands a queued slot over to the sequencer (42_scheduler.md R185). -/
theorem State.consistent.handOver (hs : s.consistent) (hl : s.life = .active) {q : Nat} {x : Datagram}
    (hx : s.slotAt q = some x) (hw : x.hostWritable = true) (v budget : Nat) :
    (s.handOver q x v budget).consistent := by
  have hset : (s.setSlot q (some { x with owner := .seq })).linked (domainWaits s.todo) (sequencerWaits s.todo) := by
    refine hs.linked.setSlot (fun y hy => ?_) _
    obtain rfl : x = y := Option.some.inj (hx.symm.trans hy)
    exact Datagram.owner_of_hostWritable hw
  have hslot : (s.handOver q x v budget).slotAt q = some { x with owner := .seq } := by
    have h := s.slotAt_setSlot q q (some { x with owner := .seq })
    rwa [if_pos ⟨rfl, State.slotAt_lt hx⟩] at h
  refine Steady.consistent {} hs hl hs.positioned hs.tickOk ⟨hset.1, fun _ => ⟨_, hslot, rfl, fun hd => ?_⟩⟩
  exact nomatch (Datagram.queued_of_hostWritable hw).symm.trans hd

/-- ACTIVATE starts in Idle with no slot lent (43_driver_lifecycle.md R223). -/
theorem State.consistent.activated (hs : s.consistent) (hf : s.fatal = false) (ha : s.a0 ≠ 0) (σ : Strategy) :
    (s.activated σ).consistent := by
  have k : ConfigKept s (s.activated σ) :=
    { shape := by simp [State.activated, Function.comp_def, Domain.restart, domainShape] }
  have hdom : ∀ x ∈ (s.activated σ).dom, x.dg = none := by simp [State.activated, Domain.restart]
  refine ⟨.inl rfl, fun hn => absurd rfl hn, fun d x q hx hq => ?_, fun hm => (nomatch hm), fun _ => ?_,
    k.fieldsOk hs.fieldsOk, fun h => (nomatch hf.symm.trans h), fun h => (nomatch h)⟩
  · exact nomatch (hdom x (List.mem_of_getElem? hx)).symm.trans hq
  · have hpos : 0 < s.a0.toNat := Nat.pos_of_ne_zero fun h0 => ha (BitVec.eq_of_toNat_eq h0)
    exact ⟨hpos, hpos⟩

/-- The field table stays sound when no slave and no domain loses its validity (10_state.md R60 (e)). -/
theorem State.fieldsOk.of_entries (hs : s.fieldsOk) (h1 : t.fldcnt = s.fldcnt) (h2 : t.fld = s.fld)
    (hslv : ∀ v e, s.slaveAt v = some e → ∃ e', t.slaveAt v = some e')
    (hdom : ∀ d x, s.domainAt d = some x → t.domainAt d = some x) : t.fieldsOk := by
  unfold State.fieldsOk at *
  rw [h1, h2]
  refine ⟨hs.1, fun h f hf => ⟨(hs.2 h f hf).1, fun hv => ?_⟩⟩
  obtain ⟨hw, ⟨e, he⟩, x, hx, hlen⟩ := (hs.2 h f hf).2 hv
  exact ⟨hw, hslv _ e he, x, hdom _ x hx, hlen⟩

/-- SLAVE_SET writes a valid entry (43_driver_lifecycle.md R221). -/
theorem State.fieldsOk.slaveSet (hs : s.fieldsOk) {i : Nat} (hi : i < s.nslave) (station : Half) :
    State.fieldsOk { s with slv := s.slv.set i (slaveOperand s station) } := by
  refine hs.of_entries rfl rfl (fun v e he => ?_) fun _ _ hx => hx
  obtain ⟨hv, hvalid⟩ := State.slaveAt_eq_some.1 he
  by_cases hvi : i = v
  · subst hvi
    exact ⟨_, State.slaveAt_eq_some.2 ⟨List.getElem?_set_self hi, rfl⟩⟩
  · exact ⟨e, State.slaveAt_eq_some.2 ⟨(List.getElem?_set_ne hvi).trans hv, hvalid⟩⟩

/-- DOM_CREATE takes an entry that no field names (41_domain.md R151). -/
theorem State.fieldsOk.domCreate (hs : s.fieldsOk) {d : Nat} {x : Domain} (hx : s.dom[d]? = some x)
    (hv : x.valid = false) (y : Domain) : State.fieldsOk { s with dom := s.dom.set d y } := by
  refine hs.of_entries rfl rfl (fun v e he => ⟨e, he⟩) fun i z hz => ?_
  obtain ⟨hi, hvalid⟩ := State.domainAt_eq_some.1 hz
  have hdi : d ≠ i := by
    rintro rfl
    obtain rfl : x = z := Option.some.inj (hx.symm.trans hi)
    exact nomatch hv.symm.trans hvalid
  exact State.domainAt_eq_some.2 ⟨(List.getElem?_set_ne hdi).trans hi, hvalid⟩

/-- DOM_REG_FIELD enters its field at the first handle not in use (41_domain.md R152). -/
theorem State.fieldsOk.domRegField (hs : s.fieldsOk) {d off : Nat} {x : Domain} {e : Slave}
    (hx : s.domainAt d = some x) (he : s.slaveAt (fieldSlave s) = some e) (hw : legalWidth (fieldWidth s) = true)
    (ho : off + fieldWidth s ≤ x.buf.len) (hn : s.fldcnt < s.nfield) (r0 : Word) :
    State.fieldsOk { s with fld := s.fld.set s.fldcnt (fieldOperand s d off), fldcnt := s.fldcnt + 1, r0 := r0 } := by
  refine ⟨?_, fun h f hf => ?_⟩
  · show s.fldcnt + 1 ≤ (s.fld.set s.fldcnt (fieldOperand s d off)).length
    rw [List.length_set]
    exact hn
  · by_cases hh : s.fldcnt = h
    · subst hh
      obtain rfl : fieldOperand s d off = f := Option.some.inj ((List.getElem?_set_self hn).symm.trans hf)
      exact ⟨⟨fun _ => Nat.lt_succ_self _, fun _ => rfl⟩, fun _ => ⟨hw, ⟨e, he⟩, x, hx, ho⟩⟩
    · obtain ⟨hvalid, hrest⟩ := hs.2 h f ((List.getElem?_set_ne hh).symm.trans hf)
      refine ⟨hvalid.trans ?_, hrest⟩
      show h < s.fldcnt ↔ h < s.fldcnt + 1
      omega

/-- Writing a domain's buffer changes no link. -/
theorem State.linked.setDomBuf {w v : Prop} (h : s.linked w v) (d : Nat) (b : Buf) : (s.setDomBuf d b).linked w v := by
  refine ⟨fun i x q hx hq => ?_, h.2⟩
  rw [State.setDomBuf_getElem] at hx
  obtain ⟨z, hz, he⟩ := Option.map_eq_some_iff.1 hx
  split at he <;> subst he <;> exact h.1 i z q hz hq

/-- APP_DONE ends the cycle or begins its outgoing half (42_scheduler.md R178). -/
theorem State.consistent.closeWindow (hs : s.consistent) (hl : s.life = .active) (hp : s.phase = .app) :
    s.closeWindow.consistent := by
  have hlinked := hs.linked_of_todo_nil (State.todo_nil hs.positioned (by simp [State.accepting, hp]))
  rcases s.closeWindow_cases with ⟨-, h⟩ | ⟨hasync, h⟩ <;> rw [h]
  · exact hs.endCycle hl hlinked
  · refine Steady.consistent {} hs hl ⟨rfl, .inr ⟨hasync, List.suffix_refl _⟩⟩ (fun _ => nofun) ?_
    exact State.linked.imp hlinked False.elim False.elim

/-- Every command whose tests passed keeps the invariants of R60; those not listed write result registers only. -/
theorem Effect.consistent {i : Instr} (h : Effect i s t) (hs : s.consistent) : t.consistent := by
  cases h with
  | acquire =>
    exact State.stopped.consistent { s.clearSession_stopped with life := nofun } s.clearTables_fieldsOk
  | slaveSet n station _ hl hi =>
    have hst := hs.stopped (by simp [hl])
    exact State.stopped.consistent { hst with } (hs.fieldsOk.slaveSet hi station)
  | activate σ _ _ hf ha => exact hs.activated hf ha σ
  | deactivate => exact hs.halt
  | release _ hl =>
    have hst := hs.stopped (by simp [hl])
    exact State.stopped.consistent
      { hst with life := nofun, dom := by simp [State.clearTables, Domain.empty] } s.clearTables_fieldsOk
  | appDone _ hl hp => exact hs.closeWindow hl hp
  | mbxPrepSend v size _ e q _ _ _ hl _ _ _ hq => exact hs.borrow hl hq _
  | mbxPrepCheck v _ e q hl _ hq => exact hs.borrow hl hq _
  | mbxPrepFetch v _ e q hl _ hq => exact hs.borrow hl hq _
  | mbxXfer q budget _ x v hl _ hx _ hw => exact hs.handOver hl hx hw v budget
  | mbxXclr _ hl =>
    exact Steady.consistent {} hs hl hs.positioned hs.tickOk (hs.linked.withMx rfl s.log)
  | domCreate d size _ x hl hx hv =>
    have hst := hs.stopped (by simp [hl])
    have hdom : ∀ y ∈ s.dom.set d (freshDomain size s.a0), y.dg = none := fun y hy =>
      (List.mem_or_eq_of_mem_set hy).elim (hst.dom y) (· ▸ rfl)
    exact State.stopped.consistent { hst with dom := hdom } (hs.fieldsOk.domCreate hx hv _)
  | domRegField d off _ x e hl hx he hw ho hn =>
    have hst := hs.stopped (by simp [hl])
    exact State.stopped.consistent { hst with } (hs.fieldsOk.domRegField hx he hw ho hn _)
  | fldWr _ _ f b hl _ _ hr =>
    exact Steady.consistent { State.setDomBuf_configKept hr with } hs hl hs.positioned hs.tickOk
      (hs.linked.setDomBuf f.dom b)
  | dgWr q i _ x hl hx hw =>
    refine hs.setSlot hl (fun y hy => ?_) _
    obtain rfl : x = y := Option.some.inj (hx.symm.trans hy)
    exact Datagram.owner_of_hostWritable hw
  | _ => exact hs

/-! ## Every step -/

/-- The parts of a step keep the invariants of R60. -/
theorem consistent_kept : Kept State.consistent where
  core s t h hs := by
    unfold SameCore at h
    rw [h]
    exact hs
  command _ _ _ _ hs h := h.consistent hs
  fatal _ _ _ hs := hs.fatalStop
  micro _ _ _ hs ho := hs.runMicro ho
  tick _ hs := hs.tick
  reset s _ := s.hardReset_consistent

end

/-- Settles O23, by the parts of a step. -/
theorem stepKeepsTheInvariantsOfR60 : Obligations.StepKeepsTheInvariantsOfR60 := by
  unfold Obligations.StepKeepsTheInvariantsOfR60
  intro s t hs hstep
  exact consistent_kept.step hs hstep

/-! ## What commands and micro-operations leave alone (10_state.md R21, R22, R27) -/

/-- Settles O16: `Fatal()`, `end_cycle` and what the cycle works on are all that a micro-operation writes. -/
theorem microOpsKeepHostRegisters : Obligations.MicroOpsKeepHostRegisters := by
  unfold Obligations.MicroOpsKeepHostRegisters State.sameHostRegisters
  intro s op
  rcases s.runMicro_cases op with h | ⟨-, h⟩ | ⟨-, h⟩ <;> rw [h]
  · simp
  · simp
  · simp

/-- `t` has the argument registers, the parameters and the turns to come of `s`. -/
def ArgumentsKept (s t : State) : Prop :=
  t.a0 = s.a0 ∧ t.a1 = s.a1 ∧ t.a2 = s.a2 ∧ t.a3 = s.a3 ∧ t.par = s.par ∧ t.inputs = s.inputs

theorem State.closeWindow_argumentsKept (s : State) : ArgumentsKept s s.closeWindow := by
  unfold ArgumentsKept
  rcases s.closeWindow_cases with ⟨-, h⟩ | ⟨-, h⟩ <;> rw [h] <;> simp

theorem Effect.argumentsKept {i : Instr} {s t : State} (h : Effect i s t) : ArgumentsKept s t := by
  cases h with
  | appDone => exact s.closeWindow_argumentsKept
  | _ => exact ⟨rfl, rfl, rfl, rfl, rfl, rfl⟩

theorem Failed.argumentsKept {i : Instr} {s t : State} (h : Failed i s t) :
    ArgumentsKept s t ∧ t.r0 = s.r0 ∧ t.r1 = s.r1 ∧ t.r2 = s.r2 ∧ t.r3 = s.r3 := by
  cases h <;> exact ⟨⟨rfl, rfl, rfl, rfl, rfl, rfl⟩, rfl, rfl, rfl, rfl⟩

/-- Settles O17: a command that succeeds ends with ERR = 0, so only `Failed` has to keep the results. -/
theorem commandsKeepArguments : Obligations.CommandsKeepArguments := by
  unfold Obligations.CommandsKeepArguments
  intro i s t hexec
  rcases exec_next hexec with hf | ⟨u, hu, rfl⟩
  · obtain ⟨⟨h0, h1, h2, h3, hpar, hin⟩, hres⟩ := hf.argumentsKept
    exact ⟨h0, h1, h2, h3, hpar, hin, fun _ => hres⟩
  · obtain ⟨h0, h1, h2, h3, hpar, hin⟩ := hu.argumentsKept
    exact ⟨h0, h1, h2, h3, hpar, hin, fun he => absurd rfl he⟩

/-! ## The sticky flags (10_state.md R37, R38) -/

/-- From `s` to `t` neither flag is cleared. -/
def FlagsKept (s t : State) : Prop := (s.ovr = true → t.ovr = true) ∧ (s.fatal = true → t.fatal = true)

section
variable {s t : State}

theorem State.fatalStop_flagsKept (s : State) : FlagsKept s s.fatalStop := ⟨id, fun _ => rfl⟩

theorem State.endCycle_ovr (s : State) : s.endCycle.ovr = s.finishTiming.ovr := by
  rw [State.endCycle_eq]
  split <;> rfl

/-- `end_cycle` only sets `ovr` (42_scheduler.md R179). -/
theorem State.endCycle_flagsKept (s : State) : FlagsKept s s.endCycle :=
  ⟨fun h => by simp [State.endCycle_ovr, State.finishTiming, h], s.endCycle_fatal.trans⟩

theorem State.closeWindow_flagsKept (s : State) : FlagsKept s s.closeWindow := by
  rcases s.closeWindow_cases with ⟨-, h⟩ | ⟨-, h⟩ <;> rw [h]
  · exact s.endCycle_flagsKept
  · exact ⟨id, id⟩

theorem State.tick_flagsKept (s : State) : FlagsKept s s.tick := by
  rcases s.tick_cases with ⟨-, h⟩ | ⟨-, -, h⟩ | ⟨-, -, p, h⟩ <;> rw [h]
  · exact ⟨id, id⟩
  · exact ⟨id, id⟩
  · exact ⟨fun _ => rfl, id⟩

/-- Only RECV_ALL and `end_cycle` write `ovr`, and both only set it. -/
theorem State.runMicro_flagsKept (s : State) (op : MicroOp) : FlagsKept s (s.runMicro op) := by
  cases op with
  | endCycle => exact s.endCycle_flagsKept
  | recvAll => exact ⟨fun h => by simp [State.runMicro, h], id⟩
  | queueAll =>
    show FlagsKept s s.queueAll
    rcases s.queueAll_cases with ⟨-, h⟩ | ⟨-, h⟩
    · exact h ▸ s.fatalStop_flagsKept
    · rw [h.frame]
      exact ⟨id, id⟩
  | mbxOut =>
    show FlagsKept s s.mbxOut
    rcases s.mbxOut_cases with h | ⟨-, h⟩ | ⟨_, _, _, _, _, -, -, -, h⟩ <;> rw [h]
    · exact ⟨id, id⟩
    · exact s.fatalStop_flagsKept
    · exact ⟨id, id⟩
  | mbxIn =>
    show FlagsKept s s.mbxIn
    rcases s.mbxIn_cases with ⟨h, -⟩ | ⟨_, _, _, -, -, -, h⟩ <;> rw [h] <;> exact ⟨id, id⟩
  | _ => exact ⟨id, id⟩

/-- ACQUIRE in Released is the one command that clears a flag (43_driver_lifecycle.md R220). -/
theorem Effect.flagsKept {i : Instr} (h : Effect i s t) (hi : i ≠ .acquire ∨ s.life ≠ .released) : FlagsKept s t := by
  cases h with
  | acquire _ hl => exact (hi.elim (fun h => h rfl) fun h => h hl).elim
  | appDone => exact s.closeWindow_flagsKept
  | _ => exact ⟨id, id⟩

theorem Failed.flagsKept {i : Instr} (h : Failed i s t) : FlagsKept s t := by
  cases h with
  | exhausted => exact s.fatalStop_flagsKept
  | _ => exact ⟨id, id⟩

end

/-- Settles O20, by what each part of a step does to the two flags. -/
theorem stickyFlagsClearOnlyByAcquireOrReset : Obligations.StickyFlagsClearOnlyByAcquireOrReset := by
  unfold Obligations.StickyFlagsClearOnlyByAcquireOrReset
  refine ⟨fun i s t hexec hi => ?_, State.runMicro_flagsKept, State.tick_flagsKept, fun s t hl hexec => ?_,
    fun s => ⟨rfl, rfl⟩⟩
  · rcases exec_next hexec with hf | ⟨u, hu, rfl⟩
    · exact hf.flagsKept
    · exact hu.flagsKept hi
  · have h : exec .acquire s = endCommand { s.clearSession with life := .configuring } :=
      if_neg (not_not_intro hl)
    rw [h] at hexec
    cases hexec
    exact ⟨rfl, rfl⟩

/-! ## The moves of a slot (10_state.md R47) -/

theorem slotMove_refl (a : Slot) : slotMove a a := .inl rfl

/-- A slot that stays in its state has not moved. -/
theorem slotMove_of_st_eq {x y : Datagram} (h : y.st = x.st) : slotMove (some x) (some y) := by
  have hrank : slotRank (some y) = slotRank (some x) := by simp [slotRank, h]
  exact .inl hrank

theorem slotMove_queued {y : Datagram} (h : y.st = .queued) : slotMove none (some y) := by
  simp [slotMove, slotRank, h]

theorem slotMove_done {x y : Datagram} (hx : x.st = .inFlight) (hy : y.st = .done) : slotMove (some x) (some y) := by
  simp [slotMove, slotRank, hx, hy]

theorem slotMove_relSlot (a : Slot) : slotMove a (relSlot a) := by
  unfold relSlot
  split
  · next x =>
    split
    · next hx => simp [slotMove, slotRank, hx]
    · exact slotMove_refl _
  · exact slotMove_refl _

theorem slotMove_sendSlot (a : Slot) : slotMove a (sendSlot a) := by
  unfold sendSlot
  split
  · next x =>
    split
    · next hx => simp [slotMove, slotRank, hx]
    · exact slotMove_refl _
  · exact slotMove_refl _

/-- Where `t` is Active every slot has moved by at most one place, else every slot is Free. -/
def SlotsMoved (s t : State) : Prop :=
  (t.life = .active → ∀ q, slotMove (s.slotAt q) (t.slotAt q)) ∧ (t.life ≠ .active → ∀ q, t.slotAt q = none)

section
variable {s t : State}

theorem SlotsMoved.of_active (hl : t.life = .active) (h : ∀ q, slotMove (s.slotAt q) (t.slotAt q)) : SlotsMoved s t :=
  ⟨fun _ => h, fun hn => absurd hl hn⟩

theorem SlotsMoved.of_free (hl : t.life ≠ .active) (h : ∀ q, t.slotAt q = none) : SlotsMoved s t :=
  ⟨fun ha => absurd ha hl, fun _ => h⟩

theorem SlotsMoved.of_dg (hl : t.life = .active) (h : t.dg = s.dg) : SlotsMoved s t :=
  .of_active hl fun q => by rw [State.slotAt_congr h]; exact slotMove_refl _

/-- A step that writes one slot. -/
theorem SlotsMoved.of_setSlot (hl : t.life = .active) {q : Nat} {x : Slot} (h : t.dg = s.dg.set q x)
    (hx : slotMove (s.slotAt q) x) : SlotsMoved s t := by
  refine .of_active hl fun r => ?_
  rw [State.slotAt_congr (s := s.setSlot q x) h, State.slotAt_setSlot]
  split
  · next hr => exact hr.1 ▸ hx
  · exact slotMove_refl _

/-- A step that takes the lowest Free slot. -/
theorem SlotsMoved.of_borrow (hl : t.life = .active) {q : Nat} {x : Datagram} (hq : firstFree s.dg = some q)
    (h : t.dg = s.dg.set q (some x)) (hx : x.st = .queued) : SlotsMoved s t :=
  .of_setSlot hl h (by rw [State.slotAt_firstFree hq]; exact slotMove_queued hx)

theorem State.halt_slotsMoved (s : State) : SlotsMoved s s.halt := .of_free nofun s.halt_slotAt

theorem State.fatalStop_slotsMoved (s : State) : SlotsMoved s s.fatalStop := .of_free nofun s.fatalStop_slotAt

theorem State.hardReset_slotsMoved (s : State) : SlotsMoved s s.hardReset :=
  .of_free nofun fun q => State.slotAt_map (s := s) (f := fun _ => none) rfl rfl q

theorem State.tick_slotsMoved (hl : s.life = .active) : SlotsMoved s s.tick := .of_dg (s.tick_life.trans hl) s.tick_dg

theorem State.endCycle_slotsMoved (hl : s.life = .active) : SlotsMoved s s.endCycle :=
  .of_dg (s.endCycle_life.trans hl) s.endCycle_dg

theorem State.closeWindow_slotsMoved (hl : s.life = .active) : SlotsMoved s s.closeWindow := by
  rcases s.closeWindow_cases with ⟨-, h⟩ | ⟨-, h⟩ <;> rw [h]
  · exact State.endCycle_slotsMoved hl
  · exact .of_dg hl rfl

/-- QUEUE_ALL takes Free slots (41_domain.md R156). -/
theorem Queued.slotsMoved (hq : Queued 0 s t) (hl : s.life = .active) : SlotsMoved s t := by
  refine .of_active (by rw [hq.frame]; exact hl) fun q => ?_
  cases hs : s.slotAt q with
  | some y =>
    rw [hq.kept q y hs]
    exact slotMove_refl _
  | none =>
    cases ht : t.slotAt q with
    | none => exact slotMove_refl _
    | some y =>
      obtain ⟨i, x, -, -, rfl⟩ := hq.fresh q y ht hs
      exact slotMove_queued rfl

theorem State.recvAll_slotsMoved (hl : s.life = .active) : SlotsMoved s s.recvAll := by
  refine .of_active hl fun q => ?_
  rcases s.recvAll_slotAt q with ⟨x, w, n, hx, hst, h⟩ | ⟨-, h⟩ <;> rw [h]
  · rw [hx]
    exact slotMove_done hst rfl
  · exact slotMove_refl _

theorem State.runMicro_slotsMoved (hl : s.life = .active) (op : MicroOp) : SlotsMoved s (s.runMicro op) := by
  cases op with
  | rel => exact .of_active hl fun q => s.rel_slotAt q ▸ slotMove_relSlot _
  | queueAll =>
    show SlotsMoved s s.queueAll
    rcases s.queueAll_cases with ⟨-, h⟩ | ⟨-, h⟩
    · exact h ▸ s.fatalStop_slotsMoved
    · exact h.slotsMoved hl
  | mbxOut =>
    show SlotsMoved s s.mbxOut
    rcases s.mbxOut_cases with h | ⟨-, h⟩ | ⟨q, _, _, _, _, hq, -, -, h⟩ <;> rw [h]
    · exact .of_dg hl rfl
    · exact s.fatalStop_slotsMoved
    · exact .of_borrow hl hq rfl rfl
  | sendAll => exact .of_active hl fun q => s.sendAll_slotAt q ▸ slotMove_sendSlot _
  | recvAll => exact State.recvAll_slotsMoved hl
  | mbxIn =>
    show SlotsMoved s s.mbxIn
    rcases s.mbxIn_cases with ⟨h, -⟩ | ⟨_, _, _, -, -, -, h⟩ <;> rw [h] <;> exact .of_dg hl rfl
  | endCycle => exact State.endCycle_slotsMoved hl
  | _ => exact .of_dg hl rfl

/-- A command moves a slot only when it borrows one (20_memory.md R81); the commands of Configuring and Released do not
run while Active. -/
theorem Effect.slotsMoved {i : Instr} (h : Effect i s t) (hl : s.life = .active) : SlotsMoved s t := by
  cases h with
  | acquire _ h => exact nomatch hl.symm.trans h
  | slaveSet _ _ _ h => exact nomatch hl.symm.trans h
  | activate _ _ h => exact nomatch hl.symm.trans h
  | release _ h => exact nomatch hl.symm.trans h
  | domCreate _ _ _ _ h => exact nomatch hl.symm.trans h
  | domRegField _ _ _ _ _ h => exact nomatch hl.symm.trans h
  | deactivate => exact s.halt_slotsMoved
  | appDone => exact State.closeWindow_slotsMoved hl
  | mbxPrepSend _ _ _ _ _ _ _ _ _ _ _ _ hq => exact .of_borrow hl hq rfl rfl
  | mbxPrepCheck _ _ _ _ _ _ hq => exact .of_borrow hl hq rfl rfl
  | mbxPrepFetch _ _ _ _ _ _ hq => exact .of_borrow hl hq rfl rfl
  | mbxXfer _ _ _ x _ _ _ hx => exact .of_setSlot hl rfl (hx ▸ slotMove_of_st_eq rfl)
  | dgWr _ _ _ x _ hx => exact .of_setSlot hl rfl (hx ▸ slotMove_of_st_eq rfl)
  | _ => exact .of_dg hl rfl

/-- The host-facing registers have no part in it. -/
theorem SlotsMoved.congr {u v : State} (h : SlotsMoved u v) (hsu : SameCore s u) (hvt : SameCore v t) :
    SlotsMoved s t := by
  unfold SameCore at hsu hvt
  rw [hvt]
  rw [hsu] at h
  exact h

/-- Every step from Active; a reset takes every slot to Free. -/
theorem step_slotsMoved (hl : s.life = .active) (h : step s = .next t) : SlotsMoved s t := by
  have life_of {u : State} (hsu : SameCore s u) : u.life = .active := by rw [hsu]; exact hl
  cases step_turned h with
  | ran hr =>
    cases hr with
    | access hst => exact (SlotsMoved.of_dg hl rfl).congr (.refl s) hst
    | command i u v _ hsu he hvt => exact (he.slotsMoved (life_of hsu)).congr hsu hvt
    | exhausted u _ _ hsu hvt => exact u.fatalStop_slotsMoved.congr hsu hvt
  | micro op rest _ u hsu ht =>
    have hu := life_of hsu
    have hmoved : SlotsMoved u t := ht ▸ State.runMicro_slotsMoved (s := { u with todo := rest }) hu op
    exact hmoved.congr hsu (.refl _)
  | tick u hsu ht => exact ht ▸ (State.tick_slotsMoved (life_of hsu)).congr hsu (.refl _)
  | reset _ u hsu ht => exact ht ▸ u.hardReset_slotsMoved.congr hsu (.refl _)

end

/-- Settles O21; a reset leaves Active, so the exception for it is not needed. -/
theorem slotsMoveOnlyForward : Obligations.SlotsMoveOnlyForward := by
  unfold Obligations.SlotsMoveOnlyForward
  intro s t hl hstep
  obtain ⟨hmove, hfree⟩ := step_slotsMoved hl hstep
  exact ⟨fun ha _ => hmove ha, hfree⟩

/-! ## The register map (10_state.md R25, R26) -/

/-- A read of the register map, offset by offset (10_state.md R25). -/
theorem State.readReg_eq (s : State) (offset : Nat) : s.readReg offset =
    if offset = 0x04 then s.a0 else if offset = 0x08 then s.a1 else if offset = 0x0C then s.a2
    else if offset = 0x10 then s.a3 else if offset = 0x14 then s.r0 else if offset = 0x18 then s.r1
    else if offset = 0x1C then s.r2 else if offset = 0x20 then s.r3 else if offset = 0x24 then s.statusWord
    else if offset = 0x28 then s.err else if offset = 0x2C then s.cycle else if offset = 0x30 then s.tPre
    else if offset = 0x34 then s.tPost else if offset = 0x38 then s.tFin else if offset = 0x3C then s.kdiv
    else if offset = 0x40 then s.tickcnt else if offset = 0x44 then toWord s.fldcnt else 0 := by
  unfold State.readReg
  split
  case h_18 => grind
  all_goals rfl

/-- A write to any offset but CMD, offset by offset (10_state.md R25). -/
theorem writeReg_eq {offset : Nat} (h : offset ≠ 0x00) (w : Word) (s : State) : writeReg offset w s = .next { s with
    a0 := if offset = 0x04 then w else s.a0
    a1 := if offset = 0x08 then w else s.a1
    a2 := if offset = 0x0C then w else s.a2
    a3 := if offset = 0x10 then w else s.a3 } := by
  unfold writeReg
  split
  case h_1 => exact absurd rfl h
  case h_6 =>
    rw [if_neg ‹¬ offset = 4›, if_neg ‹¬ offset = 8›, if_neg ‹¬ offset = 12›, if_neg ‹¬ offset = 16›]
  all_goals rfl

/-- The agent listed first takes its turn unless it is an access that waits (log 9). -/
theorem step_takeTurn {s : State} {e : Input} {rest : List Input} (hi : s.inputs = e :: rest)
    (hw : s.accessWaits e = false) : step s = takeTurn e { s with inputs := rest } := by
  unfold step nextTurn
  rw [hi]
  simp [hw]

/-- While an access waits, the step is the one that CORE's turn listed before it takes (log 9). -/
theorem step_of_accessWaits {s : State} {e : Input} {rest : List Input} (hi : s.inputs = e :: rest)
    (hw : s.accessWaits e = true) : step s = step { s with inputs := .core :: s.inputs } := by
  have hcore : step { s with inputs := .core :: s.inputs } = coreTurn s := step_core (.inr rfl)
  rw [hcore]
  unfold step nextTurn
  rw [hi]
  simp [hw]

/-- A held command is due in Idle and App (10_state.md R23). -/
theorem State.commandDue_iff (s : State) :
    s.commandDue = true ↔ s.held ≠ none ∧ (s.phase = .idle ∨ s.phase = .app) := by
  simp [State.commandDue, State.accepting, Option.isSome_iff_ne_none]

/-- Settles O10: the access waits exactly while a held command is due, else it is the one listed for its offset. -/
theorem registerMapReadsAndWrites : Obligations.RegisterMapReadsAndWrites := by
  unfold Obligations.RegisterMapReadsAndWrites
  intro s rest offset
  dsimp only
  rw [← s.commandDue_iff]
  refine ⟨fun hi => ⟨step_of_accessWaits hi, fun hw => ?_⟩, fun w hi hne => ⟨step_of_accessWaits hi, fun hw => ?_⟩⟩
  · rw [step_takeTurn hi (Bool.eq_false_iff.2 hw)]
    simp only [takeTurn, State.readReg_eq]
    rfl
  · rw [step_takeTurn hi (Bool.eq_false_iff.2 hw)]
    exact writeReg_eq hne w _

/-! ## Presenting a command (10_state.md R23) -/

/-- With no command held nothing waits, and a write of CMD presents its word. -/
theorem step_presentCommand {s : State} {w : Word} {rest : List Input} (hi : s.inputs = .write 0x00 w :: rest)
    (hh : s.held = none) : step s = presentCommand w { s with inputs := rest } :=
  step_takeTurn hi (by simp [State.accessWaits, State.commandDue, hh])

/-- The opcode is the top byte of the word (30_encoding.md R100). -/
theorem opField_toNat (w : Word) : (opField w).toNat = w.toNat / 2 ^ 24 := by
  have hw := w.isLt
  rw [opField, BitVec.extractLsb'_toNat, Nat.shiftRight_eq_div_pow]
  omega

/-- A reserved opcode decodes to no command (30_encoding.md R105). -/
theorem decode_reserved {w : Word} (h : reservedOpcode (opField w).toNat) :
    decode w = .error (.reservedOpcode (opField w)) := by
  unfold reservedOpcode at h
  unfold decode
  split
  case h_23 => rfl
  all_goals omega

/-- In Idle and App the command runs. -/
theorem presentCommand_of_accepting {s : State} (hh : s.held = none) (ha : s.accepting = true) (w : Word) :
    presentCommand w s = runWord w s := by simp [presentCommand, hh, ha]

/-- In the other phases the command is held with its arguments (20_memory.md R95). -/
theorem presentCommand_of_not_accepting {s : State} (hh : s.held = none) (ha : s.accepting = false) (w : Word) :
    presentCommand w s =
      .next { s with held := some { word := w, a0 := s.a0, a1 := s.a1, a2 := s.a2, a3 := s.a3 } } := by
  simp [presentCommand, hh, ha]

/-- Settles O4: with no command held nothing waits, and in Idle and App the word is run. -/
theorem stepRunsThePresentedCommand : Obligations.StepRunsThePresentedCommand := by
  unfold Obligations.StepRunsThePresentedCommand
  intro s w rest hi hh hp
  have ha : s.accepting = true := by simpa [State.accepting] using hp
  rw [step_presentCommand hi hh, presentCommand_of_accepting (s := { s with inputs := rest }) hh ha, runWord]
  refine ⟨fun i hd => by rw [hd], fun hr => ?_⟩
  rw [decode_reserved (opField_toNat w ▸ hr)]
  exact failCommand_illegalCommand _

/-- Settles O5: nothing waits, and in the other phases the word is held. -/
theorem stepHoldsACommandDuringTheCycle : Obligations.StepHoldsACommandDuringTheCycle := by
  unfold Obligations.StepHoldsACommandDuringTheCycle
  intro s w rest hi hh hp
  have ha : s.accepting = false := by rcases hp with h | h | h <;> simp [State.accepting, h]
  rw [step_presentCommand hi hh, presentCommand_of_not_accepting (s := { s with inputs := rest }) hh ha]

/-! ## STATUS (10_state.md R26) -/

/-- Some slot is in flight. -/
theorem State.inflight_iff (s : State) : s.inflight = true ↔ ∃ q x, s.slotAt q = some x ∧ x.st = .inFlight := by
  unfold State.inflight
  rw [List.any_eq_true]
  constructor
  · rintro ⟨o, ho, hf⟩
    obtain ⟨q, hq⟩ := List.mem_iff_getElem?.1 ho
    cases o with
    | none => exact nomatch hf
    | some x => exact ⟨q, x, State.slotAt_eq_some.2 hq, by simpa [Slot.isInFlight] using hf⟩
  · rintro ⟨q, x, hx, hst⟩
    exact ⟨some x, List.mem_of_getElem? (State.slotAt_eq_some.1 hx), by simpa [Slot.isInFlight] using hst⟩

/-- ERR holds an error code. -/
theorem State.cmderr_iff (s : State) : s.cmderr = true ↔ s.err.toNat % 256 ≠ 0 := by
  simp [State.cmderr, BitVec.toNat_eq]

/-- STATUS is its fields side by side: the fields of more than one bit. -/
theorem State.statusWord_fields (s : State) :
    s.statusWord.extractLsb' 0 2 = lifeCode s.life ∧ s.statusWord.extractLsb' 2 3 = phaseCode s.phase ∧
      s.statusWord.extractLsb' 10 3 = mxCode s.mx.st ∧ s.statusWord.extractLsb' 14 18 = 0#18 := by
  refine ⟨?_, ?_, ?_, ?_⟩ <;>
    simp (disch := decide) only [State.statusWord, BitVec.extractLsb'_append_eq_of_add_le,
      BitVec.extractLsb'_append_eq_of_le, BitVec.extractLsb'_eq_self, Nat.reduceSub]

/-- The fields of one bit. -/
theorem State.statusWord_flags (s : State) :
    s.statusWord.getLsbD 5 = (strategyCode s.strategy).getLsbD 0 ∧ s.statusWord.getLsbD 6 = s.tickpend ∧
      s.statusWord.getLsbD 7 = s.ovr ∧ s.statusWord.getLsbD 8 = s.fatal ∧ s.statusWord.getLsbD 9 = s.inflight ∧
      s.statusWord.getLsbD 13 = s.cmderr := by
  simp only [State.statusWord, BitVec.getLsbD_append, Nat.reduceLT, Nat.reduceSub, if_true, if_false]
  simp

/-- Settles O11: each field of STATUS, and the view of the state that it shows. -/
theorem statusWordFields : Obligations.StatusWordFields := by
  unfold Obligations.StatusWordFields
  intro s
  obtain ⟨hlife, hphase, hmx, hzero⟩ := s.statusWord_fields
  obtain ⟨hstrategy, htick, hovr, hfatal, hinflight, hcmderr⟩ := s.statusWord_flags
  rw [hlife, hphase, hmx, hstrategy, hinflight, hcmderr]
  refine ⟨?_, ?_, ?_, htick, hovr, hfatal, s.inflight_iff, ?_, s.cmderr_iff, hzero⟩
  · cases s.life <;> rfl
  · cases s.phase <;> rfl
  · cases s.strategy <;> rfl
  · cases s.mx.st <;> rfl

/-! ## The state after reset (10_state.md R61) -/

theorem State.initial_stopped (p : Config.Params) (z : Config.Sizes) : (State.initial p z).stopped where
  life := nofun
  todo := rfl
  phase := rfl
  tickpend := rfl
  dg _ hx := List.eq_of_mem_replicate hx
  dom x hx := by rw [List.eq_of_mem_replicate hx]; rfl
  mx := rfl

theorem State.initial_consistent (p : Config.Params) (z : Config.Sizes) : (State.initial p z).consistent :=
  (State.initial_stopped p z).consistent (State.fieldsOk_of_empty rfl fun _ hf => List.eq_of_mem_replicate hf)

theorem State.initial_buffersWf (p : Config.Params) (z : Config.Sizes) : (State.initial p z).buffersWf = true := by
  simp [State.buffersWf, State.initial, slotWf, Domain.empty, Sequencer.empty, Buf.wf, Memory.wf, Memory.wfFrom]

theorem State.initial_sizesOk (p : Config.Params) (z : Config.Sizes) : (State.initial p z).sizesOk := by
  refine (State.sizesOk_iff _).2 ⟨fun e he => ?_, fun x hx => ?_, fun o ho => ?_, rfl⟩
  · exact List.eq_of_mem_replicate he ▸ slaveFits_empty _
  · exact List.eq_of_mem_replicate hx ▸ domainFits_empty _
  · exact List.eq_of_mem_replicate ho ▸ slotFits_none _

/-- Settles O26: the state after reset is stopped and every table is empty, whatever the parameters and sizes. -/
theorem resetMeetsTheInvariants : Obligations.ResetMeetsTheInvariants := by
  unfold Obligations.ResetMeetsTheInvariants
  have h : ∀ (p : Config.Params) (z : Config.Sizes), 16 ≤ p.dgmax → p.dgmax ≤ 65535 → 1 ≤ z.nslave →
      z.nslave ≤ 256 → 1 ≤ z.ndom → z.ndom ≤ 256 → 1 ≤ z.nfield → z.nfield ≤ 65536 → 1 ≤ z.ndg → z.ndg ≤ 256 →
      let s := State.initial p z
      s.buffersWf = true ∧ s.consistent ∧ s.sized ∧ s.timely := by
    intro p z h1 h2 h3 h4 h5 h6 h7 h8 h9 h10
    refine ⟨State.initial_buffersWf p z, State.initial_consistent p z, ⟨?_, State.initial_sizesOk p z⟩, ?_⟩
    · simp [State.parametersOk, State.initial, State.nslave, State.ndom, State.nfield, State.ndg, *]
    · simp [State.timely, State.initial]
  refine ⟨h, ?_⟩
  exact h Config.standard Config.standardSizes (by decide) (by decide) (by decide) (by decide) (by decide) (by decide)
    (by decide) (by decide) (by decide) (by decide)

end Sys2Proof.Machine
end

section
/-! The proofs of the family of 20_memory.md: the canonical form of every byte space, the moves of the slots of the
pool, and the arguments of a held command. -/

namespace Sys2Proof.Machine

/-! ## The buffers of the block (20_memory.md R70) -/

/-- The canonical form, table by table. -/
theorem State.buffersWf_iff (s : State) :
    s.buffersWf = true ↔
      (∀ o ∈ s.dg, slotWf o = true) ∧ (∀ x ∈ s.dom, x.buf.wf = true) ∧ s.mx.rbuf.wf = true := by
  simp only [State.buffersWf, Bool.and_eq_true, List.all_eq_true, and_assoc]

/-- The pool is canonical where every slot that is not Free is. -/
theorem State.pool_wf_iff (s : State) :
    (∀ o ∈ s.dg, slotWf o = true) ↔ ∀ q x, s.slotAt q = some x → x.data.wf = true := by
  refine ⟨fun h q x hx => h _ (List.mem_of_getElem? (State.slotAt_eq_some.1 hx)), fun h o ho => ?_⟩
  cases o with
  | none => rfl
  | some x =>
    obtain ⟨q, hq⟩ := List.mem_iff_getElem?.1 ho
    exact h q x (State.slotAt_eq_some.2 hq)

section
variable {s : State}

theorem State.slotAt_wf (hs : s.buffersWf = true) {q : Nat} {x : Datagram} (h : s.slotAt q = some x) :
    x.data.wf = true :=
  s.pool_wf_iff.1 ((State.buffersWf_iff s).1 hs).1 q x h

theorem State.dom_buf_wf (hs : s.buffersWf = true) {d : Nat} {x : Domain} (h : s.dom[d]? = some x) :
    x.buf.wf = true :=
  ((State.buffersWf_iff s).1 hs).2.1 x (List.mem_of_getElem? h)

/-- The buffer of a field, also where the field names no domain (log 17). -/
theorem State.fieldBuf_wf (hs : s.buffersWf = true) (f : Field) : (s.fieldBuf f).wf = true := by
  unfold State.fieldBuf
  split
  · next x hx => exact State.dom_buf_wf hs hx
  · exact Buf.zero_wf 0

end

theorem Buf.memWrite_wf {b b' : Buf} (hb : b.wf = true) {a n : Nat} {v : Word} (h : b.memWrite a n v = some b') :
    b'.wf = true := by
  rw [(Buf.memWrite_eq_some.1 h).2]
  exact Buf.putBytes_wf hb a v n

/-! ## What keeps the canonical form -/

/-- From `s` to `t` every table of buffers keeps the canonical form. A field left out is one that the change does not
touch. -/
structure BuffersKept (s t : State) : Prop where
  dg : TableKept (fun o => slotWf o = true) s.dg t.dg := by exact TableKept.refl _
  dom : TableKept (fun x => x.buf.wf = true) s.dom t.dom := by exact TableKept.refl _
  rbuf : s.mx.rbuf.wf = true → t.mx.rbuf.wf = true := by exact id

theorem BuffersKept.buffersWf {s t : State} (k : BuffersKept s t) (hs : s.buffersWf = true) : t.buffersWf = true := by
  obtain ⟨hdg, hdom, hrbuf⟩ := (State.buffersWf_iff s).1 hs
  exact (State.buffersWf_iff t).2 ⟨k.dg.2 hdg, k.dom.2 hdom, k.rbuf hrbuf⟩

/-- The host-facing registers are no byte spaces. -/
theorem SameCore.buffersKept {s t : State} (h : SameCore s t) : BuffersKept s t := by
  unfold SameCore at h
  rw [h]
  exact {}

section
variable {s : State}

/-- A datagram with a canonical buffer, in any slot. -/
theorem State.setSlot_buffersKept (q : Nat) {x : Datagram} (hx : x.data.wf = true) :
    BuffersKept s (s.setSlot q (some x)) :=
  { dg := .set _ _ hx }

/-! ### Stopping, the tick, and the tables at reset -/

theorem State.halt_buffersKept (s : State) : BuffersKept s s.halt where
  dg := .map _ fun _ _ => rfl
  dom := .map _ fun _ => id

theorem State.fatalStop_buffersKept (s : State) : BuffersKept s s.fatalStop :=
  { s.halt_buffersKept with }

theorem State.endCycle_buffersKept (s : State) : BuffersKept s s.endCycle where
  dg := by rw [s.endCycle_dg]; exact .refl _
  dom := by rw [s.endCycle_dom]; exact .refl _
  rbuf := by rw [s.endCycle_mx]; exact id

theorem State.closeWindow_buffersKept (s : State) : BuffersKept s s.closeWindow := by
  rcases s.closeWindow_cases with ⟨-, h⟩ | ⟨-, h⟩ <;> rw [h]
  · exact s.endCycle_buffersKept
  · exact {}

theorem State.tick_buffersKept (s : State) : BuffersKept s s.tick := by
  rcases s.tick_cases with ⟨-, h⟩ | ⟨-, -, h⟩ | ⟨-, -, p, h⟩ <;> rw [h] <;> exact {}

theorem State.clearTables_buffersKept (s : State) : BuffersKept s s.clearTables where
  dom := .map _ fun _ _ => rfl

theorem State.clearSession_buffersKept (s : State) : BuffersKept s s.clearSession :=
  { s.clearTables_buffersKept with
    dg := .map _ fun _ _ => rfl
    rbuf := fun _ => rfl }

theorem State.hardReset_buffersKept (s : State) : BuffersKept s s.hardReset :=
  { s.clearSession_buffersKept with }

/-! ### The micro-operations -/

theorem relSlot_wf {o : Slot} (h : slotWf o = true) : slotWf (relSlot o) = true := by
  unfold relSlot
  split
  · split
    · rfl
    · exact h
  · rfl

theorem sendSlot_wf {o : Slot} (h : slotWf o = true) : slotWf (sendSlot o) = true := by
  unfold sendSlot
  split
  · split <;> exact h
  · rfl

/-- Whatever the wire answers is laid out canonically (20_memory.md R86). -/
theorem completeSlot_wf (w : List WireAnswer) (n : Nat) (x : Datagram) : (completeSlot w n x).data.wf = true :=
  Buf.ofBytes_wf _

theorem State.recvAll_buffersKept (s : State) : BuffersKept s s.recvAll where
  dg := by
    refine ⟨(recvLoop_answered s.dg s.wire s.draws).length, fun h => s.recvAll.pool_wf_iff.2 fun q y hy => ?_⟩
    rcases s.recvAll_slotAt q with ⟨x, w, n, -, -, hc⟩ | ⟨-, hk⟩
    · obtain rfl : completeSlot w n x = y := Option.some.inj (hc.symm.trans hy)
      exact completeSlot_wf w n x
    · exact s.pool_wf_iff.1 h q y (hk.symm.trans hy)

/-- QUEUE_ALL copies exchange buffers into the pool (41_domain.md R156). -/
theorem Queued.buffersKept {t : State} (hq : Queued 0 s t) (hs : s.buffersWf = true) : BuffersKept s t where
  dg := by
    refine ⟨hq.dgLength, fun _ => t.pool_wf_iff.2 fun q y hy => ?_⟩
    cases hsq : s.slotAt q with
    | some z =>
      obtain rfl : z = y := Option.some.inj ((hq.kept q z hsq).symm.trans hy)
      exact State.slotAt_wf hs hsq
    | none =>
      obtain ⟨i, x, hx, -, rfl⟩ := hq.fresh q y hy hsq
      exact State.dom_buf_wf hs hx
  dom := by
    refine .of_getElem hq.domLength fun i x y hx hy h => ?_
    cases hv : x.valid with
    | false => exact Option.some.inj ((hq.invalid i x (Nat.zero_le i) hx hv).symm.trans hy) ▸ h
    | true =>
      obtain ⟨q, ht, -⟩ := hq.linked i x (Nat.zero_le i) hx hv
      obtain rfl : { x with dg := some q } = y := Option.some.inj (ht.symm.trans hy)
      exact h
  rbuf := by
    rw [hq.frame]
    exact id

theorem State.queueAll_buffersKept (hs : s.buffersWf = true) : BuffersKept s s.queueAll := by
  rcases s.queueAll_cases with ⟨-, h⟩ | ⟨-, h⟩
  · exact h ▸ s.fatalStop_buffersKept
  · exact h.buffersKept hs

/-- The sequencer's reads start as zeros (20_memory.md R81). -/
theorem State.mbxOut_buffersKept (s : State) : BuffersKept s s.mbxOut := by
  rcases s.mbxOut_cases with h | ⟨-, h⟩ | ⟨q, station, offset, len, next, -, -, -, h⟩ <;> rw [h]
  · exact {}
  · exact s.fatalStop_buffersKept
  · exact { dg := .set _ _ (Buf.zero_wf len) }

/-- PROCESS_ALL copies the answer of a slot into an exchange buffer (41_domain.md R157). -/
theorem processDomain_wf (hs : s.buffersWf = true) {x : Domain} (hx : x.buf.wf = true) :
    (processDomain s x).buf.wf = true := by
  rcases processDomain_cases s x with ⟨e, -⟩ | ⟨q, y, -, hy, ⟨-, e⟩ | ⟨-, e⟩⟩ <;> rw [e]
  · exact hx
  · exact Buf.copyInto_wf _ (State.slotAt_wf hs (State.doneAt_eq_some.1 hy).1)
  · exact hx

theorem State.processAll_buffersKept (hs : s.buffersWf = true) : BuffersKept s s.processAll where
  dom := .map _ fun x hx => by
    split
    · exact processDomain_wf hs hx
    · exact hx

/-- MBX_IN copies a payload into `rbuf` byte by byte (42_scheduler.md R191). -/
theorem State.mbxIn_buffersKept (s : State) : BuffersKept s s.mbxIn := by
  rcases s.mbxIn_cases with ⟨h, -⟩ | ⟨x, m, lg, -, -, hm, h⟩ <;> rw [h]
  · exact {}
  · have hrbuf : s.mx.rbuf.wf = true → m.rbuf.wf = true := fun hw => by
      rcases hm.rbuf with e | ⟨n, e⟩ <;> rw [e]
      · exact hw
      · exact Buf.blit_wf hw _ _ _
    exact { rbuf := hrbuf }

theorem State.runMicro_buffersKept (hs : s.buffersWf = true) (op : MicroOp) : BuffersKept s (s.runMicro op) := by
  cases op with
  | rel => exact { dg := .map _ fun _ => relSlot_wf }
  | queueAll => exact State.queueAll_buffersKept hs
  | mbxOut => exact s.mbxOut_buffersKept
  | sendAll => exact { dg := .map _ fun _ => sendSlot_wf }
  | toAwaiting => exact {}
  | recvAll => exact s.recvAll_buffersKept
  | toProcessing => exact {}
  | processAll => exact State.processAll_buffersKept hs
  | mbxIn => exact s.mbxIn_buffersKept
  | toApp => exact {}
  | endCycle => exact s.endCycle_buffersKept

/-! ### The commands -/

theorem State.setDomBuf_buffersKept (d : Nat) {b : Buf} (hb : b.wf = true) : BuffersKept s (s.setDomBuf d b) where
  dom := by
    refine .of_getElem (by simp) fun i x y hx hy hw => ?_
    rw [State.setDomBuf_getElem, hx, Option.map_some, Option.some.injEq] at hy
    split at hy <;> subst hy
    · exact hb
    · exact hw

/-- Every command whose tests passed keeps the canonical form: a new buffer starts as zeros, and DG_WR and FLD_WR write
inside the buffer they name (20_memory.md R78). -/
theorem Effect.buffersKept {i : Instr} {t : State} (h : Effect i s t) (hs : s.buffersWf = true) : BuffersKept s t := by
  cases h with
  | acquire => exact { s.clearSession_buffersKept with }
  | slaveSet => exact {}
  | activate => exact { dg := .map _ fun _ _ => rfl, dom := .map _ fun _ => id }
  | deactivate => exact s.halt_buffersKept
  | release => exact { s.clearTables_buffersKept with }
  | appDone => exact s.closeWindow_buffersKept
  | mbxPrepSend v size _ e q =>
    have hwf : (requestDatagram e v size (byte0 s.a0)).data.wf = true := putHeader_wf (Buf.zero_wf _) _ _ _
    exact { State.setSlot_buffersKept q hwf with }
  | mbxPrepCheck v _ e q =>
    have hwf : (s.pollDatagram e .host v).data.wf = true := Buf.zero_wf _
    exact { State.setSlot_buffersKept q hwf with }
  | mbxCheck => exact {}
  | mbxPrepFetch v _ e q =>
    have hwf : (fetchDatagram e .host v).data.wf = true := Buf.zero_wf _
    exact { State.setSlot_buffersKept q hwf with }
  | mbxFetch => exact {}
  | mbxXfer q budget _ x v _ _ hx =>
    have hwf : x.data.wf = true := State.slotAt_wf hs hx
    exact { State.setSlot_buffersKept q (x := { x with owner := .seq }) hwf with }
  | mbxXstat => exact {}
  | mbxXrd => exact {}
  | mbxXclr => exact {}
  | domCreate => exact { dom := .set _ _ (Buf.zero_wf _) }
  | domRegField => exact {}
  | fldRd => exact {}
  | fldWr _ _ f b _ _ _ hr => exact State.setDomBuf_buffersKept f.dom (Buf.memWrite_wf (State.fieldBuf_wf hs f) hr)
  | dgRd => exact {}
  | dgWr q i _ x _ hx => exact State.setSlot_buffersKept q (Buf.set_wf (State.slotAt_wf hs hx) i (byte0 s.a0))
  | dgStat => exact {}

end

/-! ### Every step -/

/-- The parts of a step keep the canonical form. -/
theorem buffersWf_kept : Kept (fun s => s.buffersWf = true) where
  core _ _ h hs := h.buffersKept.buffersWf hs
  command _ _ _ _ hs h := (h.buffersKept hs).buffersWf hs
  fatal s _ _ hs := s.fatalStop_buffersKept.buffersWf hs
  micro s op rest hs _ := by
    have hs' : State.buffersWf { s with todo := rest } = true := hs
    exact (State.runMicro_buffersKept hs' op).buffersWf hs'
  tick s hs := s.tick_buffersKept.buffersWf hs
  reset s hs := s.hardReset_buffersKept.buffersWf hs

/-- Settles O22, by the canonical form that each part of a step keeps. -/
theorem stepKeepsBuffersCanonical : Obligations.StepKeepsBuffersCanonical := by
  unfold Obligations.StepKeepsBuffersCanonical
  intro s t hs hstep
  exact buffersWf_kept.step hs hstep

/-! ## The slots of the pool (20_memory.md R85, R86, R88) -/

theorem sendSlot_of_queued {x : Datagram} (h : x.st = .queued) :
    sendSlot (some x) = some { x with st := .inFlight } := if_pos h

theorem sendSlot_of_not_queued {o : Slot} (h : ∀ x, o = some x → x.st ≠ .queued) : sendSlot o = o := by
  cases o with
  | none => rfl
  | some x => exact if_neg (h x rfl)

theorem relSlot_of_done {x : Datagram} (h : x.st = .done) : relSlot (some x) = none := if_pos h

theorem relSlot_of_not_done {o : Slot} (h : ∀ x, o = some x → x.st ≠ .done) : relSlot o = o := by
  cases o with
  | none => rfl
  | some x => exact if_neg (h x rfl)

/-- Settles O32, by what each operation does to one slot. -/
theorem sendAllAndRel : Obligations.SendAllAndRel := by
  unfold Obligations.SendAllAndRel
  intro s q
  rw [State.sendAll_slotAt, State.rel_slotAt]
  refine ⟨fun x hx hst => ?_, sendSlot_of_not_queued, fun x hx hst => ?_, relSlot_of_not_done, rfl, rfl⟩
  · rw [hx, sendSlot_of_queued hst]
  · rw [hx, relSlot_of_done hst]

/-- A Lost answer came to some slot in flight (20_memory.md R86). -/
theorem recvLoop_lost_iff (s : State) :
    (recvLoop s.dg s.wire s.draws).lost = true ↔
      ∃ q x y, s.slotAt q = some x ∧ x.st = .inFlight ∧ s.recvAll.slotAt q = some y ∧ y.status = .lost := by
  simp only [State.slotAt_eq_some, State.recvAll_dg]
  exact (recvLoop_answered s.dg s.wire s.draws).lost

/-- Settles O29: a slot is completed exactly when it was in flight, and `ovr` follows the Lost answers. -/
theorem recvAllCompletesEverySlotInFlight : Obligations.RecvAllCompletesEverySlotInFlight := by
  unfold Obligations.RecvAllCompletesEverySlotInFlight
  intro s
  dsimp only
  refine ⟨fun q x hx hst => ?_, fun q hq => ?_, ?_, rfl⟩
  · rcases s.recvAll_slotAt q with ⟨x', w, n, hx', -, hc⟩ | ⟨hnot, -⟩
    · obtain rfl : x = x' := Option.some.inj (hx.symm.trans hx')
      exact ⟨answerStatus w n, answerBytes w n x.data.len, answerBytes_length _ _ _, hc⟩
    · exact absurd hst (hnot x hx)
  · rcases s.recvAll_slotAt q with ⟨x, -, -, hx, hst, -⟩ | ⟨-, hk⟩
    · exact absurd hst (hq x hx)
    · exact hk
  · rw [State.recvAll_ovr, Bool.or_eq_true, Bool.and_eq_true, decide_eq_true_eq, recvLoop_lost_iff]

/-! ## The arguments of a held command (20_memory.md R95) -/

/-- With no program left CORE runs the held command in Idle and App (42_scheduler.md R176). -/
theorem coreTurn_runHeld {s : State} {h : Held} (ht : s.todo = []) (hh : s.held = some h) (ha : s.accepting = true) :
    coreTurn s = runHeld h s := by
  simp [coreTurn, ht, hh, ha]

/-- The held word runs on the sampled arguments, and the argument registers are put back (log 20). -/
theorem runHeld_of_next {h : Held} {s t : State}
    (hr : runWord h.word (State.withArgs { s with held := none } h) = .next t) :
    runHeld h s = .next (s.restoreArgs t) := by
  unfold runHeld
  rw [hr]

/-- A word with a reserved opcode ends with IllegalCommand (30_encoding.md R105). -/
theorem runWord_reserved {w : Word} (h : reservedOpcode (w.toNat / 2 ^ 24)) (s : State) :
    runWord w s = failsWith s 15 := by
  rw [runWord, decode_reserved (opField_toNat w ▸ h)]
  exact failCommand_illegalCommand s

/-- Settles O6: the step is CORE's turn, which runs the held command. -/
theorem heldCommandRunsWithSampledArguments : Obligations.HeldCommandRunsWithSampledArguments := by
  unfold Obligations.HeldCommandRunsWithSampledArguments
  intro s h hi ht hh hp
  have ha : s.accepting = true := by simpa [State.accepting] using hp
  have hstep : step s = runHeld h { s with inputs := s.inputs.tail } := by
    rw [step_core hi]
    exact coreTurn_runHeld ht hh ha
  rw [hstep]
  refine ⟨fun i t hd hx => runHeld_of_next ?_, fun hr => runHeld_of_next (runWord_reserved hr _)⟩
  rw [runWord, hd]
  exact hx

end Sys2Proof.Machine
end

section
/-! The proofs of the family of 30_encoding.md: the decoder reads three numbers from a word, so that it undoes the
encoder, and every word is a well-formed command or has a reserved opcode. -/

namespace Sys2Proof

/-! ## The fields of a word as numbers (30_encoding.md R100, R101) -/

theorem immField_eq (w : Word) : immField w = w.toNat % 2 ^ 16 := by
  rw [immField, immBits, BitVec.extractLsb'_toNat, Nat.shiftRight_zero]

theorem immBits_eq (w : Word) : immBits w = BitVec.ofNat 16 (immField w) := by
  rw [immField, BitVec.ofNat_toNat, BitVec.setWidth_eq]

/-- The slave index of MBX_FETCH is the immediate's low byte (40_mailbox.md R132). -/
theorem immLowByte_eq (w : Word) : immLowByte w = immField w % 256 := by
  rw [immLowByte, immField_eq, BitVec.extractLsb'_toNat, Nat.shiftRight_zero]
  omega

/-- The strategy of ACTIVATE is the parity of the immediate (43_driver_lifecycle.md R223). -/
theorem strategyField_eq (w : Word) : strategyField w = if immField w % 2 = 1 then .async else .sync := by
  have hbit : w.getLsbD 0 = decide (immField w % 2 = 1) := by
    rw [BitVec.getLsbD, Nat.testBit_zero, immField_eq, Nat.mod_mod_of_dvd _ (by decide)]
  rw [strategyField, hbit]
  simp only [decide_eq_true_eq]

theorem fitsIndex_aField (w : Word) : fitsIndex (aField w) = true :=
  decide_eq_true (w.extractLsb' 16 8).isLt

theorem fitsIndex_immLowByte (w : Word) : fitsIndex (immLowByte w) = true :=
  decide_eq_true (w.extractLsb' 0 8).isLt

theorem fitsImm_immField (w : Word) : fitsImm (immField w) = true :=
  decide_eq_true (immBits w).isLt

/-! ## The decoder undoes the encoder (30_encoding.md R103, R104) -/

/-- The opcode selects the command's own row, whose operands are the index and the immediate. Three rows read the
immediate otherwise: as bits, as its bit 0, as its low byte. -/
theorem decode_encode {i : Instr} (h : i.wf = true) : decode (encode i) = .ok i := by
  obtain ⟨hop, ha, himm⟩ := Laws.EncodedFields.fields i h
  unfold decode
  rw [immBits_eq, strategyField_eq, immLowByte_eq, hop, ha, himm]
  cases i with
  | slaveSet v station =>
    have hbits : BitVec.ofNat 16 station.toNat = station := by rw [BitVec.ofNat_toNat, BitVec.setWidth_eq]
    exact congrArg (fun b => Except.ok (Instr.slaveSet v b)) hbits
  | activate strategy => cases strategy <;> rfl
  | mbxFetch q v =>
    have hv : v < 256 := of_decide_eq_true (Bool.and_eq_true_iff.1 h).2
    exact congrArg (fun n => Except.ok (Instr.mbxFetch q n)) (Nat.mod_eq_of_lt hv)
  | _ => rfl

/-- Settles O1, by the fields of the encoded word. -/
theorem decodeOfEncode : Obligations.DecodeOfEncode := by
  unfold Obligations.DecodeOfEncode
  exact fun _ => decode_encode

/-! ## Every word is a command or has a reserved opcode (30_encoding.md R105) -/

/-- What the decoder reads fits the field it was read from. -/
theorem decode_wf {w : Word} {i : Instr} (h : decode w = .ok i) : i.wf = true := by
  unfold decode at h
  split at h
  case h_23 => exact nomatch h
  all_goals
    cases h
    simp only [Instr.wf, fitsIndex_aField, fitsIndex_immLowByte, fitsImm_immField, Bool.and_self]

end Sys2Proof

namespace Sys2Proof.Machine

/-- The decoder rejects nothing but the list of R105: the converse of `decode_reserved`. -/
theorem reservedOpcode_of_decode_error {w : Word} {e : DecodeError} (h : decode w = .error e) :
    reservedOpcode (opField w).toNat := by
  unfold decode at h
  split at h
  case h_23 =>
    have hlt := (opField w).isLt
    unfold reservedOpcode
    simp only [imp_false] at *
    omega
  all_goals exact nomatch h

theorem exists_decode_of_not_reserved {w : Word} (h : ¬ reservedOpcode (opField w).toNat) :
    ∃ i, decode w = .ok i := by
  cases hd : decode w with
  | ok i => exact ⟨i, rfl⟩
  | error e => exact absurd (reservedOpcode_of_decode_error hd) h

theorem runWord_of_decode {w : Word} {i : Instr} (h : decode w = .ok i) (s : State) : runWord w s = exec i s := by
  rw [runWord, h]

/-- Settles O2: the decoder rejects the reserved opcodes and no other, and what it accepts is run. -/
theorem reservedOpcodesAreIllegal : Obligations.ReservedOpcodesAreIllegal := by
  unfold Obligations.ReservedOpcodesAreIllegal
  intro w s
  refine ⟨fun hr => ⟨decode_reserved (opField_toNat w ▸ hr), runWord_reserved hr s⟩, fun hr => ?_⟩
  obtain ⟨i, hd⟩ := exists_decode_of_not_reserved (opField_toNat w ▸ hr)
  exact ⟨i, hd, decode_wf hd, runWord_of_decode hd s⟩

/-- Settles O3: the words are closed, so the decoder is evaluated on each of the nine. -/
theorem wordsOfTheSpecDecode : Obligations.WordsOfTheSpecDecode := by
  unfold Obligations.WordsOfTheSpecDecode
  decide

end Sys2Proof.Machine
end

section
/-! The proofs of the family of 40_mailbox.md: the decoding of a fetched frame, and the commands of the mailbox engine
and of buffer access. Each of the eight commands is a sequence of tests drawn from the same six and is written once so,
and each clause of a statement follows the tests up to the one that decides it. -/

namespace Sys2Proof.Machine

/-! ## The fields of a word as numbers -/

/-- Two fields side by side, as a number. -/
theorem append_toNat {m n : Nat} (x : BitVec m) (y : BitVec n) : (x ++ y).toNat = x.toNat * 2 ^ n + y.toNat := by
  rw [BitVec.toNat_append, ← Nat.shiftLeft_add_eq_or_of_lt y.isLt, Nat.shiftLeft_eq]

theorem ofBool_toNat (p : Bool) : (BitVec.ofBool p).toNat = if p then 1 else 0 := by cases p <;> rfl

/-- ERR as a number (10_state.md R27). -/
theorem errWord_toNat (code : Byte) (known : Bool) (info : Half) :
    (errWord code known info).toNat = code.toNat + (if known then 256 else 0) + 65536 * info.toNat := by
  simp only [errWord, append_toNat, ofBool_toNat, BitVec.toNat_ofNat]
  split <;> omega

/-- R3 of DG_STAT as a number (40_mailbox.md R138). -/
theorem dgStatWord_toNat (x : Datagram) : (dgStatWord x).toNat =
    (kindCode x.kind).toNat + 256 * (ownerClass x.owner).toNat + 65536 * (ownerDomain x.owner).toNat := by
  simp only [dgStatWord, append_toNat, BitVec.toNat_ofNat]
  omega

/-- The low byte of a 16-bit quantity. -/
theorem Half.lowByte_toNat (v : Half) : (v.extractLsb' 0 8).toNat = v.toNat % 256 := by
  rw [BitVec.extractLsb'_toNat, Nat.shiftRight_zero]

/-- The high byte of a 16-bit quantity. -/
theorem Half.highByte_toNat (v : Half) : (v.extractLsb' 8 8).toNat = v.toNat / 256 := by
  have hv := v.isLt
  rw [BitVec.extractLsb'_toNat, Nat.shiftRight_eq_div_pow]
  omega

theorem byte0_toNat (w : Word) : (byte0 w).toNat = w.toNat % 256 := by
  rw [byte0, BitVec.extractLsb'_toNat, Nat.shiftRight_zero]

/-! ## Mailbox frames (40_mailbox.md R121, R127, R130) -/

/-- `mbx_ready` is bit 3 of byte 5 (40_mailbox.md R127). -/
theorem mbxReady_eq (b : Buf) : mbxReady b = decide ((b.get 5).toNat / 8 % 2 = 1) := by
  rw [mbxReady, BitVec.getLsbD, Nat.testBit_eq_decide_div_mod_eq]

/-- R0 of MBX_CHECK (40_mailbox.md R128). -/
theorem mbxReady_setWidth (b : Buf) : (BitVec.ofBool (mbxReady b)).setWidth 32 =
    if (b.get 5).toNat / 8 % 2 = 1 then (1 : Word) else 0 := by
  rw [mbxReady_eq]
  split
  · next h => rw [decide_eq_true h]; rfl
  · next h => rw [decide_eq_false h]; rfl

/-- The protocol type of a frame (40_mailbox.md R121). -/
theorem typeNibble_toNat (v : Byte) : (v.extractLsb' 0 4).toNat = v.toNat % 16 := by
  rw [BitVec.extractLsb'_toNat, Nat.shiftRight_zero]

/-- `fetch_decode` with the length and the type of the frame as numbers (40_mailbox.md R130). -/
theorem fetchDecode_eq (txSize : Nat) (b : Buf) : fetchDecode txSize b =
    let len := (b.get 0).toNat + 256 * (b.get 1).toNat
    if txSize < 6 then .corrupt
    else if b.len < 6 then .bounds
    else if txSize < len + 6 then .corrupt
    else if (b.get 5).toNat % 16 = 0 then (if b.len < 10 then .bounds else .errorReply (b.rd16 8))
    else if b.len < 6 + len then .bounds
    else .data ((b.get 5).extractLsb' 0 4) (b.rd16 0) := by
  have htype : (b.get 5).extractLsb' 0 4 = 0 ↔ (b.get 5).toNat % 16 = 0 := by
    rw [BitVec.toNat_eq, typeNibble_toNat]
    rfl
  simp only [fetchDecode, Buf.rd16_toNat, htype]

/-- Settles O40: each clause fails the tests before its own. -/
theorem fetchDecodeTestsInOrder : Obligations.FetchDecodeTestsInOrder := by
  unfold Obligations.FetchDecodeTestsInOrder
  intro txSize b
  dsimp only
  rw [fetchDecode_eq]
  refine ⟨fun h1 => ?_, fun h1 h2 => ?_, fun h1 h2 h3 => ?_, fun h2 h3 h4 h5 => ?_, fun h3 h4 h5 => ?_,
    fun h2 h3 h4 h6 => ?_, fun h3 h4 h6 => ?_⟩
  · rw [if_pos h1]
  · rw [if_neg (by omega), if_pos h2]
  · rw [if_neg (by omega), if_neg (by omega), if_pos h3]
  · rw [if_neg (by omega), if_neg (by omega), if_neg (by omega), if_pos h4, if_pos h5]
  · rw [if_neg (by omega), if_neg (by omega), if_neg (by omega), if_pos h4, if_neg (by omega)]
    exact ⟨b.rd16 8, rfl, Buf.rd16_toNat b 8⟩
  · rw [if_neg (by omega), if_neg (by omega), if_neg (by omega), if_neg h4, if_pos h6]
  · rw [if_neg (by omega), if_neg (by omega), if_neg (by omega), if_neg h4, if_neg (by omega)]
    exact ⟨_, _, rfl, typeNibble_toNat _, Buf.rd16_toNat b 0⟩

/-! ## The lowest Free slot (20_memory.md R81) -/

/-- A slot inside the pool is Free exactly where the pool lists it as Free. -/
theorem State.slotAt_eq_none {s : State} {q : Nat} (hq : q < s.ndg) : s.slotAt q = none ↔ s.dg[q]? = some none := by
  have hget : s.dg[q]? = some s.dg[q] := List.getElem?_eq_getElem hq
  rw [State.slotAt, hget]
  exact Option.some_inj.symm

/-- `firstFree` names the lowest Free slot. -/
theorem State.firstFree_eq_some {s : State} {q : Nat} :
    firstFree s.dg = some q ↔ q < s.ndg ∧ s.slotAt q = none ∧ ∀ r, r < q → s.slotAt r ≠ none := by
  simp only [Machine.firstFree_eq_some, Option.ne_none_iff_exists', State.slotAt_eq_some]
  refine ⟨fun ⟨hfree, hlow⟩ => ?_, fun ⟨hq, hfree, hlow⟩ => ⟨(State.slotAt_eq_none hq).1 hfree, hlow⟩⟩
  have hq : q < s.ndg := (List.getElem?_eq_some_iff.1 hfree).1
  exact ⟨hq, (State.slotAt_eq_none hq).2 hfree, hlow⟩

/-- `firstFree` names no slot exactly when none is Free. -/
theorem State.firstFree_eq_none {s : State} : firstFree s.dg = none ↔ ∀ q, q < s.ndg → s.slotAt q ≠ none := by
  rw [Machine.firstFree_eq_none]
  refine ⟨fun h q hq hfree => ?_, fun h x hx hnone => ?_⟩
  · exact h none (List.mem_of_getElem? ((State.slotAt_eq_none hq).1 hfree)) rfl
  · obtain ⟨q, hq, rfl⟩ := List.mem_iff_getElem.1 hx
    exact h q hq ((State.slotAt_eq_none hq).2 (by rw [List.getElem?_eq_getElem hq, hnone]))

/-! ## The tests of the commands (40_mailbox.md R137) -/

/-- What a command answers: shorthand for the statements below. -/
abbrev Answer : Type := Host.Outcome State Fault Refusal

/-- The test of `life`: the rest `o` of the command is for a block that is Active. -/
def ifActive (s : State) (o : Answer) : Answer := if s.life ≠ .active then failsWith s 10 else o

/-- The test of a slot's index. -/
def ifIndex (s : State) (q : Nat) (o : Answer) : Answer := if s.ndg ≤ q then failsWith s 11 else o

/-- The test of a slave's index. -/
def ifSlave (s : State) (v : Nat) (f : Slave → Answer) : Answer :=
  match s.slaveAt v with
  | none => failsWith s 11
  | some e => f e

/-- The test that a slot is not Free. -/
def ifTaken (s : State) (q : Nat) (f : Datagram → Answer) : Answer :=
  match s.slotAt q with
  | none => failsWith s 10
  | some x => f x

/-- The test that a slot is Done. -/
def ifDone (s : State) (q : Nat) (f : Datagram → Answer) : Answer :=
  match s.doneAt q with
  | none => failsWith s 10
  | some x => f x

/-- The allocation of a slot for `x`, with what becomes of a host command when none is Free (20_memory.md R84). -/
def ifLent (s : State) (x : Datagram) (f : Nat → State → Answer) : Answer :=
  match s.borrow x with
  | none => .next { s.fatalStop with err := 9 }
  | some (q, t) => f q t

section
variable {s : State}

theorem ifActive_fails (h : s.life ≠ .active) (o : Answer) : ifActive s o = failsWith s 10 := if_pos h

theorem ifActive_passes (h : s.life = .active) (o : Answer) : ifActive s o = o := if_neg (not_not_intro h)

theorem ifIndex_fails {q : Nat} (h : s.ndg ≤ q) (o : Answer) : ifIndex s q o = failsWith s 11 := if_pos h

theorem ifIndex_passes {q : Nat} (h : q < s.ndg) (o : Answer) : ifIndex s q o = o := if_neg (Nat.not_le_of_lt h)

theorem ifSlave_fails {v : Nat} (h : s.slaveAt v = none) (f : Slave → Answer) : ifSlave s v f = failsWith s 11 := by
  rw [ifSlave, h]

theorem ifSlave_passes {v : Nat} {e : Slave} (h : s.slaveAt v = some e) (f : Slave → Answer) :
    ifSlave s v f = f e := by rw [ifSlave, h]

theorem ifTaken_fails {q : Nat} (h : s.slotAt q = none) (f : Datagram → Answer) : ifTaken s q f = failsWith s 10 := by
  rw [ifTaken, h]

theorem ifTaken_passes {q : Nat} {x : Datagram} (h : s.slotAt q = some x) (f : Datagram → Answer) :
    ifTaken s q f = f x := by rw [ifTaken, h]

theorem ifDone_fails {q : Nat} (h : ∀ x, s.slotAt q = some x → x.st ≠ .done) (f : Datagram → Answer) :
    ifDone s q f = failsWith s 10 := by
  have hnone : s.doneAt q = none :=
    Option.eq_none_iff_forall_ne_some.2 fun x hx => h x (State.doneAt_eq_some.1 hx).1 (State.doneAt_eq_some.1 hx).2
  rw [ifDone, hnone]

theorem ifDone_passes {q : Nat} {x : Datagram} (h : s.slotAt q = some x) (hd : x.st = .done)
    (f : Datagram → Answer) : ifDone s q f = f x := by
  rw [ifDone, State.doneAt_eq_some.2 ⟨h, hd⟩]

theorem ifLent_fails (h : firstFree s.dg = none) (x : Datagram) (f : Nat → State → Answer) :
    ifLent s x f = .next { s.fatalStop with err := 9 } := by
  rw [ifLent, State.borrow_eq_none.2 h]

theorem ifLent_passes {q : Nat} (h : firstFree s.dg = some q) (x : Datagram) (f : Nat → State → Answer) :
    ifLent s x f = f q (s.setSlot q (some x)) := by
  rw [ifLent, State.borrow_eq_some.2 ⟨h, rfl⟩]

end

/-! ## The commands as sequences of tests (40_mailbox.md R124 to R138) -/

theorem exec_mbxPrepSend (v size : Nat) (s : State) : exec (.mbxPrepSend v size) s =
    (ifActive s <| ifSlave s v fun e =>
      if e.protocols = 0 then failsWith s 1
      else if e.rxSize.toNat < size + 6 then failsWith s 2
      else ifLent s (requestDatagram e v size (byte0 s.a0)) fun q t =>
        .next { t with err := 0, r0 := toWord q, r1 := 6, r2 := toWord (e.rxSize.toNat - 6) }) := rfl

theorem exec_mbxPrepCheck (v : Nat) (s : State) : exec (.mbxPrepCheck v) s =
    (ifActive s <| ifSlave s v fun e => ifLent s (s.pollDatagram e .host v) fun q t =>
      .next { t with err := 0, r0 := toWord q }) := rfl

theorem exec_mbxPrepFetch (v : Nat) (s : State) : exec (.mbxPrepFetch v) s =
    (ifActive s <| ifSlave s v fun e => ifLent s (fetchDatagram e .host v) fun q t =>
      .next { t with err := 0, r0 := toWord q }) := rfl

theorem exec_mbxCheck (q : Nat) (s : State) : exec (.mbxCheck q) s =
    (ifActive s <| ifIndex s q <| ifDone s q fun x =>
      if x.data.len < 6 then failsWith s 13
      else .next { s with err := 0, r0 := (BitVec.ofBool (mbxReady x.data)).setWidth 32 }) := rfl

theorem exec_mbxFetch (q v : Nat) (s : State) : exec (.mbxFetch q v) s =
    (ifActive s <| ifIndex s q <| ifSlave s v fun e => ifDone s q fun x => fetchOutcome s v e x) := rfl

theorem exec_dgRd (q i : Nat) (s : State) : exec (.dgRd q i) s =
    (ifActive s <| ifIndex s q <| ifTaken s q fun x =>
      if x.data.len ≤ i then failsWith s 13
      else .next { s with err := 0, r0 := (x.data.get i).setWidth 32 }) := rfl

theorem exec_dgWr (q i : Nat) (s : State) : exec (.dgWr q i) s =
    (ifActive s <| ifIndex s q <| ifTaken s q fun x =>
      if x.hostWritable = false then failsWith s 10
      else if i < 6 ∨ x.data.len ≤ i then failsWith s 13
      else .next { s with
        err := 0, dg := s.dg.set q (some { x with data := x.data.set i (byte0 s.a0) }) }) := rfl

theorem exec_dgStat (q : Nat) (s : State) : exec (.dgStat q) s = ifActive s (ifIndex s q
    (match s.slotAt q with
    | none => .next { s with err := 0, r0 := 0, r1 := 0, r2 := 0, r3 := 0 }
    | some x => .next { s with
        err := 0, r0 := dgStateCode x.st, r1 := statusCode x.status, r2 := toWord x.data.len, r3 := dgStatWord x })) :=
  rfl

/-! ## The mailbox engine's commands -/

/-- The datagram of a request whose payload fits the receive mailbox: the header, low bytes first, then zeros
(40_mailbox.md R121, R124). -/
theorem requestDatagram_eq {e : Slave} {size : Nat} (h : size + 6 ≤ e.rxSize.toNat) (v : Nat) (t : Byte) :
    ∃ b : Buf, requestDatagram e v size t = {
        st := .queued, kind := .write, station := e.station, offset := e.rxOff, addr := none, data := b,
        status := .pending, owner := .host, slv := some v } ∧
      b.len = e.rxSize.toNat ∧ (b.get 0).toNat = size % 256 ∧ (b.get 1).toNat = size / 256 % 256 ∧
      (b.get 2).toNat = e.station.toNat % 256 ∧ (b.get 3).toNat = e.station.toNat / 256 ∧ b.get 4 = 0 ∧
      b.get 5 = t ∧ ∀ i, 6 ≤ i → b.get i = 0 := by
  have hsize : (BitVec.ofNat 16 size).toNat = size := by rw [BitVec.toNat_ofNat]; omega
  have hget := putHeader_get (Buf.zero_wf e.rxSize.toNat) (show 6 ≤ e.rxSize.toNat by omega) size e.station t
  refine ⟨_, rfl, putHeader_len _ _ _ _, ?_⟩
  simp only [hget]
  refine ⟨?_, ?_, Half.lowByte_toNat _, Half.highByte_toNat _, rfl, rfl, fun i hi => ?_⟩
  · exact (Half.lowByte_toNat _).trans (by rw [hsize])
  · exact (Half.highByte_toNat _).trans (by rw [hsize]; omega)
  · rw [if_neg (by omega), if_neg (by omega), if_neg (by omega), if_neg (by omega), if_neg (by omega),
      if_neg (by omega), Buf.zero_get]

/-- Settles O49: the tests in order, and the bytes that `requestDatagram_eq` gives. -/
theorem mbxPrepSendFramesARequest : Obligations.MbxPrepSendFramesARequest := by
  unfold Obligations.MbxPrepSendFramesARequest
  intro v size s
  rw [exec_mbxPrepSend]
  refine ⟨fun hl => ifActive_fails hl _, fun hl he => ?_, fun e hl he => ?_⟩
  · rw [ifActive_passes hl, ifSlave_fails he]
  · rw [ifActive_passes hl, ifSlave_passes he]
    refine ⟨fun hp => if_pos hp, fun hp hs => ?_, fun hp hs hf => ?_, fun q hp hs hf => ?_⟩
    · rw [if_neg hp, if_pos hs]
    · rw [if_neg hp, if_neg (by omega), ifLent_fails hf]
    · rw [if_neg hp, if_neg (by omega), ifLent_passes hf]
      obtain ⟨b, hb, hlen, h0, h1, h2, h3, h4, h5, hrest⟩ := requestDatagram_eq hs v (byte0 s.a0)
      rw [hb]
      exact ⟨b, rfl, hlen, h0, h1, h2, h3, h4, h5 ▸ byte0_toNat s.a0, hrest⟩

/-- Settles O50: both commands have the same tests and lend the lowest Free slot. -/
theorem mbxPrepCheckAndFetchQueueARead : Obligations.MbxPrepCheckAndFetchQueueARead := by
  unfold Obligations.MbxPrepCheckAndFetchQueueARead
  intro v s
  rw [exec_mbxPrepCheck, exec_mbxPrepFetch]
  refine ⟨fun q => State.firstFree_eq_some, State.firstFree_eq_none,
    fun hl => ⟨ifActive_fails hl _, ifActive_fails hl _⟩, fun hl he => ?_, fun e hl he hf => ?_,
    fun e q hl he hf => ?_⟩
  · simp only [ifActive_passes hl, ifSlave_fails he, and_self]
  · simp only [ifActive_passes hl, ifSlave_passes he, ifLent_fails hf, and_self]
  · simp only [ifActive_passes hl, ifSlave_passes he, ifLent_passes hf]
    exact ⟨rfl, rfl⟩

/-- Settles O51: a completed slot lies in the pool, and `mbxReady_setWidth` gives R0. -/
theorem mbxCheckTestsTheReadinessFlag : Obligations.MbxCheckTestsTheReadinessFlag := by
  unfold Obligations.MbxCheckTestsTheReadinessFlag
  intro q s
  rw [exec_mbxCheck]
  refine ⟨fun hl => ifActive_fails hl _, fun hl hq => ?_, fun hl hq hx => ?_, fun x hl hx hd => ?_⟩
  · rw [ifActive_passes hl, ifIndex_fails hq]
  · rw [ifActive_passes hl, ifIndex_passes hq, ifDone_fails hx]
  · rw [ifActive_passes hl, ifIndex_passes (State.slotAt_lt hx), ifDone_passes hx hd, mbxReady_setWidth]
    exact ⟨fun hb => if_pos hb, fun hb => if_neg (Nat.not_lt_of_le hb)⟩

/-- Settles O52: past the tests each outcome of `fetch_decode` has its own report. -/
theorem mbxFetchValidatesAndDecodes : Obligations.MbxFetchValidatesAndDecodes := by
  unfold Obligations.MbxFetchValidatesAndDecodes
  intro q v s
  rw [exec_mbxFetch]
  refine ⟨fun hl => ifActive_fails hl _, fun hl hqv => ?_, fun e hl he hq hx => ?_, fun e x hl he hx hd => ?_⟩
  · rw [ifActive_passes hl]
    rcases Nat.lt_or_ge q s.ndg with hq | hq
    · rw [ifIndex_passes hq, ifSlave_fails (hqv.resolve_left (Nat.not_le_of_lt hq))]
    · rw [ifIndex_fails hq]
  · rw [ifActive_passes hl, ifIndex_passes hq, ifSlave_passes he, ifDone_fails hx]
  · rw [ifActive_passes hl, ifIndex_passes (State.slotAt_lt hx), ifSlave_passes he, ifDone_passes hx hd, fetchOutcome]
    refine ⟨fun hf => by rw [hf]; rfl, fun hf => by rw [hf]; rfl, fun c hf => ?_, fun ty n hf => ?_⟩
    · rw [hf]
      exact ⟨_, rfl, errWord_toNat _ _ _⟩
    · rw [hf, BitVec.ofNat_toNat, BitVec.ofNat_toNat]
      rfl

/-! ## The buffer access commands -/

/-- Settles O53: a slot that answers lies in the pool, so the byte index is the last test. -/
theorem dgRdReadsOneByte : Obligations.DgRdReadsOneByte := by
  unfold Obligations.DgRdReadsOneByte
  intro q i s
  rw [exec_dgRd]
  refine ⟨fun hl => ifActive_fails hl _, fun hl hq => ?_, fun hl hq hx => ?_, fun x hl hx hi => ?_,
    fun x hl hx hi => ?_⟩
  · rw [ifActive_passes hl, ifIndex_fails hq]
  · rw [ifActive_passes hl, ifIndex_passes hq, ifTaken_fails hx]
  · rw [ifActive_passes hl, ifIndex_passes (State.slotAt_lt hx), ifTaken_passes hx, if_pos hi]
  · rw [ifActive_passes hl, ifIndex_passes (State.slotAt_lt hx), ifTaken_passes hx, if_neg (Nat.not_le_of_lt hi),
      BitVec.ofNat_toNat]

/-- What a host may write (40_mailbox.md R136). -/
theorem Datagram.hostWritable_iff (x : Datagram) :
    x.hostWritable = true ↔ x.st = .queued ∧ x.kind = .write ∧ x.owner = .host := by
  simp only [Datagram.hostWritable, Bool.and_eq_true, decide_eq_true_eq, and_assoc]

/-- Settles O54: read after write in the slot's buffer, which is canonical. -/
theorem dgWrWritesOneByte : Obligations.DgWrWritesOneByte := by
  unfold Obligations.DgWrWritesOneByte
  intro q i s hs
  rw [exec_dgWr]
  refine ⟨fun hl => ifActive_fails hl _, fun hl hq => ?_, fun hl hq hx => ?_, fun x hl hx hst hk ho => ?_⟩
  · rw [ifActive_passes hl, ifIndex_fails hq]
  · rw [ifActive_passes hl, ifIndex_passes hq]
    cases h : s.slotAt q with
    | none => rw [ifTaken_fails h]
    | some x => rw [ifTaken_passes h, if_pos (Bool.eq_false_iff.2 (mt x.hostWritable_iff.1 (hx x h)))]
  · have hw : ¬ x.hostWritable = false := by simp [x.hostWritable_iff.2 ⟨hst, hk, ho⟩]
    rw [ifActive_passes hl, ifIndex_passes (State.slotAt_lt hx), ifTaken_passes hx, if_neg hw]
    refine ⟨fun hi => if_pos hi, fun h6 hi => ?_⟩
    rw [if_neg (by omega)]
    refine ⟨_, rfl, Buf.set_len _ _ _, fun j => ?_⟩
    simp only [Buf.get_set (State.slotAt_wf hs hx), hi, and_true]
    rfl

/-- Settles O55: the codes case by case, and `dgStatWord_toNat` for R3. -/
theorem dgStatShowsTheBookkeeping : Obligations.DgStatShowsTheBookkeeping := by
  unfold Obligations.DgStatShowsTheBookkeeping
  intro q s
  rw [exec_dgStat]
  refine ⟨fun hl => ifActive_fails hl _, fun hl hq => ?_, fun hl hq hx => ?_, fun x hl hx => ?_⟩
  · rw [ifActive_passes hl, ifIndex_fails hq]
  · rw [ifActive_passes hl, ifIndex_passes hq, hx]
  · rw [ifActive_passes hl, ifIndex_passes (State.slotAt_lt hx), hx]
    refine ⟨_, _, _, rfl, ?_, ?_, ?_⟩
    · cases x.st <;> rfl
    · cases x.status <;> rfl
    · rw [dgStatWord_toNat, Nat.add_assoc]
      congr 1
      · cases x.kind <;> rfl
      · cases x.owner with
        | host => rfl
        | seq => rfl
        | dom d => simp [ownerClass, ownerDomain]

end Sys2Proof.Machine
end

section
/-! The proofs of the family of 41_domain.md: the domain and field commands, QUEUE_ALL and PROCESS_ALL. The four commands
are sequences of tests like those of 40_mailbox.md and are written once so. -/

namespace Sys2Proof.Machine

/-! ## The tests of the commands (41_domain.md R151 to R154) -/

/-- The tests of `life` in the configuration commands: the rest `o` is for a block that is Configuring. -/
def ifConfiguring (s : State) (o : Answer) : Answer :=
  if s.life = .active then failsWith s 7 else if s.life ≠ .configuring then failsWith s 10 else o

/-- The test of a domain's index. -/
def ifDomain (s : State) (d : Nat) (f : Domain → Answer) : Answer :=
  match s.domainAt d with
  | none => failsWith s 11
  | some x => f x

/-- The test for the App window. -/
def ifWindow (s : State) (o : Answer) : Answer := if s.life ≠ .active ∨ s.phase ≠ .app then failsWith s 10 else o

/-- The test that a handle was given out. -/
def ifField (s : State) (h : Nat) (g : Field → Answer) : Answer :=
  match s.fieldAt h with
  | none => failsWith s 11
  | some f => g f

section
variable {s : State}

theorem ifConfiguring_active (h : s.life = .active) (o : Answer) : ifConfiguring s o = failsWith s 7 := if_pos h

theorem ifConfiguring_released (h : s.life = .released) (o : Answer) : ifConfiguring s o = failsWith s 10 := by
  simp [ifConfiguring, h]

theorem ifConfiguring_passes (h : s.life = .configuring) (o : Answer) : ifConfiguring s o = o := by
  simp [ifConfiguring, h]

theorem ifDomain_fails {d : Nat} (h : s.domainAt d = none) (f : Domain → Answer) : ifDomain s d f = failsWith s 11 := by
  rw [ifDomain, h]

theorem ifDomain_passes {d : Nat} {x : Domain} (h : s.domainAt d = some x) (f : Domain → Answer) :
    ifDomain s d f = f x := by rw [ifDomain, h]

theorem ifWindow_fails (h : s.life ≠ .active ∨ s.phase ≠ .app) (o : Answer) : ifWindow s o = failsWith s 10 := if_pos h

theorem ifWindow_passes (hl : s.life = .active) (hp : s.phase = .app) (o : Answer) : ifWindow s o = o :=
  if_neg (by simp [hl, hp])

theorem ifField_fails {h : Nat} (hh : s.fldcnt ≤ h) (g : Field → Answer) : ifField s h g = failsWith s 11 := by
  have hnone : s.fieldAt h = none := if_neg (Nat.not_lt_of_le hh)
  rw [ifField, hnone]

theorem ifField_passes {h : Nat} {f : Field} (hh : h < s.fldcnt) (hf : s.fld[h]? = some f) (g : Field → Answer) :
    ifField s h g = g f := by
  have hsome : s.fieldAt h = some f := (if_pos hh).trans hf
  rw [ifField, hsome]

end

/-! ## The commands as sequences of tests -/

theorem exec_domCreate (d size : Nat) (s : State) : exec (.domCreate d size) s =
    (ifConfiguring s <|
      if s.ndom ≤ d ∨ (s.domainAt d).isSome = true then failsWith s 11
      else if size = 0 ∨ s.par.dgmax < size then failsWith s 12
      else .next { s with err := 0, dom := s.dom.set d (freshDomain size s.a0) }) := rfl

theorem exec_domRegField (d off : Nat) (s : State) : exec (.domRegField d off) s =
    (ifConfiguring s <| ifDomain s d fun x => ifSlave s (fieldSlave s) fun _ =>
      if legalWidth (fieldWidth s) = false then failsWith s 12
      else if x.buf.len < off + fieldWidth s then failsWith s 12
      else if s.nfield ≤ s.fldcnt then failsWith s 16
      else .next { s with
        err := 0, fld := s.fld.set s.fldcnt (fieldOperand s d off), fldcnt := s.fldcnt + 1
        r0 := toWord s.fldcnt }) := rfl

theorem exec_fldRd (h : Nat) (s : State) : exec (.fldRd h) s =
    (ifWindow s <| ifField s h fun f =>
      if f.off + f.width ≤ (s.fieldBuf f).len then
        .next { s with err := 0, r0 := toWord ((s.fieldBuf f).sumBytes f.off f.width) }
      else failsWith s 13) := by
  simp only [exec, execFldRd, ifWindow, ifField, Buf.memRead]
  split
  · rfl
  · cases s.fieldAt h with
    | none => rfl
    | some f =>
      by_cases hin : f.off + f.width ≤ (s.fieldBuf f).len
      · simp only [if_pos hin]; rfl
      · simp only [if_neg hin]; rfl

theorem exec_fldWr (h : Nat) (s : State) : exec (.fldWr h) s =
    (ifWindow s <| ifField s h fun f =>
      if f.off + f.width ≤ (s.fieldBuf f).len then
        .next (s.setDomBuf f.dom ((s.fieldBuf f).putBytes f.off s.a0 f.width)).succeed
      else failsWith s 13) := by
  simp only [exec, execFldWr, ifWindow, ifField, Buf.memWrite]
  split
  · rfl
  · cases s.fieldAt h with
    | none => rfl
    | some f =>
      by_cases hin : f.off + f.width ≤ (s.fieldBuf f).len
      · simp only [if_pos hin]; rfl
      · simp only [if_neg hin]; rfl

/-! ## Creating domains and fields -/

/-- An entry of the table that is not valid names no domain. -/
theorem State.domainAt_eq_none_of_invalid {s : State} {d : Nat} {x : Domain} (hx : s.dom[d]? = some x)
    (hv : x.valid = false) : s.domainAt d = none := by
  simp [State.domainAt, hx, hv]

/-- Settles O56: the index fails past the table and at a valid entry, and an entry that is not valid passes it. -/
theorem domCreateMakesADomain : Obligations.DomCreateMakesADomain := by
  unfold Obligations.DomCreateMakesADomain
  intro d size s
  rw [exec_domCreate]
  refine ⟨fun hl => ifConfiguring_active hl _, fun hl => ifConfiguring_released hl _, fun hl hd => ?_,
    fun x hl hx hv => ?_⟩
  · have htaken : s.ndom ≤ d ∨ (s.domainAt d).isSome = true :=
      hd.imp id fun ⟨x, hx, hv⟩ => by rw [State.domainAt_eq_some.2 ⟨hx, hv⟩]; rfl
    rw [ifConfiguring_passes hl, if_pos htaken]
  · have hd : d < s.ndom := (List.getElem?_eq_some_iff.1 hx).1
    have hfree : ¬ (s.ndom ≤ d ∨ (s.domainAt d).isSome = true) := by
      simp [State.domainAt_eq_none_of_invalid hx hv, hd]
    rw [ifConfiguring_passes hl, if_neg hfree]
    refine ⟨fun hs => if_pos hs, fun h1 h2 => ?_⟩
    rw [if_neg (by omega)]
    rfl

/-- The widths of a field (10_state.md R44). -/
theorem legalWidth_iff (w : Nat) : legalWidth w = true ↔ w = 1 ∨ w = 2 ∨ w = 4 := by
  simp only [legalWidth, Bool.or_eq_true, decide_eq_true_eq, or_assoc]

/-- Settles O57: each clause passes the tests before its own. -/
theorem domRegFieldGivesOutAHandle : Obligations.DomRegFieldGivesOutAHandle := by
  unfold Obligations.DomRegFieldGivesOutAHandle
  intro d off s
  dsimp only
  rw [exec_domRegField]
  refine ⟨fun hl => ifConfiguring_active hl _, fun hl => ifConfiguring_released hl _, fun hl hde => ?_,
    fun x e hl hx he => ?_⟩
  · rw [ifConfiguring_passes hl]
    cases hx : s.domainAt d with
    | none => rw [ifDomain_fails hx]
    | some x =>
      have he : s.slaveAt (fieldSlave s) = none := hde.resolve_left (by simp [hx])
      rw [ifDomain_passes hx, ifSlave_fails he]
  · have he' : s.slaveAt (fieldSlave s) = some e := he
    rw [ifConfiguring_passes hl, ifDomain_passes hx, ifSlave_passes he', ← legalWidth_iff]
    refine ⟨fun hw => if_pos (Bool.eq_false_iff.2 hw), fun hw ho => ?_, fun hw ho hn => ?_, fun hw ho hn => ?_⟩
    all_goals rw [if_neg (show ¬ legalWidth (fieldWidth s) = false from ne_false_of_eq_true hw)]
    · exact if_pos ho
    · exact (if_neg (Nat.not_lt_of_le ho)).trans (if_pos hn)
    · exact (if_neg (Nat.not_lt_of_le ho)).trans (if_neg (Nat.not_le_of_lt hn))

/-! ## Reading and writing fields -/

/-- What the invariants say of a handle given out: the field lies in a valid domain's buffer (10_state.md R60 (e)). -/
theorem State.consistent.field {s : State} (hs : s.consistent) {h : Nat} (hh : h < s.fldcnt) :
    ∃ f x, s.fld[h]? = some f ∧ s.domainAt f.dom = some x ∧ f.off + f.width ≤ x.buf.len ∧
      legalWidth f.width = true := by
  obtain ⟨hcnt, hfld⟩ := hs.fieldsOk
  have hf : s.fld[h]? = some s.fld[h] := List.getElem?_eq_getElem (by omega)
  obtain ⟨hvalid, hsound⟩ := hfld h _ hf
  obtain ⟨hw, -, x, hx, hin⟩ := hsound (hvalid.2 hh)
  exact ⟨_, x, hf, hx, hin, hw⟩

/-- The bytes of a field as a number, one case per width (00_scope.md R12). -/
theorem Buf.sumBytes_of_legalWidth (b : Buf) (a : Nat) {w : Nat} (hw : legalWidth w = true) : b.sumBytes a w =
    if w = 1 then (b.get a).toNat
    else if w = 2 then (b.get a).toNat + 256 * (b.get (a + 1)).toNat
    else (b.get a).toNat + 256 * (b.get (a + 1)).toNat + 65536 * (b.get (a + 2)).toNat +
      16777216 * (b.get (a + 3)).toNat := by
  rcases (legalWidth_iff w).1 hw with rfl | rfl | rfl <;> simp [Buf.sumBytes] <;> omega

section
variable {s : State} {h : Nat} {f : Field} {x : Domain}

/-- FLD_RD of a field that lies inside its domain's buffer. -/
theorem exec_fldRd_inside (hl : s.life = .active) (hp : s.phase = .app) (hh : h < s.fldcnt)
    (hf : s.fld[h]? = some f) (hx : s.dom[f.dom]? = some x) (hin : f.off + f.width ≤ x.buf.len) :
    exec (.fldRd h) s = .next { s with err := 0, r0 := toWord (x.buf.sumBytes f.off f.width) } := by
  rw [exec_fldRd, ifWindow_passes hl hp, ifField_passes hh hf, State.fieldBuf_eq hx, if_pos hin]

/-- FLD_WR of a field that lies inside its domain's buffer. -/
theorem exec_fldWr_inside (hl : s.life = .active) (hp : s.phase = .app) (hh : h < s.fldcnt)
    (hf : s.fld[h]? = some f) (hx : s.dom[f.dom]? = some x) (hin : f.off + f.width ≤ x.buf.len) :
    exec (.fldWr h) s = .next (s.setDomBuf f.dom (x.buf.putBytes f.off s.a0 f.width)).succeed := by
  rw [exec_fldWr, ifWindow_passes hl hp, ifField_passes hh hf, State.fieldBuf_eq hx, if_pos hin]

end

/-- Settles O58: the invariants keep the field inside its buffer, so `MemRead` answers. -/
theorem fldRdReadsTheField : Obligations.FldRdReadsTheField := by
  unfold Obligations.FldRdReadsTheField
  intro h s
  refine ⟨fun hw => ?_, fun hl hp hh => ?_, fun hs hl hp hh => ?_⟩
  · rw [exec_fldRd, ifWindow_fails hw]
  · rw [exec_fldRd, ifWindow_passes hl hp, ifField_fails hh]
  · obtain ⟨f, x, hf, hx, hin, hw⟩ := hs.field hh
    refine ⟨f, x, hf, hx, hin, ?_⟩
    rw [← Buf.sumBytes_of_legalWidth x.buf f.off hw]
    exact exec_fldRd_inside hl hp hh hf (State.domainAt_eq_some.1 hx).1 hin

/-- Settles O59: `putBytes` in the buffer of the field's domain; no other domain's buffer is written. -/
theorem fldWrWritesTheField : Obligations.FldWrWritesTheField := by
  unfold Obligations.FldWrWritesTheField
  intro h s
  refine ⟨fun hw => ?_, fun hl hp hh => ?_, fun hs hb hl hp hh => ?_⟩
  · rw [exec_fldWr, ifWindow_fails hw]
  · rw [exec_fldWr, ifWindow_passes hl hp, ifField_fails hh]
  · obtain ⟨f, x, hf, hx, hin, -⟩ := hs.field hh
    obtain ⟨hdom, -⟩ := State.domainAt_eq_some.1 hx
    refine ⟨f, _, hf, exec_fldWr_inside hl hp hh hf hdom hin, rfl, fun d y hy => ?_⟩
    rw [State.succeed_dom, State.setDomBuf_getElem, hy, Option.map_some]
    by_cases hd : d = f.dom
    · obtain rfl : x = y := Option.some.inj (hdom.symm.trans (hd ▸ hy))
      refine ⟨_, by rw [if_pos hd], Buf.putBytes_len _ _ _ _, fun i => ?_⟩
      simp only [Buf.putBytes_get (State.dom_buf_wf hb hy) f.off s.a0 f.width hin, hd, true_and]
    · refine ⟨y.buf, by rw [if_neg hd], rfl, fun i => ?_⟩
      rw [if_neg fun h => hd h.1]

/-- The number read back from where a register value was put, cut to the bytes put (00_scope.md R12). -/
theorem Buf.putBytes_sumBytes {b : Buf} (h : b.wf = true) {a n : Nat} (v : Word) (hn : a + n ≤ b.len) :
    (b.putBytes a v n).sumBytes a n = v.toNat % 256 ^ n :=
  (Buf.memRead_eq_some.1 (Buf.putBytes_memRead h v hn)).2.symm

/-- Settles O60: the write leaves the field in its place, and the read finds there the bytes just put. -/
theorem fieldReadAfterWrite : Obligations.FieldReadAfterWrite := by
  unfold Obligations.FieldReadAfterWrite
  intro h s t f hs hb hl hp hh hf hexec
  obtain ⟨f', x, hf', hx, hin, -⟩ := hs.field hh
  obtain rfl : f = f' := Option.some.inj (hf.symm.trans hf')
  obtain ⟨hdom, -⟩ := State.domainAt_eq_some.1 hx
  have hsum := Buf.putBytes_sumBytes (State.dom_buf_wf hb hdom) s.a0 hin
  rw [exec_fldWr_inside hl hp hh hf hdom hin] at hexec
  rw [← hsum, ← Host.Outcome.next.inj hexec]
  refine exec_fldRd_inside (s := (s.setDomBuf _ _).succeed)
    (x := { x with buf := x.buf.putBytes f.off s.a0 f.width }) hl hp hh hf ?_ (by rwa [Buf.putBytes_len])
  rw [State.succeed_dom, State.setDomBuf_getElem, hdom, Option.map_some, if_pos rfl]

/-! ## QUEUE_ALL and PROCESS_ALL (41_domain.md R155 to R157) -/

/-- Settles O30, by everything QUEUE_ALL can do. -/
theorem queueAllSendsEveryBuffer : Obligations.QueueAllSendsEveryBuffer := by
  unfold Obligations.QueueAllSendsEveryBuffer
  intro s
  change (freeCount s.dg < validCount s.dom → _) ∧ (validCount s.dom ≤ freeCount s.dg → _)
  rcases s.queueAll_cases with ⟨hlt, h⟩ | ⟨hle, h⟩
  · exact ⟨fun _ => h, fun hle => absurd hlt (Nat.not_lt_of_le hle)⟩
  · refine ⟨fun hlt => absurd hlt (Nat.not_lt_of_le hle), fun _ => ⟨fun d x hx hv => ?_,
      fun d x hx hv => h.invalid d x (Nat.zero_le d) hx hv, h.kept, h.spare, h.dgLength, h.domLength, h.frame⟩⟩
    obtain ⟨q, hdom, hfree, hslot, hcount⟩ := h.linked d x (Nat.zero_le d) hx hv
    exact ⟨q, hfree, hcount, hdom, hslot⟩

/-- A domain that PROCESS_ALL has nothing to do for (41_domain.md R157). -/
theorem processDomain_of_not_done {s : State} {x : Domain} (h : x.dg = none ∨ ∃ q, x.dg = some q ∧ s.doneAt q = none) :
    processDomain s x = x := by
  rcases h with h | ⟨q, h, hq⟩
  · simp [processDomain, h]
  · simp [processDomain, h, hq]

/-- A domain whose slot is Done (41_domain.md R157). -/
theorem processDomain_of_done {s : State} {x : Domain} {q : Nat} {y : Datagram} (h : x.dg = some q)
    (hq : s.doneAt q = some y) : processDomain s x =
      if y.status = .ok then { x with buf := x.buf.copyInto y.data, wstate := .ok, dg := none }
      else { x with wstate := .fail, dg := none } := by
  simp [processDomain, h, hq]

/-- A valid domain after PROCESS_ALL. -/
theorem State.processAll_of_valid {s : State} {d : Nat} {x : Domain} (hx : s.dom[d]? = some x) (hv : x.valid = true) :
    s.processAll.dom[d]? = some (processDomain s x) := by
  rw [State.processAll_getElem, hx, Option.map_some, if_pos hv]

/-- Settles O31: an invalid domain is left out, and a valid one follows the status of its slot. -/
theorem processAllCopiesAnswers : Obligations.ProcessAllCopiesAnswers := by
  unfold Obligations.ProcessAllCopiesAnswers
  intro s
  refine ⟨rfl, fun d x hx => ?_⟩
  by_cases hv : x.valid = true
  · refine ⟨_, State.processAll_of_valid hx hv, fun h => processDomain_of_not_done (h.resolve_left (by simp [hv])),
      fun q y _ hq hy => ?_⟩
    rw [processDomain_of_done hq hy]
    refine ⟨fun hst => if_neg hst, fun hst => ⟨_, if_pos hst, Buf.copyInto_len _ _, fun i hi => ?_⟩⟩
    rw [Buf.copyInto_get, if_pos hi]
  · have hkept : s.processAll.dom[d]? = some x := by
      rw [State.processAll_getElem, hx, Option.map_some, if_neg hv]
    exact ⟨x, hkept, fun _ => rfl, fun _ _ h => absurd h hv⟩

end Sys2Proof.Machine
end

section
/-! The echo oracle of 20_memory.md R89 and the round trip of 41_domain.md R158: a batch leaves every exchange buffer in
flight, the echo brings it back, and the steps of a cycle under either strategy do both. -/

namespace Sys2Proof.Machine

/-! ## What the echo answers (20_memory.md R89) -/

/-- A slot after RECV_ALL under the echo oracle. -/
def echoSlot : Slot → Slot
  | some x =>
    if x.st = .inFlight then some { x with st := .done, status := .ok, data := Buf.ofBytes x.data.toBytes } else some x
  | none => none

/-- An answer that lists a byte for every byte of the datagram leaves no byte to the free values (log 4). -/
theorem answerBytes_listed (w : WireAnswer) (ws : List WireAnswer) (n : Nat) :
    answerBytes (w :: ws) n w.bytes.length = w.bytes := by
  refine List.ext_getElem (answerBytes_length _ _ _) fun i hi hi' => ?_
  simp [answerBytes, answerByte, hi']

theorem completeSlot_echo (ws : List WireAnswer) (n : Nat) (x : Datagram) :
    completeSlot ({ status := .ok, bytes := x.data.toBytes } :: ws) n x =
      { x with st := .done, status := .ok, data := Buf.ofBytes x.data.toBytes } := by
  have h := answerBytes_listed { status := .ok, bytes := x.data.toBytes } ws n
  rw [Buf.toBytes_length] at h
  rw [completeSlot, h]
  rfl

/-- The answers of the echo oracle go to the slots they were made from, one by one. -/
theorem recvLoop_echo (l : List Slot) : ∀ n, (recvLoop l (echoWire l) n).slots = l.map echoSlot := by
  induction l with
  | nil => exact fun _ => rfl
  | cons a l ih =>
    intro n
    cases a with
    | none => simp [recvLoop, echoWire, echoSlot, ih]
    | some x =>
      by_cases hx : x.st = .inFlight
      · simp [recvLoop, echoWire, echoSlot, hx, ih, completeSlot_echo]
      · simp [recvLoop, echoWire, echoSlot, hx, ih]

/-- A slot in flight comes back Ok with its own bytes. -/
theorem State.recvAll_echo {t : State} (hw : t.wire = echoWire t.dg) {q : Nat} {x : Datagram} (hx : t.slotAt q = some x)
    (hst : x.st = .inFlight) (hwf : x.data.wf = true) :
    t.recvAll.slotAt q = some { x with st := .done, status := .ok } := by
  have hdg : t.recvAll.dg = t.dg.map echoSlot := by rw [State.recvAll_dg, hw, recvLoop_echo]
  rw [State.slotAt_map hdg rfl, hx]
  simp only [echoSlot, if_pos hst, Buf.ofBytes_toBytes hwf]

/-! ## From a batch to the App window -/

/-- In `t` every valid domain of `s` has its buffer in flight, and the wire will echo. -/
structure Sent (s t : State) : Prop where
  inFlight : ∀ (d : Nat) (x : Domain), s.dom[d]? = some x → x.valid = true → ∃ q : Nat,
    t.dom[d]? = some { x with dg := some q } ∧ t.slotAt q = some { queuedDatagram d x with st := .inFlight }
  wire : t.wire = echoWire t.dg

/-- In `t` every valid domain of `s` has the buffer it has in `s`, with `wstate` Ok and no slot. -/
def Returned (s t : State) : Prop :=
  ∀ (d : Nat) (x : Domain), s.dom[d]? = some x → x.valid = true →
    ∃ x' : Domain, t.dom[d]? = some x' ∧ x'.buf = x.buf ∧ x'.wstate = .ok ∧ x'.dg = none

section
variable {s t u c : State}

theorem Sent.congr (h : Sent s t) (hdom : u.dom = t.dom) (hdg : u.dg = t.dg) (hw : u.wire = t.wire) : Sent s u where
  inFlight d x hx hv := by
    obtain ⟨q, hd, hq⟩ := h.inFlight d x hx hv
    exact ⟨q, hdom ▸ hd, (State.slotAt_congr hdg q).trans hq⟩
  wire := by rw [hw, hdg, h.wire]

/-- RECV_ALL completes each domain's slot with the bytes sent, and PROCESS_ALL copies them in (41_domain.md R157). -/
theorem Sent.returned (h : Sent s t) (hs : s.buffersWf = true) (hdom : u.dom = t.dom) (hdg : u.dg = t.recvAll.dg) :
    Returned s u.processAll := by
  intro d x hx hv
  obtain ⟨q, hd, hq⟩ := h.inFlight d x hx hv
  have hwf : x.buf.wf = true := State.dom_buf_wf hs hx
  have hreceived := State.recvAll_echo (x := { queuedDatagram d x with st := .inFlight }) h.wire hq rfl hwf
  have hdone : u.doneAt q = some { queuedDatagram d x with st := .done, status := .ok } :=
    State.doneAt_eq_some.2 ⟨(State.slotAt_congr hdg q).trans hreceived, rfl⟩
  refine ⟨_, State.processAll_of_valid (x := { x with dg := some q }) ((congrArg (·[d]?) hdom).trans hd) hv, ?_⟩
  rw [processDomain_of_done rfl hdone, if_pos rfl]
  exact ⟨Buf.copyInto_eq hwf rfl, rfl, rfl⟩

/-- MBX_OUT stops the block or leaves the domains, the slots taken and the wire alone. -/
theorem State.mbxOut_active (hl : s.mbxOut.life = .active) :
    s.life = .active ∧ s.mbxOut.dom = s.dom ∧ s.mbxOut.wire = s.wire ∧
      ∀ q y, s.slotAt q = some y → s.mbxOut.slotAt q = some y := by
  rcases s.mbxOut_cases with h | ⟨-, h⟩ | ⟨q, station, offset, len, next, hf, -, -, h⟩ <;> rw [h] at hl ⊢
  · exact ⟨hl, rfl, rfl, fun _ _ => id⟩
  · exact nomatch hl
  · refine ⟨hl, rfl, rfl, fun r y hy => ?_⟩
    have hr : r ≠ q := by
      rintro rfl
      exact nomatch (State.slotAt_firstFree hf).symm.trans hy
    exact State.slotAt_eq_some.2 ((List.getElem?_set_ne hr.symm).trans (State.slotAt_eq_some.1 hy))

/-- QUEUE_ALL that does not stop the block has queued every buffer (41_domain.md R156). -/
theorem State.queueAll_active (hl : s.queueAll.life = .active) : Queued 0 s s.queueAll := by
  rcases s.queueAll_cases with ⟨-, h⟩ | ⟨-, h⟩
  · rw [h] at hl
    exact nomatch hl
  · exact h

/-- A batch draws no answer from the wire. -/
theorem State.sendBatch_wire (hl : s.sendBatch.life = .active) : s.sendBatch.wire = s.wire := by
  obtain ⟨hlq, -, hwire, -⟩ := State.mbxOut_active (s := s.rel.queueAll) hl
  rw [State.sendBatch, State.sendAll_wire, hwire, (State.queueAll_active hlq).frame]
  rfl

/-- A batch that does not run out of slots sends the buffers (41_domain.md R156, 20_memory.md R85). -/
theorem State.sendBatch_sent (hl : s.sendBatch.life = .active) (hw : s.wire = echoWire s.sendBatch.dg) :
    Sent s s.sendBatch := by
  refine ⟨fun d x hx hv => ?_, (State.sendBatch_wire hl).trans hw⟩
  obtain ⟨hlq, hdom, -, hkept⟩ := State.mbxOut_active (s := s.rel.queueAll) hl
  obtain ⟨q, hd, -, hslot, -⟩ := (State.queueAll_active hlq).linked d x (Nat.zero_le d) hx hv
  refine ⟨q, by rw [State.sendBatch, State.sendAll_dom, hdom, hd], ?_⟩
  rw [State.sendBatch, State.sendAll_slotAt, hkept _ _ hslot, sendSlot_of_queued rfl]

/-! ## The outgoing half does not see the clock or the program -/

/-! ### QUEUE_ALL domain by domain (41_domain.md R156) -/

theorem queueLoop_cons_invalid {x : Domain} (hv : ¬ x.valid = true) (xs : List Domain) (d : Nat) (s : State) :
    queueLoop (x :: xs) d s = queueLoop xs (d + 1) s := if_neg hv

theorem queueLoop_cons_free {x : Domain} (hv : x.valid = true) {q : Nat} (hf : firstFree s.dg = some q)
    (xs : List Domain) (d : Nat) : queueLoop (x :: xs) d s =
      queueLoop xs (d + 1)
        { s.setSlot q (some (queuedDatagram d x)) with dom := s.dom.set d { x with dg := some q } } := by
  rw [queueLoop, if_pos hv, State.borrow_eq_some.2 ⟨hf, rfl⟩]
  rfl

theorem queueLoop_cons_full {x : Domain} (hv : x.valid = true) (hf : firstFree s.dg = none) (xs : List Domain)
    (d : Nat) : queueLoop (x :: xs) d s = s.fatalStop := by
  rw [queueLoop, if_pos hv, State.borrow_eq_none.2 hf]

/-! ### Surroundings -/

/-- The domains, the slots and the sequencer of `s`, with all that they depend on, among the other fields of `c`. -/
def State.withWork (c s : State) : State :=
  { c with life := s.life, par := s.par, slv := s.slv, dom := s.dom, dg := s.dg, mx := s.mx }

theorem queueLoop_withWork (xs : List Domain) : ∀ (d : Nat) (s : State), (queueLoop xs d s).life = .active →
    queueLoop xs d (c.withWork s) = c.withWork (queueLoop xs d s) := by
  induction xs with
  | nil => exact fun _ _ _ => rfl
  | cons x xs ih =>
    intro d s hl
    by_cases hv : x.valid = true
    · cases hf : firstFree s.dg with
      | none =>
        rw [queueLoop_cons_full hv hf] at hl
        exact nomatch hl
      | some q =>
        rw [queueLoop_cons_free hv hf] at hl ⊢
        rw [queueLoop_cons_free (s := c.withWork s) hv hf]
        exact ih (d + 1) _ hl
    · rw [queueLoop_cons_invalid hv] at hl ⊢
      rw [queueLoop_cons_invalid hv]
      exact ih (d + 1) s hl

theorem State.mxIssue_withWork {x : Datagram} {next : MxState} (hl : (s.mxIssue x next).life = .active) :
    (c.withWork s).mxIssue x next = c.withWork (s.mxIssue x next) := by
  unfold State.mxIssue State.borrow at *
  rw [show (c.withWork s).dg = s.dg from rfl]
  cases hf : firstFree s.dg with
  | none =>
    rw [hf] at hl
    exact nomatch hl
  | some q => rfl

theorem State.mbxOut_withWork (hl : s.mbxOut.life = .active) : (c.withWork s).mbxOut = c.withWork s.mbxOut := by
  unfold State.mbxOut at *
  rw [show (c.withWork s).mx = s.mx from rfl]
  cases hst : s.mx.st with
  | pollReady =>
    rw [hst] at hl
    exact State.mxIssue_withWork hl
  | fetchReady =>
    rw [hst] at hl
    exact State.mxIssue_withWork hl
  | _ => rfl

/-- A micro-operation of the outgoing half works in any surroundings alike. -/
theorem State.runMicro_withWork {op : MicroOp} (hop : op ∈ outgoing) (hl : (s.runMicro op).life = .active) :
    (c.withWork s).runMicro op = c.withWork (s.runMicro op) := by
  simp only [outgoing, List.mem_cons, List.not_mem_nil, or_false] at hop
  rcases hop with rfl | rfl | rfl | rfl
  · rfl
  · exact queueLoop_withWork s.dom 0 s hl
  · exact State.mbxOut_withWork hl
  · rfl

end

/-! ## The steps of a cycle (42_scheduler.md R173, R174) -/

/-- The next `n` turns are CORE's: they are listed so, or the list has ended (log 2). -/
def coreFirst (n : Nat) (l : List Input) : Prop := ∀ e ∈ l.take n, e = .core

theorem coreFirst.head {l : List Input} (h : coreFirst 1 l) : l.head? = none ∨ l.head? = some .core := by
  cases l with
  | nil => exact .inl rfl
  | cons e l => exact .inr (congrArg some (h e (by simp)))

theorem coreFirst.mono {m n : Nat} {l : List Input} (h : coreFirst n l) (hmn : m ≤ n) : coreFirst m l :=
  fun e he => h e (List.take_subset_take_left l hmn he)

/-- Each of the next `n` turns is CORE's. -/
theorem coreFirst.drop {n : Nat} {l : List Input} (h : coreFirst n l) {i : Nat} (hi : i < n) :
    coreFirst 1 (l.drop i) := by
  intro e he
  rw [List.take_drop] at he
  exact h.mono hi e (List.mem_of_mem_drop he)

theorem coreFirst_of_nil {n : Nat} {l : List Input} (h : l = []) (i : Nat) : coreFirst n (l.drop i) := by
  simp [coreFirst, h]

/-- `t` with `n` turns taken off the list of turns and `rest` left of the program. -/
def State.took (t : State) (n : Nat) (rest : List MicroOp) : State :=
  { t with todo := rest, inputs := t.inputs.drop n }

theorem State.took_took (t : State) (m n : Nat) (p rest : List MicroOp) :
    (t.took m p).took n rest = t.took (m + n) rest := by
  simp only [State.took, List.drop_drop]

theorem State.took_zero {t : State} {p : List MicroOp} (h : t.todo = p) : t.took 0 p = t := by
  subst h
  rfl

section
variable {s t c : State} {op : MicroOp} {rest : List MicroOp} {n k : Nat}

/-- CORE's turn takes the next micro-operation off the program (42_scheduler.md R175). -/
theorem run_micro (ht : t.todo = op :: rest) (hi : coreFirst 1 t.inputs) :
    Sys2Proof.core.run (k + 1) t = Sys2Proof.core.run k ((t.took 1 rest).runMicro op) := by
  refine core_run_succ ?_ k
  rw [step_core hi.head, coreTurn, ht, State.took, List.drop_one]

/-- A tick in Idle starts a cycle (43_driver_lifecycle.md R211). -/
theorem run_tick {is : List Input} (hi : t.inputs = .tick :: is) (hl : t.life = .active) (hp : t.phase = .idle) :
    Sys2Proof.core.run (k + 1) t = Sys2Proof.core.run k (State.startCycle { t with inputs := is }) := by
  refine core_run_succ ?_ k
  rw [step_takeTurn hi rfl]
  simp [takeTurn, State.tick, hl, hp]

/-- The turn of a micro-operation that neither reads nor writes the program and the turns. -/
theorem run_took (hop : (t.took (n + 1) rest).runMicro op = (t.runMicro op).took (n + 1) rest)
    (hi : coreFirst 1 (t.inputs.drop n)) :
    Sys2Proof.core.run (k + 1) (t.took n (op :: rest)) =
      Sys2Proof.core.run k ((t.runMicro op).took (n + 1) rest) := by
  rw [run_micro (t := t.took n (op :: rest)) rfl hi, State.took_took, hop]

/-- The turn of a micro-operation of the outgoing half. -/
theorem run_outgoingOp (hop : op ∈ outgoing) (hl : (s.runMicro op).life = .active)
    (hi : coreFirst 1 (c.inputs.drop n)) :
    Sys2Proof.core.run (k + 1) ((c.withWork s).took n (op :: rest)) =
      Sys2Proof.core.run k ((c.withWork (s.runMicro op)).took (n + 1) rest) := by
  rw [← State.runMicro_withWork hop hl]
  refine run_took ?_ hi
  rw [State.runMicro_withWork hop hl]
  exact State.runMicro_withWork (c := c.took (n + 1) rest) hop hl

/-- The outgoing half of a cycle is four steps, and does to the tables what `sendBatch` does. -/
theorem run_outgoing (hl : s.sendBatch.life = .active) (hi : coreFirst 4 c.inputs) :
    Sys2Proof.core.run (k + 4) ((c.withWork s).took 0 (outgoing ++ rest)) =
      Sys2Proof.core.run k ((c.withWork s.sendBatch).took 4 rest) := by
  obtain ⟨hlq, -⟩ := State.mbxOut_active (s := s.rel.queueAll) hl
  have hlr : s.rel.life = .active := (congrArg State.life (State.queueAll_active hlq).frame).symm.trans hlq
  calc Sys2Proof.core.run (k + 4) ((c.withWork s).took 0 (outgoing ++ rest))
    _ = Sys2Proof.core.run (k + 3) ((c.withWork s.rel).took 1 (.queueAll :: .mbxOut :: .sendAll :: rest)) :=
      run_outgoingOp (op := .rel) (by decide) hlr (hi.drop (by decide))
    _ = Sys2Proof.core.run (k + 2) ((c.withWork s.rel.queueAll).took 2 (.mbxOut :: .sendAll :: rest)) :=
      run_outgoingOp (op := .queueAll) (by decide) hlq (hi.drop (by decide))
    _ = Sys2Proof.core.run (k + 1) ((c.withWork s.rel.queueAll.mbxOut).took 3 (.sendAll :: rest)) :=
      run_outgoingOp (op := .mbxOut) (by decide) hl (hi.drop (by decide))
    _ = Sys2Proof.core.run k ((c.withWork s.sendBatch).took 4 rest) :=
      run_outgoingOp (op := .sendAll) (by decide) hl (hi.drop (by decide))

/-- MBX_IN leaves the domains, the count of cycles, the program and the turns alone (42_scheduler.md R190). -/
theorem State.mbxIn_kept (s : State) :
    s.mbxIn.dom = s.dom ∧ s.mbxIn.cycle = s.cycle ∧ s.mbxIn.todo = s.todo ∧ s.mbxIn.inputs = s.inputs := by
  rcases s.mbxIn_cases with ⟨h, -⟩ | ⟨x, m, lg, -, -, -, h⟩ <;> rw [h] <;> exact ⟨rfl, rfl, rfl, rfl⟩

/-- The steps from MBX_IN to the App window leave the domains alone. -/
theorem run_mbxIn_toApp (hi : t.inputs = []) :
    ∃ u, Sys2Proof.core.run 2 (t.took n [.mbxIn, .toApp]) = .next u ∧ u.phase = .app ∧ u.cycle = t.cycle ∧
      u.dom = t.dom := by
  obtain ⟨hdom, hcycle, htodo, hinputs⟩ := (t.took (n + 1) [.toApp]).mbxIn_kept
  have hrun : Sys2Proof.core.run 2 (t.took n [.mbxIn, .toApp]) =
      Sys2Proof.core.run 1 (t.took (n + 1) [.toApp]).mbxIn := by
    rw [run_micro (t := t.took n [.mbxIn, .toApp]) rfl (coreFirst_of_nil hi n), State.took_took]
    rfl
  rw [hrun]
  generalize (t.took (n + 1) [.toApp]).mbxIn = x at hdom hcycle htodo hinputs
  have hi' : coreFirst 1 x.inputs := hinputs ▸ coreFirst_of_nil hi (n + 1)
  exact ⟨(x.took 1 []).toApp, run_micro htodo hi', rfl, hcycle, hdom⟩

/-- The incoming half of a cycle is five steps to the App window, where the buffers sent have returned. -/
theorem run_incoming (h : Sent s t) (hs : s.buffersWf = true) (hi : t.inputs = []) :
    ∃ u, Sys2Proof.core.run 5 (t.took n incoming) = .next u ∧ u.phase = .app ∧ u.cycle = t.cycle ∧ Returned s u := by
  obtain ⟨u, hu, hp, hc, hd⟩ :=
    run_mbxIn_toApp (t := (t.recvAll.runMicro .toProcessing).processAll) (n := n + 3) hi
  have hreturned := h.returned hs (u := t.recvAll.runMicro .toProcessing) rfl rfl
  refine ⟨u, ?_, hp, hc, fun d x hx hv => hd ▸ hreturned d x hx hv⟩
  calc Sys2Proof.core.run 5 (t.took n incoming)
    _ = Sys2Proof.core.run 4 (t.recvAll.took (n + 1) [.toProcessing, .processAll, .mbxIn, .toApp]) :=
      run_took (op := .recvAll) rfl (coreFirst_of_nil hi n)
    _ = Sys2Proof.core.run 3 ((t.recvAll.runMicro .toProcessing).took (n + 2) [.processAll, .mbxIn, .toApp]) :=
      run_took (op := .toProcessing) rfl (coreFirst_of_nil hi (n + 1))
    _ = Sys2Proof.core.run 2 ((t.recvAll.runMicro .toProcessing).processAll.took (n + 3) [.mbxIn, .toApp]) :=
      run_took (op := .processAll) rfl (coreFirst_of_nil hi (n + 2))
    _ = .next u := hu

/-! ## Whole cycles (41_domain.md R158) -/

/-- The state after a tick in Idle that was the last turn listed. -/
def State.ticked (s : State) : State := State.startCycle { s with inputs := [] }

theorem Sent.ticked (h : Sent s t) : Sent s t.ticked :=
  h.congr (State.startCycle_dom _) (State.startCycle_dg _) (State.startCycle_wire _)

/-- Under the synchronous strategy the cycle a tick starts sends the buffers and has them back in its App window. -/
theorem run_syncCycle (h : Sent s s.sendBatch) (hs : s.buffersWf = true) (hl : s.life = .active)
    (hlb : s.sendBatch.life = .active) (hσ : s.strategy = .sync) (hp : s.phase = .idle) (hi : s.inputs = [.tick]) :
    ∃ t, Sys2Proof.core.run 11 s = .next t ∧ t.phase = .app ∧ t.cycle = s.cycle + 1 ∧ Returned s t := by
  have hsent : Sent s ((s.ticked.withWork s.sendBatch).runMicro .toAwaiting) :=
    h.congr rfl rfl (State.sendBatch_wire hlb).symm
  have htodo : s.ticked.todo = outgoing ++ .toAwaiting :: incoming := congrArg cycleProgram hσ
  obtain ⟨u, hu, happ, hcycle, hreturned⟩ := run_incoming (n := 5) hsent hs rfl
  refine ⟨u, ?_, happ, hcycle.trans (State.startCycle_cycle _), hreturned⟩
  calc Sys2Proof.core.run 11 s
    _ = Sys2Proof.core.run 10 s.ticked := run_tick hi hl hp
    _ = Sys2Proof.core.run 10 ((s.ticked.withWork s).took 0 (outgoing ++ .toAwaiting :: incoming)) :=
      congrArg _ (State.took_zero htodo).symm
    _ = Sys2Proof.core.run 6 ((s.ticked.withWork s.sendBatch).took 4 (.toAwaiting :: incoming)) :=
      run_outgoing hlb (coreFirst_of_nil rfl 0)
    _ = Sys2Proof.core.run 5 (((s.ticked.withWork s.sendBatch).runMicro .toAwaiting).took 5 incoming) :=
      run_took (op := .toAwaiting) rfl (coreFirst_of_nil rfl 4)
    _ = .next u := hu

/-- The state after APP_DONE under the asynchronous strategy, its turn taken (42_scheduler.md R178). -/
def State.closing (s : State) : State :=
  { s with inputs := s.inputs.tail, phase := .sending, todo := closingProgram, err := 0 }

/-- APP_DONE in the App window under the asynchronous strategy (42_scheduler.md R178). -/
theorem step_appDone {is : List Input} (hi : s.inputs = .write 0x00 0x06000000 :: is) (hh : s.held = none)
    (hl : s.life = .active) (hp : s.phase = .app) (hσ : s.strategy = .async) : step s = .next s.closing := by
  have ha : s.accepting = true := by simp [State.accepting, hp]
  rw [step_presentCommand hi hh, presentCommand_of_accepting (s := { s with inputs := is }) hh ha,
    runWord_of_decode (i := .appDone) (by decide)]
  simp [exec, execAppDone, State.closeWindow, State.closing, endCommand, State.succeed, hi, hl, hp, hσ]

/-- The state at the end of the cycle that APP_DONE closes under the asynchronous strategy. -/
def State.closed (s : State) : State := ((s.closing.withWork s.sendBatch).took 5 []).between

/-- The end of the cycle leaves the batch and the wire alone (42_scheduler.md R179). -/
theorem State.closed_kept (s : State) :
    s.closed.dom = s.sendBatch.dom ∧ s.closed.dg = s.sendBatch.dg ∧ s.closed.wire = s.wire ∧
      s.closed.cycle = s.cycle := by
  simp [State.closed, State.between, State.took, State.withWork, State.closing]

/-- APP_DONE, the outgoing half and `end_cycle` under the asynchronous strategy (42_scheduler.md R174, R178, R179). -/
theorem run_closing {is : List Input} (hl : s.life = .active) (hlb : s.sendBatch.life = .active)
    (hσ : s.strategy = .async) (hp : s.phase = .app) (htick : s.tickpend = false) (hh : s.held = none)
    (hi : s.inputs = .write 0x00 0x06000000 :: is) (hcore : coreFirst 5 is) :
    Sys2Proof.core.run (k + 6) s = Sys2Proof.core.run k s.closed := by
  have hcore' : coreFirst 5 s.closing.inputs := by rwa [State.closing, hi]
  have hend : ((s.closing.withWork s.sendBatch).took 5 []).runMicro .endCycle = s.closed := by
    rw [State.runMicro, State.endCycle_eq]
    exact if_neg (ne_true_of_eq_false htick)
  calc Sys2Proof.core.run (k + 6) s
    _ = Sys2Proof.core.run (k + 5) s.closing := core_run_succ (step_appDone hi hh hl hp hσ) _
    _ = Sys2Proof.core.run (k + 1) ((s.closing.withWork s.sendBatch).took 4 [.endCycle]) :=
      run_outgoing hlb (hcore'.mono (by decide))
    _ = Sys2Proof.core.run k s.closed := by
      rw [run_micro (t := (s.closing.withWork s.sendBatch).took 4 [.endCycle]) rfl (hcore'.drop (by decide)),
        State.took_took, hend]

/-- Under the asynchronous strategy the end of the cycle sends the buffers, and the cycle of the next tick has them back
in its App window (20_memory.md R91). -/
theorem run_asyncCycle (h : Sent s s.sendBatch) (hs : s.buffersWf = true) (hl : s.life = .active)
    (hlb : s.sendBatch.life = .active) (hσ : s.strategy = .async) (hp : s.phase = .app) (htick : s.tickpend = false)
    (hh : s.held = none) (hi : s.inputs = [.write 0x00 0x06000000, .core, .core, .core, .core, .core, .tick]) :
    ∃ t, Sys2Proof.core.run 12 s = .next t ∧ t.phase = .app ∧ t.cycle = s.cycle + 1 ∧ Returned s t := by
  have hinputs : s.closed.inputs = [.tick] := congrArg (fun l => l.tail.drop 5) hi
  obtain ⟨hdom, hdg, hwire, hcount⟩ := s.closed_kept
  have hsent : Sent s s.closed.ticked :=
    (h.congr hdom hdg (hwire.trans (State.sendBatch_wire hlb).symm)).ticked
  have htodo : s.closed.ticked.todo = incoming := congrArg cycleProgram hσ
  obtain ⟨u, hu, happ, hcycle, hreturned⟩ := run_incoming (n := 0) hsent hs rfl
  refine ⟨u, ?_, happ, hcycle.trans (congrArg (· + 1) hcount), hreturned⟩
  calc Sys2Proof.core.run 12 s
    _ = Sys2Proof.core.run 6 s.closed := run_closing hl hlb hσ hp htick hh hi (by unfold coreFirst; decide)
    _ = Sys2Proof.core.run 5 s.closed.ticked := run_tick hinputs hlb rfl
    _ = Sys2Proof.core.run 5 (s.closed.ticked.took 0 incoming) := congrArg _ (State.took_zero htodo).symm
    _ = .next u := hu

end

/-- Settles O38: a batch has sent the buffers, and the steps of a cycle are that batch and the incoming half. -/
theorem echoRoundTrip : Obligations.EchoRoundTrip := by
  unfold Obligations.EchoRoundTrip
  intro s hs hl hlb hw
  have hsent := State.sendBatch_sent hlb hw
  exact ⟨hsent.returned hs rfl rfl, fun hσ hp _ _ hi => run_syncCycle hsent hs hl hlb hσ hp hi,
    fun hσ hp htick _ hh hi => run_asyncCycle hsent hs hl hlb hσ hp htick hh hi⟩

end Sys2Proof.Machine
end

section
/-! The proofs of the family of 42_scheduler.md: CORE's turns and the end of a cycle, the way from a tick to the App
window, and the mailbox sequencer with its commands. -/

namespace Sys2Proof.Machine

/-! ## CORE's turn (42_scheduler.md R175) -/

section
variable {s : State} {op : MicroOp} {rest : List MicroOp}

theorem coreTurn_micro (h : s.todo = op :: rest) : coreTurn s = .next (State.runMicro { s with todo := rest } op) := by
  rw [coreTurn, h]

/-- With no turn listed it is CORE's turn (log 2). -/
theorem step_of_inputs_nil (h : s.inputs = []) : step s = coreTurn s := by
  rw [step, nextTurn, h]

theorem coreTurn_waits (ht : s.todo = []) (hh : s.held = none) : coreTurn s = .next s := by
  rw [coreTurn, ht, hh]

end

/-- Settles O8: the step is CORE's turn, and the three changes of phase are micro-operations of the program. -/
theorem coreTurnRunsTheNextMicroOperation : Obligations.CoreTurnRunsTheNextMicroOperation := by
  unfold Obligations.CoreTurnRunsTheNextMicroOperation
  intro s hi u
  have hmicro : ∀ op rest, s.todo = op :: rest → step s = .next (State.runMicro { u with todo := rest } op) :=
    fun op rest ht => (step_core hi).trans (coreTurn_micro ht)
  refine ⟨hmicro, fun rest => hmicro .toAwaiting rest, fun rest => hmicro .toProcessing rest, fun rest ht => ?_,
    fun ht hh => (step_core hi).trans (coreTurn_waits ht hh)⟩
  exact ⟨s.readTime.sinceStart, s.readTime.now, s.readTime.draws, s.readTime.elapsed, Nat.le_add_right _ _,
    State.sinceStart_toNat _, hmicro .toApp rest ht⟩

/-! ## The end of a cycle (42_scheduler.md R179) -/

theorem firstPhase_eq (σ : Strategy) : firstPhase σ = if σ = .sync then .sending else .awaitingReceive := by
  cases σ <;> rfl

/-- The program of a cycle, written out (42_scheduler.md R173, R174). -/
theorem cycleProgram_eq (σ : Strategy) : cycleProgram σ =
    if σ = .sync then
      [.rel, .queueAll, .mbxOut, .sendAll, .toAwaiting, .recvAll, .toProcessing, .processAll, .mbxIn, .toApp]
    else [.recvAll, .toProcessing, .processAll, .mbxIn, .toApp] := by
  cases σ <;> rfl

/-- FWD as its two writes (43_driver_lifecycle.md R213). -/
theorem State.fwd_eq (s : State) : s.fwd = { s with
    tickcnt := if s.kdiv.toNat ≤ s.tickcnt.toNat + 1 then 0 else toWord (s.tickcnt.toNat + 1)
    hostTicks := if s.kdiv.toNat ≤ s.tickcnt.toNat + 1 then s.hostTicks + 1 else s.hostTicks } := by
  simp only [State.fwd, State.ratioReached, decide_eq_true_eq]

/-- Timing, the budget test, FWD and Idle, field by field (42_scheduler.md R179). -/
theorem State.between_eq (s : State) : s.between = { s with
    tFin := s.readTime.sinceStart, now := s.readTime.now, draws := s.readTime.draws, elapsed := s.readTime.elapsed
    ovr := s.ovr || decide (s.par.budget.toNat < s.readTime.sinceStart.toNat)
    tickcnt := if s.kdiv.toNat ≤ s.tickcnt.toNat + 1 then 0 else toWord (s.tickcnt.toNat + 1)
    hostTicks := if s.kdiv.toNat ≤ s.tickcnt.toNat + 1 then s.hostTicks + 1 else s.hostTicks
    phase := .idle, todo := [], tickpend := false } := by
  rw [State.between, State.fwd_eq]
  rfl

/-- The start of a cycle after `s`, field by field, with the time base and T_PRE that `t` has (42_scheduler.md R172). -/
def State.begunAt (s t : State) : State := { s with
  cycle := s.cycle + 1, t0 := t.t0, tPre := t.tPre, now := t.now, draws := t.draws, elapsed := t.elapsed
  phase := if s.strategy = .sync then .sending else .awaitingReceive
  todo :=
    if s.strategy = .sync then
      [.rel, .queueAll, .mbxOut, .sendAll, .toAwaiting, .recvAll, .toProcessing, .processAll, .mbxIn, .toApp]
    else [.recvAll, .toProcessing, .processAll, .mbxIn, .toApp] }

theorem State.startCycle_eq (s : State) : s.startCycle = s.begunAt s.startCycle := by
  rw [State.begunAt, ← firstPhase_eq, ← cycleProgram_eq]
  rfl

section
variable {s : State}

theorem State.endCycle_of_pending (h : s.tickpend = true) : s.endCycle = s.between.startCycle := by
  rw [State.endCycle_eq, if_pos h]

theorem State.endCycle_of_not_pending (h : s.tickpend = false) : s.endCycle = s.between := by
  rw [State.endCycle_eq, h]
  rfl

/-- The next cycle, if one starts, does not write T_FIN. -/
theorem State.endCycle_tFin (s : State) : s.endCycle.tFin = s.readTime.sinceStart := by
  rw [State.endCycle_eq]
  split <;> rfl

end

/-- Settles O27: T_FIN is a later reading of the time base than T_POST, and the rest is `end_cycle` field by field. -/
theorem endOfCycleOrdersTelemetry : Obligations.EndOfCycleOrdersTelemetry := by
  unfold Obligations.EndOfCycleOrdersTelemetry
  intro s
  refine ⟨fun htimely hp => ?_, s.readTime.sinceStart, s.readTime.now, s.readTime.draws, s.readTime.elapsed,
    Nat.le_add_right _ _, State.sinceStart_toNat _, fun ht => ?_, fun ht => ?_⟩
  · obtain ⟨hpre, hpost⟩ := htimely.2 hp
    rw [State.endCycle_tFin, State.endCycle_ovr, State.endCycle_tPost]
    refine ⟨hpre, BitVec.le_trans hpost s.readTime_sinceStart, ?_, fun ht => ⟨?_, rfl⟩⟩
    · simp [State.finishTiming]
    · rw [State.endCycle_of_not_pending ht]
      rfl
  · rw [State.endCycle_of_not_pending ht, State.between_eq, ht]
    rfl
  · let t := s.between.startCycle
    have hnext : s.endCycle = s.between.begunAt t := (State.endCycle_of_pending ht).trans s.between.startCycle_eq
    exact ⟨t.tPre, t.t0, t.now, t.draws, t.elapsed, Nat.le_add_right _ _, s.between.startCycle_t0_le,
      State.sinceStart_toNat t, hnext.trans (congrArg (State.begunAt · t) s.between_eq)⟩

/-! ## From a tick to the App window (42_scheduler.md R173, R174) -/

/-- The phase at the end of the program `p` that starts in phase `ph`. -/
def phaseAtEnd (p : List MicroOp) (ph : Phase) : Phase := p.foldl (fun ph op => phaseAfter op ph) ph

/-- From `s` to `t` the host registers, the count of cycles, the turns to come and the held command stay. -/
def HostKept (s t : State) : Prop :=
  s.sameHostRegisters t ∧ t.cycle = s.cycle ∧ t.inputs = s.inputs ∧ t.held = s.held

theorem HostKept.refl (s : State) : HostKept s s := ⟨⟨rfl, rfl, rfl, rfl, rfl, rfl, rfl, rfl, rfl⟩, rfl, rfl, rfl⟩

theorem HostKept.trans {s t u : State} (h : HostKept s t) (h' : HostKept t u) : HostKept s u := by
  unfold HostKept State.sameHostRegisters at *
  simp only [h', h, and_self]

/-- Where a program that started in `s` has led, with `p` of it run: on to its next phase with `rest` left, or to a
fatal stop with nothing left. -/
def Reached (s : State) (p rest : List MicroOp) (t : State) : Prop :=
  (t.life = s.life ∧ t.phase = phaseAtEnd p s.phase ∧ t.todo = rest) ∨
    (t.life = .configuring ∧ t.phase = .idle ∧ t.fatal = true ∧ t.todo = [])

section
variable {s t : State} {op : MicroOp} {rest : List MicroOp}

/-- One micro-operation of a program (44_common_laws.md R230). -/
theorem runMicro_reached (hop : op ≠ .endCycle) (s : State) (rest : List MicroOp) :
    HostKept s (State.runMicro { s with todo := rest } op) ∧
      Reached s [op] rest (State.runMicro { s with todo := rest } op) := by
  rcases State.runMicro_cases { s with todo := rest } op with h | ⟨he, -⟩ | ⟨-, h⟩
  · rw [h]
    exact ⟨.refl s, .inr ⟨rfl, rfl, rfl, rfl⟩⟩
  · exact absurd he hop
  · rw [h]
    exact ⟨.refl s, .inl ⟨rfl, rfl, rfl⟩⟩

theorem Reached.cons {u : State} {p l : List MicroOp} (hlife : u.life = s.life)
    (hphase : u.phase = phaseAfter op s.phase) (h : Reached u p l t) : Reached s (op :: p) l t :=
  h.imp_left fun ⟨hl, hp, ht⟩ => ⟨hl.trans hlife, hp.trans (congrArg (phaseAtEnd p) hphase), ht⟩

/-- With nothing to run CORE waits (60_exceptions.md R261; log 12). -/
theorem run_waits (ht : s.todo = []) (hh : s.held = none) (hi : s.inputs = []) (k : Nat) :
    Sys2Proof.core.run k s = .next s := by
  have hstep : step s = .next s := (step_of_inputs_nil hi).trans (coreTurn_waits ht hh)
  induction k with
  | zero => rfl
  | succ k ih => rw [core_run_succ hstep, ih]

/-- Left to CORE alone, a program without `end_cycle` runs to its end in as many steps as it is long, or to a fatal stop
before, and then CORE waits. -/
theorem run_program {p : List MicroOp} (hp : .endCycle ∉ p) (k : Nat) : ∀ s : State, s.todo = p → s.held = none →
    s.inputs = [] → ∃ t, Sys2Proof.core.run (p.length + k) s = .next t ∧ HostKept s t ∧ Reached s p [] t := by
  induction p with
  | nil => exact fun s ht hh hi => ⟨s, run_waits ht hh hi _, .refl s, .inl ⟨rfl, rfl, ht⟩⟩
  | cons op rest ih =>
    intro s ht hh hi
    obtain ⟨hop, hrest⟩ := not_or.1 (mt List.mem_cons.2 hp)
    obtain ⟨hkept, hreached⟩ := runMicro_reached (Ne.symm hop) s rest
    have hrun : Sys2Proof.core.run ((op :: rest).length + k) s =
        Sys2Proof.core.run (rest.length + k) (State.runMicro { s with todo := rest } op) := by
      rw [List.length_cons, Nat.add_right_comm]
      exact core_run_succ ((step_of_inputs_nil hi).trans (coreTurn_micro ht)) _
    rw [hrun]
    generalize State.runMicro { s with todo := rest } op = u at hkept hreached
    have ⟨_, _, hinputs, hheld⟩ := hkept
    rcases hreached with ⟨hlife, hphase, htodo⟩ | ⟨hlife, hphase, hfatal, htodo⟩
    · obtain ⟨t, hrun', hkept', hreached'⟩ := ih hrest u htodo (hheld.trans hh) (hinputs.trans hi)
      exact ⟨t, hrun', hkept.trans hkept', hreached'.cons hlife hphase⟩
    · exact ⟨u, run_waits htodo (hheld.trans hh) (hinputs.trans hi) _, hkept, .inr ⟨hlife, hphase, hfatal, htodo⟩⟩

end

/-- The program of a cycle is at most 10 steps and ends in the App window, with `end_cycle` left to APP_DONE
(42_scheduler.md R173, R174). -/
theorem cycleProgram_opens (σ : Strategy) :
    .endCycle ∉ cycleProgram σ ∧ (cycleProgram σ).length ≤ 10 ∧
      phaseAtEnd (cycleProgram σ) (firstPhase σ) = .app := by
  cases σ <;> decide

/-- Settles O28: the tick starts a program that opens the App window; the asynchronous one is shorter, and CORE waits
for the rest of the 11 steps. -/
theorem cycleReachesTheAppWindow : Obligations.CycleReachesTheAppWindow := by
  unfold Obligations.CycleReachesTheAppWindow
  intro s hl hp _ hh hi
  obtain ⟨hend, hlength, happ⟩ := cycleProgram_opens s.strategy
  obtain ⟨t, hrun, ⟨hregs, hcycle, -⟩, hreached⟩ :=
    run_program hend (10 - (cycleProgram s.strategy).length) s.ticked rfl hh rfl
  rw [Nat.add_sub_cancel' hlength] at hrun
  refine ⟨t, (run_tick hi hl hp).trans hrun, hregs, hcycle, ?_⟩
  rcases hreached with ⟨hlife, hphase, htodo⟩ | ⟨hlife, hphase, hfatal, htodo⟩
  · exact ⟨htodo, .inl ⟨hlife.trans hl, hphase.trans happ⟩⟩
  · exact ⟨htodo, .inr ⟨hlife, hphase, hfatal⟩⟩

/-! ## The sequencer's turn to send: MBX_OUT (42_scheduler.md R186) -/

section
variable {s : State}

/-- The slave of the exchange, where the table has it (10_state.md R50). -/
theorem State.mxSlave_eq {e : Slave} (h : s.slv[s.mx.slave]? = some e) : s.mxSlave = e := by
  rw [State.mxSlave, h]

theorem State.mxIssue_of_free {q : Nat} (h : firstFree s.dg = some q) (x : Datagram) (next : MxState) :
    s.mxIssue x next = { s with dg := s.dg.set q (some x), mx := { s.mx with dg := q, st := next } } := by
  rw [State.mxIssue, State.borrow_eq_some.2 ⟨h, rfl⟩]
  rfl

theorem State.mxIssue_of_full (h : firstFree s.dg = none) (x : Datagram) (next : MxState) :
    s.mxIssue x next = s.fatalStop := by
  rw [State.mxIssue, State.borrow_eq_none.2 h]

theorem State.mbxOut_pollReady (h : s.mx.st = .pollReady) :
    s.mbxOut = s.mxIssue (s.pollDatagram s.mxSlave .seq s.mx.slave) .pollWait := by
  rw [State.mbxOut, h]

theorem State.mbxOut_fetchReady (h : s.mx.st = .fetchReady) :
    s.mbxOut = s.mxIssue (fetchDatagram s.mxSlave .seq s.mx.slave) .fetchWait := by
  rw [State.mbxOut, h]

theorem State.mbxOut_of_not_ready (hp : s.mx.st ≠ .pollReady) (hf : s.mx.st ≠ .fetchReady) : s.mbxOut = s := by
  unfold State.mbxOut
  split
  · exact absurd ‹s.mx.st = .pollReady› hp
  · exact absurd ‹s.mx.st = .fetchReady› hf
  all_goals rfl

end

/-- Settles O33: each of the two ready states issues its datagram, and issuing needs a Free slot. -/
theorem mbxOutIssuesPollOrFetch : Obligations.MbxOutIssuesPollOrFetch := by
  unfold Obligations.MbxOutIssuesPollOrFetch
  intro s e he
  refine ⟨fun q hq hst => ?_, fun q hq hst => ?_, fun hfull hst => ?_, State.mbxOut_of_not_ready⟩
  · rw [State.mbxOut_pollReady hst, State.mxIssue_of_free hq, State.mxSlave_eq he]
    rfl
  · rw [State.mbxOut_fetchReady hst, State.mxIssue_of_free hq, State.mxSlave_eq he]
    rfl
  · rcases hst with hst | hst
    · rw [State.mbxOut_pollReady hst, State.mxIssue_of_full hfull]
    · rw [State.mbxOut_fetchReady hst, State.mxIssue_of_full hfull]

/-! ## The sequencer's turn to look: MBX_IN (42_scheduler.md R190, R191) -/

theorem MxState.waiting_iff (m : MxState) : m.waiting = true ↔ m = .sendWait ∨ m = .pollWait ∨ m = .fetchWait := by
  cases m <;> decide

theorem Status.failed_iff (c : Status) : c.failed = true ↔ c = .notActed ∨ c = .lost := by
  cases c <;> decide

section
variable {s : State} {x : Datagram} {m : Sequencer}

theorem State.mbxIn_of_not_waiting (h : ¬ s.mx.st.waiting = true) : s.mbxIn = s := if_neg h

theorem State.mbxIn_of_not_done (h : s.doneAt s.mx.dg = none) : s.mbxIn = s := by
  rw [State.mbxIn, h]
  exact ite_self s

/-- Status before bytes: a failed datagram ends the exchange (42_scheduler.md R190). -/
theorem State.mbxIn_of_failed (hw : s.mx.st.waiting = true) (hx : s.doneAt s.mx.dg = some x)
    (hc : x.status.failed = true) : s.mbxIn = { s with mx := s.mx.finish (errNumber .transportFailure) } := by
  simp only [State.mbxIn, hw, hx, hc, if_true]

theorem State.mbxIn_of_answered (hw : s.mx.st.waiting = true) (hx : s.doneAt s.mx.dg = some x)
    (hc : ¬ x.status.failed = true) : s.mbxIn = s.mxAnswered x := by
  simp [State.mbxIn, hw, hx, hc]

theorem State.mxAnswered_sendWait (h : s.mx.st = .sendWait) :
    s.mxAnswered x = { s with mx := { s.mx with st := .pollReady } } := by
  rw [State.mxAnswered, h]

theorem State.mxAnswered_pollWait (h : s.mx.st = .pollWait) : s.mxAnswered x = { s with mx := s.mx.polled x } := by
  rw [State.mxAnswered, h]

theorem State.mxAnswered_fetchWait (h : s.mx.st = .fetchWait) : s.mxAnswered x = s.mxFetched x := by
  rw [State.mxAnswered, h]

theorem Sequencer.polled_ready (h : mbxReady x.data = true) : m.polled x = { m with st := .fetchReady } := if_pos h

/-- A clear flag uses up one poll of the budget (42_scheduler.md R195). -/
theorem Sequencer.polled_again (h : mbxReady x.data = false) (hb : 2 ≤ m.budget.toNat) :
    m.polled x = { m with budget := m.budget - 1, st := .pollReady } := by
  have hbudget : BitVec.ofNat 16 (m.budget.toNat - 1) = m.budget - 1 := by bv_omega
  rw [Sequencer.polled, h, if_neg Bool.false_ne_true, if_neg (by omega), hbudget]

/-- A clear flag at the last poll ends the exchange (42_scheduler.md R195). -/
theorem Sequencer.polled_last (h : mbxReady x.data = false) (hb : m.budget.toNat = 1) :
    m.polled x = Sequencer.finish { m with budget := 0 } (errNumber .pollTimeout) := by
  rw [Sequencer.polled, h, if_neg Bool.false_ne_true, if_pos (by omega)]

end

/-- Settles O34: the sequencer looks only when it waits and its slot is Done, at the status and then at the bytes. -/
theorem mbxInFollowsTheExchange : Obligations.MbxInFollowsTheExchange := by
  unfold Obligations.MbxInFollowsTheExchange
  intro s
  refine ⟨fun h1 h2 h3 => State.mbxIn_of_not_waiting ?_, State.mbxIn_of_not_done, fun x hx => ⟨fun hw hc => ?_,
    fun h1 h2 => ?_⟩⟩
  · rw [MxState.waiting_iff]
    exact not_or.2 ⟨h1, not_or.2 ⟨h2, h3⟩⟩
  · exact State.mbxIn_of_failed (s.mx.st.waiting_iff.2 hw) hx (x.status.failed_iff.2 hc)
  · have hanswered : s.mx.st = .sendWait ∨ s.mx.st = .pollWait ∨ s.mx.st = .fetchWait → s.mbxIn = s.mxAnswered x :=
      fun hw => State.mbxIn_of_answered (s.mx.st.waiting_iff.2 hw) hx (mt x.status.failed_iff.1 (not_or.2 ⟨h1, h2⟩))
    refine ⟨fun hst => ?_, fun hst hr => ?_, fun hst hr hb => ?_, fun hst hr hb => ?_⟩
    · rw [hanswered (.inl hst), State.mxAnswered_sendWait hst]
    · rw [hanswered (.inr (.inl hst)), State.mxAnswered_pollWait hst, Sequencer.polled_ready hr]
    · rw [hanswered (.inr (.inl hst)), State.mxAnswered_pollWait hst, Sequencer.polled_again hr hb]
    · rw [hanswered (.inr (.inl hst)), State.mxAnswered_pollWait hst, Sequencer.polled_last hr hb]
      rfl

theorem State.rbuf_wf {s : State} (hs : s.buffersWf = true) : s.mx.rbuf.wf = true :=
  ((State.buffersWf_iff s).1 hs).2.2

/-- A payload that `fetch_decode` accepts fits `rbuf` (42_scheduler.md R191). -/
theorem State.sized.payload_fits {s : State} (hs : s.sized) {b : Buf} {ty : BitVec 4} {len : Half}
    (h : fetchDecode s.mxSlave.txSize.toNat b = .data ty len) : len.toNat ≤ s.mx.rbuf.len := by
  obtain ⟨-, htx⟩ := hs.mxSlave_fits
  obtain ⟨hfit, -⟩ := fetchDecode_data h
  rw [hs.rbuf_len]
  omega

/-- Settles O35: the four outcomes of `fetch_decode`, and a payload that fits is copied whole. -/
theorem sequencedFetchKeepsThePayload : Obligations.SequencedFetchKeepsThePayload := by
  unfold Obligations.SequencedFetchKeepsThePayload
  intro s e x hs hwf hst he hx h1 h2
  have hfetched : s.mbxIn = s.mxFetched x := by
    rw [State.mbxIn_of_answered (s.mx.st.waiting_iff.2 (.inr (.inr hst))) hx
      (mt x.status.failed_iff.1 (not_or.2 ⟨h1, h2⟩)), State.mxAnswered_fetchWait hst]
  rw [hfetched, State.mxFetched, ← State.mxSlave_eq he]
  refine ⟨fun h => by rw [h]; rfl, fun h => by rw [h]; rfl, fun c h => by rw [h]; rfl, fun ty len h => ?_⟩
  rw [h]
  exact ⟨_, rfl, Buf.blit_len _ _ _ _, Buf.blit_get (State.rbuf_wf hwf) x.data 6 len.toNat (hs.payload_fits h)⟩

/-! ## The measure of an exchange (42_scheduler.md R195) -/

section
variable {s : State} {x : Datagram} {m : Sequencer}

theorem exchangeRank_finish (m : Sequencer) (code : Byte) : exchangeRank (m.finish code) = 0 := rfl

theorem exchangeRank_pos_of_waiting (h : m.st.waiting = true) : 0 < exchangeRank m := by
  rcases m.st.waiting_iff.1 h with h | h | h <;> simp [exchangeRank, h]

/-- The fetch is the last answer of an exchange (42_scheduler.md R191). -/
theorem exchangeRank_mxFetched (s : State) (x : Datagram) : exchangeRank (s.mxFetched x).mx = 0 := by
  unfold State.mxFetched
  split <;> rfl

/-- A poll leads to the fetch or uses up one poll of the budget. -/
theorem exchangeRank_polled_lt (hb : 1 ≤ m.budget.toNat) : exchangeRank (m.polled x) < m.budget.toNat + 1 := by
  cases hr : mbxReady x.data with
  | true =>
    rw [Sequencer.polled_ready hr]
    exact Nat.lt_add_of_pos_left hb
  | false =>
    rcases hb.eq_or_lt with hb | hb
    · rw [Sequencer.polled_last hr hb.symm, exchangeRank_finish]
      exact Nat.succ_pos _
    · have hbudget : (m.budget - 1).toNat = m.budget.toNat - 1 := by bv_omega
      rw [Sequencer.polled_again hr hb]
      show (m.budget - 1).toNat + 1 < _
      omega

theorem exchangeRank_mxAnswered_lt (hw : s.mx.st.waiting = true) (hb : 1 ≤ s.mx.budget.toNat) :
    exchangeRank (s.mxAnswered x).mx < exchangeRank s.mx := by
  rcases s.mx.st.waiting_iff.1 hw with hst | hst | hst
  · rw [State.mxAnswered_sendWait hst]
    simp [exchangeRank, hst]
  · rw [State.mxAnswered_pollWait hst]
    simpa [exchangeRank, hst] using exchangeRank_polled_lt hb
  · rw [State.mxAnswered_fetchWait hst, exchangeRank_mxFetched]
    exact exchangeRank_pos_of_waiting hw

/-- A datagram in flight does not change what is to come (42_scheduler.md R186). -/
theorem exchangeRank_mbxOut_le (s : State) : exchangeRank s.mbxOut.mx ≤ exchangeRank s.mx := by
  rcases s.mbxOut_cases with h | ⟨-, h⟩ | ⟨q, station, offset, len, next, -, -, hnext, h⟩ <;> rw [h]
  · exact Nat.zero_le _
  · rcases hnext with ⟨hst, rfl⟩ | ⟨hst, rfl⟩ <;> simp [exchangeRank, hst]

end

/-- Settles O36: a failed answer ends the exchange and any other lowers the measure, which MBX_OUT does not raise. -/
theorem mailboxExchangeIsBounded : Obligations.MailboxExchangeIsBounded := by
  unfold Obligations.MailboxExchangeIsBounded
  refine ⟨fun s x hw hb hx => ?_, exchangeRank_mbxOut_le, fun s hx => by rw [State.mbxIn_of_not_done hx]⟩
  by_cases hc : x.status.failed = true
  · rw [State.mbxIn_of_failed hw hx hc, exchangeRank_finish]
    exact exchangeRank_pos_of_waiting hw
  · rw [State.mbxIn_of_answered hw hx hc]
    exact exchangeRank_mxAnswered_lt hw hb

/-! ## The commands of the scheduler as sequences of tests -/

/-- The test that a slot's datagram is addressed to a slave. -/
def ifAddressed (s : State) (x : Datagram) (f : Nat → Answer) : Answer :=
  match x.slv with
  | none => failsWith s 10
  | some v => f v

theorem ifAddressed_fails {x : Datagram} (h : x.slv = none) (s : State) (f : Nat → Answer) :
    ifAddressed s x f = failsWith s 10 := by rw [ifAddressed, h]

theorem ifAddressed_passes {x : Datagram} {v : Nat} (h : x.slv = some v) (s : State) (f : Nat → Answer) :
    ifAddressed s x f = f v := by rw [ifAddressed, h]

theorem exec_appDone (s : State) : exec .appDone s = ifWindow s (endCommand s.closeWindow) := rfl

theorem exec_mbxXfer (q budget : Nat) (s : State) : exec (.mbxXfer q budget) s =
    (ifActive s <| ifIndex s q <|
      if s.mx.st ≠ .idle then failsWith s 14
      else ifTaken s q fun x => ifAddressed s x fun v =>
        if x.hostWritable = false then failsWith s 10
        else if budget = 0 then failsWith s 12
        else endCommand (s.handOver q x v budget)) := rfl

theorem exec_mbxXstat (s : State) : exec .mbxXstat s = ifActive s (.next { s with
    err := 0, r0 := (mxCode s.mx.st).setWidth 32, r1 := xstatCodeWord s.mx, r2 := xstatLengthWord s.mx
    r3 := s.mx.rerr.setWidth 32 }) := rfl

theorem exec_mbxXrd (i : Nat) (s : State) : exec (.mbxXrd i) s =
    (ifActive s <|
      if s.mx.st ≠ .done ∨ s.mx.rcode ≠ 0 then failsWith s 10
      else if s.mx.rlen.toNat ≤ i then failsWith s 13
      else .next { s with err := 0, r0 := (s.mx.rbuf.get i).setWidth 32 }) := rfl

theorem exec_mbxXclr (s : State) : exec .mbxXclr s =
    (ifActive s <|
      if s.mx.st ≠ .done then failsWith s 10
      else .next { s with err := 0, mx := { s.mx with st := .idle } }) := rfl

/-! ## The commands of the scheduler (42_scheduler.md R178, R185, R192 to R194) -/

/-- Settles O45: under the synchronous strategy APP_DONE is `end_cycle`, which `endOfCycleOrdersTelemetry` writes out. -/
theorem appDoneEndsTheWindow : Obligations.AppDoneEndsTheWindow := by
  unfold Obligations.AppDoneEndsTheWindow
  intro s
  rw [exec_appDone]
  refine ⟨fun h => ifWindow_fails h _, fun hl hp hσ => ?_, fun hl hp hσ => ?_⟩
  · rw [ifWindow_passes hl hp, State.closeWindow, hσ]
    rfl
  · have hclose : s.closeWindow = s.endCycle := by rw [State.closeWindow, hσ]
    rw [ifWindow_passes hl hp, hclose]
    obtain ⟨-, tFin, now, draws, elapsed, hnow, htFin, hidle, hnext⟩ := endOfCycleOrdersTelemetry s
    refine ⟨tFin, now, draws, elapsed, hnow, htFin, fun ht => ?_, fun ht => ?_⟩
    · rw [hidle ht]
      rfl
    · obtain ⟨tPre, t0, now', draws', elapsed', ht0, hnow', htPre, hend⟩ := hnext ht
      refine ⟨tPre, t0, now', draws', elapsed', ht0, hnow', htPre, ?_⟩
      rw [hend, if_pos hσ, if_pos hσ]
      rfl

/-- Settles O46: the tests in order; a slot that answers lies in the pool. -/
theorem mbxXferStartsAnExchange : Obligations.MbxXferStartsAnExchange := by
  unfold Obligations.MbxXferStartsAnExchange
  intro q budget s
  rw [exec_mbxXfer]
  refine ⟨fun hl => ifActive_fails hl _, fun hl hq => ?_, fun hl hq hm => ?_, fun hl hq hm hx => ?_,
    fun x v hl hm hx hst hk ho hv => ?_⟩
  · rw [ifActive_passes hl, ifIndex_fails hq]
  · rw [ifActive_passes hl, ifIndex_passes hq, if_pos hm]
  · rw [ifActive_passes hl, ifIndex_passes hq, if_neg (not_not_intro hm)]
    cases h : s.slotAt q with
    | none => exact ifTaken_fails h _
    | some x =>
      rw [ifTaken_passes h]
      cases hv : x.slv with
      | none => exact ifAddressed_fails hv s _
      | some v =>
        have hw : x.hostWritable = false := Bool.eq_false_iff.2 (mt x.hostWritable_iff.1 (hx x v h hv))
        rw [ifAddressed_passes hv, if_pos hw]
  · have hw : ¬ x.hostWritable = false := by simp [x.hostWritable_iff.2 ⟨hst, hk, ho⟩]
    rw [ifActive_passes hl, ifIndex_passes (State.slotAt_lt hx), if_neg (not_not_intro hm), ifTaken_passes hx,
      ifAddressed_passes hv, if_neg hw]
    exact ⟨fun hb => if_pos hb, fun hb => if_neg (Nat.one_le_iff_ne_zero.1 hb)⟩

/-- R1 of MBX_XSTAT as a number (42_scheduler.md R192). -/
theorem xstatCodeWord_toNat (m : Sequencer) :
    (xstatCodeWord m).toNat = m.rcode.toNat + 2 ^ 8 * m.rknown.toNat := by
  simp only [xstatCodeWord, append_toNat, BitVec.toNat_ofBool, BitVec.toNat_ofNat]
  omega

/-- R2 of MBX_XSTAT as a number (42_scheduler.md R192). -/
theorem xstatLengthWord_toNat (m : Sequencer) :
    (xstatLengthWord m).toNat = m.rtype.toNat + 2 ^ 16 * m.rlen.toNat := by
  simp only [xstatLengthWord, append_toNat, BitVec.toNat_ofNat]
  omega

/-- Settles O47: both commands need a block that is Active, and the words of MBX_XSTAT are its fields side by side. -/
theorem mbxXstatAndXclr : Obligations.MbxXstatAndXclr := by
  unfold Obligations.MbxXstatAndXclr
  intro s
  rw [exec_mbxXstat, exec_mbxXclr]
  refine ⟨fun hl => ⟨ifActive_fails hl _, ifActive_fails hl _⟩, fun hl => ?_, fun hl hm => ?_, fun hl hm => ?_⟩
  · rw [ifActive_passes hl]
    refine ⟨_, _, _, _, rfl, ?_, xstatCodeWord_toNat s.mx, xstatLengthWord_toNat s.mx, ?_⟩
    · cases s.mx.st <;> rfl
    · exact BitVec.toNat_setWidth_of_le (by decide)
  · rw [ifActive_passes hl, if_pos hm]
  · rw [ifActive_passes hl, if_neg (not_not_intro hm)]

/-- Settles O48: the tests in order. -/
theorem mbxXrdReadsTheResponse : Obligations.MbxXrdReadsTheResponse := by
  unfold Obligations.MbxXrdReadsTheResponse
  intro i s
  rw [exec_mbxXrd]
  have hpass : s.mx.st = .done → s.mx.rcode = 0 → ¬ (s.mx.st ≠ .done ∨ s.mx.rcode ≠ 0) := fun hd hr => by simp [hd, hr]
  refine ⟨fun hl => ifActive_fails hl _, fun hl h => ?_, fun hl hd hr hi => ?_, fun hl hd hr hi => ?_⟩
  · rw [ifActive_passes hl, if_pos h]
  · rw [ifActive_passes hl, if_neg (hpass hd hr), if_pos hi]
  · rw [ifActive_passes hl, if_neg (hpass hd hr), if_neg (Nat.not_le_of_lt hi), BitVec.ofNat_toNat]

end Sys2Proof.Machine
end

section
/-! The proofs of the family of 43_driver_lifecycle.md: the telemetry of a cycle, the configuration while Active, what
changes the lifecycle state, the host ticks, the tick, and the lifecycle commands. -/

namespace Sys2Proof.Machine

/-! ## The telemetry of the cycle under way (43_driver_lifecycle.md R214) -/

/-- The App window of the cycle under way has opened, so that T_POST is written: it is open, or the outgoing half of the
asynchronous strategy runs after it (42_scheduler.md R174). -/
def State.opened (s : State) : Prop := s.phase = .app ∨ (s.phase = .sending ∧ s.strategy = .async)

theorem State.timely_iff (s : State) : s.timely ↔
    (s.phase ≠ .idle → s.t0 ≤ s.now ∧ s.tPre ≤ s.sinceStart) ∧
      (s.opened → s.tPre ≤ s.tPost ∧ s.tPost ≤ s.sinceStart) := Iff.rfl

/-- From `s` to `t` the time base, the start of the cycle and its telemetry stay. A field left out is one that the change
does not touch. -/
structure ClockKept (s t : State) : Prop where
  t0 : t.t0 = s.t0 := by rfl
  now : t.now = s.now := by rfl
  tPre : t.tPre = s.tPre := by rfl
  tPost : t.tPost = s.tPost := by rfl

section
variable {s t : State}

/-- In Idle there is no cycle under way. -/
theorem State.timely_of_idle (h : s.phase = .idle) : s.timely :=
  ⟨fun hp => absurd h hp, by simp [h]⟩

/-- With the clock as it is, the telemetry stays in order in a phase that asks for no more. -/
theorem State.timely.of_clock (hs : s.timely) (k : ClockKept s t) (hidle : t.phase ≠ .idle → s.phase ≠ .idle)
    (hopened : t.opened → s.opened) : t.timely := by
  have hsince : t.sinceStart = s.sinceStart := by rw [State.sinceStart, k.now, k.t0, State.sinceStart]
  rw [State.timely_iff, hsince, k.t0, k.now, k.tPre, k.tPost]
  exact ⟨fun h => hs.1 (hidle h), fun h => hs.2 (hopened h)⟩

theorem State.timely.of_clock_phase (hs : s.timely) (k : ClockKept s t) (hp : t.phase = s.phase)
    (hst : t.strategy = s.strategy) : t.timely :=
  hs.of_clock k (fun h => hp ▸ h) fun h => by unfold State.opened; rwa [← hp, ← hst]

/-- A cycle starts before its App window (42_scheduler.md R172). -/
theorem State.startCycle_not_opened (s : State) : ¬ s.startCycle.opened := by
  unfold State.opened
  rw [State.startCycle_phase, State.startCycle_strategy]
  cases s.strategy <;> decide

theorem State.startCycle_timely (s : State) : s.startCycle.timely :=
  ⟨fun _ => ⟨s.startCycle_t0_le, BitVec.le_of_eq s.startCycle_tPre⟩, fun h => absurd h s.startCycle_not_opened⟩

theorem State.endCycle_timely (s : State) : s.endCycle.timely := by
  rw [State.endCycle_eq]
  split
  · exact State.startCycle_timely _
  · exact State.timely_of_idle rfl

theorem State.timely.tick (hs : s.timely) : s.tick.timely := by
  rcases s.tick_cases with ⟨-, h⟩ | ⟨-, -, h⟩ | ⟨-, -, p, h⟩ <;> rw [h]
  · exact hs
  · exact s.startCycle_timely
  · exact hs.of_clock_phase {} rfl rfl

/-- T_POST is a later reading of the time base than T_PRE (43_driver_lifecycle.md R214). -/
theorem State.timely.toApp (hs : s.timely) (hp : s.phase ≠ .idle) : s.toApp.timely := by
  obtain ⟨ht0, hpre⟩ := hs.1 hp
  have hpost : s.toApp.tPre ≤ s.toApp.sinceStart := BitVec.le_trans hpre s.readTime_sinceStart
  exact ⟨fun _ => ⟨Nat.le_add_right_of_le ht0, hpost⟩, fun _ => ⟨hpost, BitVec.le_refl _⟩⟩

/-- Apart from `Fatal()`, only the entry to the App window and `end_cycle` read the time base. -/
theorem State.runMicro_clockKept (s : State) {op : MicroOp} (happ : op ≠ .toApp) (hend : op ≠ .endCycle) :
    s.runMicro op = s.fatalStop ∨ ClockKept s (s.runMicro op) := by
  cases op with
  | toApp => exact absurd rfl happ
  | endCycle => exact absurd rfl hend
  | queueAll =>
    refine s.queueAll_cases.imp And.right fun ⟨_, h⟩ => ?_
    show ClockKept s s.queueAll
    rw [h.frame]
    exact {}
  | mbxOut =>
    show s.mbxOut = s.fatalStop ∨ ClockKept s s.mbxOut
    rcases s.mbxOut_cases with h | ⟨-, h⟩ | ⟨_, _, _, _, _, -, -, -, h⟩ <;> rw [h]
    · exact .inr {}
    · exact .inl rfl
    · exact .inr {}
  | mbxIn =>
    show s.mbxIn = s.fatalStop ∨ ClockKept s s.mbxIn
    rcases s.mbxIn_cases with ⟨h, -⟩ | ⟨_, _, _, -, -, -, h⟩ <;> rw [h] <;> exact .inr {}
  | _ => exact .inr {}

/-- Only the entry to the App window opens it. -/
theorem CycleWrites.opened {op : MicroOp} (h : CycleWrites op s t) (happ : op ≠ .toApp) (ht : t.opened) : s.opened := by
  unfold CycleWrites at h
  rw [h] at ht
  cases op with
  | toApp => exact absurd rfl happ
  | toAwaiting => simp [State.opened, phaseAfter] at ht
  | toProcessing => simp [State.opened, phaseAfter] at ht
  | _ => exact ht

theorem State.timely.runMicro (hs : s.timely) {op : MicroOp} (hp : s.phase ≠ .idle) : (s.runMicro op).timely := by
  by_cases happ : op = .toApp
  · subst happ
    exact hs.toApp hp
  by_cases hend : op = .endCycle
  · subst hend
    exact s.endCycle_timely
  have fatal (h : s.runMicro op = s.fatalStop) : (s.runMicro op).timely := h ▸ State.timely_of_idle rfl
  rcases s.runMicro_clockKept happ hend with h | hclock
  · exact fatal h
  rcases s.runMicro_cases op with h | ⟨he, -⟩ | ⟨-, hw⟩
  · exact fatal h
  · exact absurd he hend
  · exact hs.of_clock hclock (fun _ => hp) (hw.opened happ)

/-- APP_DONE ends the cycle, or goes on after its App window (42_scheduler.md R178). -/
theorem State.timely.closeWindow (hs : s.timely) (hp : s.phase = .app) : s.closeWindow.timely := by
  rcases s.closeWindow_cases with ⟨-, h⟩ | ⟨-, h⟩ <;> rw [h]
  · exact s.endCycle_timely
  · exact hs.of_clock {} (fun _ => by simp [hp]) fun _ => .inl hp

/-- Every command stops the cycle, closes its App window, or leaves its clock alone. -/
theorem Effect.timely {i : Instr} (h : Effect i s t) (hs : s.timely) : t.timely := by
  cases h with
  | acquire => exact State.timely_of_idle rfl
  | activate => exact State.timely_of_idle rfl
  | deactivate => exact State.timely_of_idle rfl
  | appDone _ _ hp => exact hs.closeWindow hp
  | _ => exact hs.of_clock_phase {} rfl rfl

/-- A program runs in a phase of its cycle (42_scheduler.md R173, R174). -/
theorem State.phase_ne_idle_of_todo (h : s.positioned) {op : MicroOp} {rest : List MicroOp} (ho : s.todo = op :: rest) :
    s.phase ≠ .idle := by
  rw [(State.positioned_next h ho).1]
  cases op <;> decide

/-- The parts of a step keep the telemetry in order together with the invariants of R60, which say that a program runs
only in a phase of its cycle. -/
theorem timely_kept : Kept fun s => s.consistent ∧ s.timely where
  core s t h hs := ⟨consistent_kept.core s t h hs.1, by unfold SameCore at h; rw [h]; exact hs.2⟩
  command i s t ha hs h := ⟨consistent_kept.command i s t ha hs.1 h, h.timely hs.2⟩
  fatal s ha hl hs := ⟨consistent_kept.fatal s ha hl hs.1, State.timely_of_idle rfl⟩
  micro s op rest hs ho :=
    have hp : s.phase ≠ .idle := State.phase_ne_idle_of_todo hs.1.positioned ho
    ⟨consistent_kept.micro s op rest hs.1 ho, State.timely.runMicro (s := { s with todo := rest }) hs.2 hp⟩
  tick s hs := ⟨consistent_kept.tick s hs.1, hs.2.tick⟩
  reset s hs := ⟨consistent_kept.reset s hs.1, State.timely_of_idle rfl⟩

end

/-- Settles O25, by the parts of a step. -/
theorem stepKeepsTelemetryInOrder : Obligations.StepKeepsTelemetryInOrder := by
  unfold Obligations.StepKeepsTelemetryInOrder
  intro s t hs htimely hstep
  exact (timely_kept.step ⟨hs, htimely⟩ hstep).2

/-! ## The lifecycle commands as sequences of tests (43_driver_lifecycle.md R220 to R226) -/

/-- The test that the block is in the lifecycle state `l`, for the rest `o` of a command. -/
def ifLife (s : State) (l : Life) (o : Answer) : Answer := if s.life ≠ l then failsWith s 10 else o

section
variable {s : State} {l : Life}

theorem ifLife_fails (h : s.life ≠ l) (o : Answer) : ifLife s l o = failsWith s 10 := if_pos h

theorem ifLife_passes (h : s.life = l) (o : Answer) : ifLife s l o = o := if_neg (not_not_intro h)

end

theorem exec_acquire (s : State) : exec .acquire s =
    ifLife s .released (.next { s.clearSession with life := .configuring }) := rfl

theorem exec_slaveSet (i : Nat) (station : Half) (s : State) : exec (.slaveSet i station) s =
    (ifLife s .configuring <|
      if s.nslave ≤ i then failsWith s 11
      else if s.par.dgmax < (s.a1.extractLsb' 16 16).toNat ∨ s.par.dgmax < (s.a2.extractLsb' 16 16).toNat then
        failsWith s 12
      else .next { s with err := 0, slv := s.slv.set i (slaveOperand s station) }) := rfl

theorem exec_activate (σ : Strategy) (s : State) : exec (.activate σ) s =
    if s.life ≠ .configuring ∨ s.fatal = true then failsWith s 10
    else if s.a0 = 0 then failsWith s 12
    else .next { s.activated σ with err := 0 } := rfl

theorem exec_deactivate (s : State) : exec .deactivate s = ifLife s .active (.next { s.halt with err := 0 }) := rfl

theorem exec_release (s : State) : exec .release s =
    ifLife s .configuring (.next { s.clearTables with err := 0, life := .released }) := rfl

/-! ## The configuration while Active (43_driver_lifecycle.md R222) -/

section
variable {s t : State}

theorem State.closeWindow_configKept (s : State) : ConfigKept s s.closeWindow := by
  rcases s.closeWindow_cases with ⟨-, h⟩ | ⟨-, h⟩ <;> rw [h]
  · exact s.endCycle_configKept
  · exact {}

theorem State.tick_configKept (s : State) : ConfigKept s s.tick where
  slv := s.tick_slv
  fld := s.tick_fld
  fldcnt := s.tick_fldcnt
  shape := by rw [s.tick_dom]

/-- The commands that write the configuration do not run while Active. -/
theorem Effect.configKept {i : Instr} (h : Effect i s t) (hl : s.life = .active) : ConfigKept s t := by
  cases h with
  | acquire _ h => exact nomatch hl.symm.trans h
  | slaveSet _ _ _ h => exact nomatch hl.symm.trans h
  | activate _ _ h => exact nomatch hl.symm.trans h
  | release _ h => exact nomatch hl.symm.trans h
  | domCreate _ _ _ _ h => exact nomatch hl.symm.trans h
  | domRegField _ _ _ _ _ h => exact nomatch hl.symm.trans h
  | deactivate => exact s.halt_configKept
  | appDone => exact s.closeWindow_configKept
  | fldWr _ _ _ _ _ _ _ hw => exact State.setDomBuf_configKept hw
  | _ => exact {}

/-- The host-facing registers are no part of the configuration. -/
theorem ConfigKept.congr {u v : State} (h : ConfigKept u v) (hsu : SameCore s u) (hvt : SameCore v t) :
    ConfigKept s t := by
  unfold SameCore at hsu hvt
  rw [hvt]
  rw [hsu] at h
  exact { h with }

theorem step_configKept (hl : s.life = .active) (hr : s.inputs.head? ≠ some .reset) (h : step s = .next t) :
    ConfigKept s t := by
  cases step_turned h with
  | ran hran =>
    cases hran with
    | access hst => exact ConfigKept.congr {} (.refl s) hst
    | command i u v _ hsu he hvt =>
      have hlu : u.life = .active := by rw [hsu]; exact hl
      exact (he.configKept hlu).congr hsu hvt
    | exhausted u _ _ hsu hvt => exact u.fatalStop_configKept.congr hsu hvt
  | micro op rest _ u hsu ht =>
    have hu : ConfigKept u t := { ht ▸ State.runMicro_configKept { u with todo := rest } op with }
    exact hu.congr hsu (.refl t)
  | tick u hsu ht => exact ht ▸ u.tick_configKept.congr hsu (.refl _)
  | reset hreset => exact absurd hreset hr

end

/-- Settles O18, by what each part of a step writes; the three commands fail the test of `life`. -/
theorem configurationLockedWhileActive : Obligations.ConfigurationLockedWhileActive := by
  unfold Obligations.ConfigurationLockedWhileActive
  intro s hl
  refine ⟨fun t hr hstep => ?_, fun i station => ?_, fun d size => ?_, fun d off => ?_⟩
  · obtain ⟨hslv, hfld, hfldcnt, hshape⟩ := step_configKept hl hr hstep
    exact ⟨hslv, hfld, hfldcnt, hshape⟩
  · rw [exec_slaveSet, ifLife_fails (by simp [hl])]
  · rw [exec_domCreate, ifConfiguring_active hl]
  · rw [exec_domRegField, ifConfiguring_active hl]

/-! ## What changes the lifecycle state (43_driver_lifecycle.md R227, R228) -/

/-- The changes of `life` that a command makes, as R227 lists them. -/
inductive LifeMove : Instr → State → State → Prop
  | acquire {s t : State} (hs : s.life = .released) (ht : t.life = .configuring) : LifeMove .acquire s t
  | activate {σ : Strategy} {s t : State} (hs : s.life = .configuring) (hf : s.fatal = false)
      (hk : 1 ≤ t.kdiv.toNat) (ht : t.life = .active) : LifeMove (.activate σ) s t
  | release {s t : State} (hs : s.life = .configuring) (ht : t.life = .released) : LifeMove .release s t
  | deactivate {s t : State} (hs : s.life = .active) (ht : t.life = .configuring) : LifeMove .deactivate s t

section
variable {s t : State} {i : Instr}

theorem State.closeWindow_life (s : State) : s.closeWindow.life = s.life := by
  rcases s.closeWindow_cases with ⟨-, h⟩ | ⟨-, h⟩ <;> rw [h]
  exact s.endCycle_life

theorem Effect.lifeMove (h : Effect i s t) : t.life = s.life ∨ LifeMove i s t.succeed := by
  cases h with
  | acquire _ hl => exact .inr (.acquire hl rfl)
  | activate σ _ hl hf ha =>
    have hk : 0 < s.a0.toNat := Nat.pos_of_ne_zero fun h0 => ha (BitVec.eq_of_toNat_eq h0)
    exact .inr (.activate hl hf hk rfl)
  | release _ hl => exact .inr (.release hl rfl)
  | deactivate _ hl => exact .inr (.deactivate hl rfl)
  | appDone => exact .inl s.closeWindow_life
  | _ => exact .inl rfl

/-- A failing command leaves `life` alone, unless it ran into `Fatal()` (20_memory.md R84). -/
theorem Failed.life (h : Failed i s t) :
    t.life = s.life ∨ (s.life = .active ∧ t.life = .configuring ∧ t.fatal = true ∧ t.err = 9) := by
  cases h with
  | exhausted _ _ hl => exact .inr ⟨hl, rfl, rfl, rfl⟩
  | _ => exact .inl rfl

theorem State.runMicro_life (s : State) (op : MicroOp) :
    (s.runMicro op).life = s.life ∨ s.runMicro op = s.fatalStop := by
  rcases s.runMicro_cases op with h | ⟨-, h⟩ | ⟨-, h⟩
  · exact .inr h
  · exact .inl (by rw [h, s.endCycle_life])
  · exact .inl (by rw [h])

end

/-- Settles O19, by the moves of `LifeMove` and `Fatal()`. -/
theorem lifecycleTransitions : Obligations.LifecycleTransitions := by
  unfold Obligations.LifecycleTransitions
  refine ⟨fun i s t hexec hne => ?_, fun s op hne => ?_, fun s => ⟨s.tick_life, rfl⟩⟩
  · rcases exec_next hexec with hf | ⟨u, hu, rfl⟩
    · exact .inr (.inr (.inr (.inr (hf.life.resolve_left hne))))
    · cases hu.lifeMove.resolve_left hne with
      | acquire hs ht => exact .inl ⟨rfl, hs, ht⟩
      | activate hs hf hk ht => exact .inr (.inl ⟨⟨_, rfl⟩, hs, hf, hk, ht⟩)
      | release hs ht => exact .inr (.inr (.inl ⟨rfl, hs, ht⟩))
      | deactivate hs ht => exact .inr (.inr (.inr (.inl ⟨rfl, hs, ht⟩)))
  · rw [(s.runMicro_life op).resolve_left hne]
    exact ⟨rfl, rfl⟩

/-! ## The host ticks (43_driver_lifecycle.md R213, R218) -/

/-- `f` counts as FWD does and keeps K. -/
structure Forwards (f : State → State) : Prop where
  kdiv : ∀ s, (f s).kdiv = s.kdiv
  tickcnt : ∀ s, (f s).tickcnt = s.fwd.tickcnt
  hostTicks : ∀ s, (f s).hostTicks = s.fwd.hostTicks

theorem fwd_forwards : Forwards State.fwd := ⟨State.fwd_kdiv, fun _ => rfl, fun _ => rfl⟩

theorem endCycle_forwards : Forwards State.endCycle :=
  ⟨State.endCycle_kdiv, State.endCycle_tickcnt, State.endCycle_hostTicks⟩

theorem fwdTimes_eq (n : Nat) (s : State) : fwdTimes n s = State.fwd^[n] s := by
  induction n generalizing s with
  | zero => rfl
  | succ n ih => exact ih s.fwd

theorem endTimes_eq (n : Nat) (s : State) : endTimes n s = State.endCycle^[n] s := by
  induction n generalizing s with
  | zero => rfl
  | succ n ih => exact ih s.endCycle

/-- TICKCNT counts the cycles modulo K, and each time it wraps there is a host tick. -/
theorem Forwards.iterate {f : State → State} (hf : Forwards f) (n : Nat) :
    ∀ s : State, s.tickcnt.toNat < s.kdiv.toNat →
      (f^[n] s).hostTicks = s.hostTicks + (s.tickcnt.toNat + n) / s.kdiv.toNat ∧
        (f^[n] s).tickcnt.toNat = (s.tickcnt.toNat + n) % s.kdiv.toNat := by
  induction n with
  | zero => exact fun s h => ⟨by simp [Nat.div_eq_of_lt h], (Nat.mod_eq_of_lt h).symm⟩
  | succ n ih =>
    intro s h
    have hcount := State.fwd_tickcnt_toNat s
    have hticks := State.fwd_hostTicks s
    have hlt : (f s).tickcnt.toNat < (f s).kdiv.toNat := by
      rw [hf.tickcnt, hf.kdiv]
      exact State.fwd_tickcnt_lt (Nat.zero_lt_of_lt h)
    obtain ⟨hn, hc⟩ := ih (f s) hlt
    rw [hf.tickcnt, hf.kdiv] at hn hc
    rw [hf.hostTicks] at hn
    rw [Function.iterate_succ_apply, hn, hc, hcount, hticks]
    split
    · next hk =>
      have hwrap : s.tickcnt.toNat + (n + 1) = s.kdiv.toNat + n := by omega
      rw [hwrap, Nat.add_mod_left, Nat.add_div_left n (Nat.zero_lt_of_lt h), Nat.zero_add]
      exact ⟨by omega, rfl⟩
    · rw [Nat.add_assoc, Nat.add_comm 1 n]
      exact ⟨rfl, rfl⟩

/-- From TICKCNT = 0 the cycles counted are all there were. -/
theorem Forwards.iterate_of_zero {f : State → State} (hf : Forwards f) (n : Nat) {s : State} (h0 : s.tickcnt = 0)
    (hk : 1 ≤ s.kdiv.toNat) :
    (f^[n] s).hostTicks = s.hostTicks + n / s.kdiv.toNat ∧ (f^[n] s).tickcnt.toNat = n % s.kdiv.toNat := by
  have hzero : s.tickcnt.toNat = 0 := by rw [h0]; rfl
  have h := hf.iterate n s (hzero ▸ hk)
  rwa [hzero, Nat.zero_add] at h

/-- Settles O37: FWD and `end_cycle` count alike, and nothing else writes the count. -/
theorem hostTickEveryKthCycle : Obligations.HostTickEveryKthCycle := by
  unfold Obligations.HostTickEveryKthCycle
  refine ⟨fun s n h0 hk => ?_, fun s op hop => ?_, fun s => ⟨s.tick_hostTicks, s.tick_tickcnt⟩⟩
  · rw [fwdTimes_eq, endTimes_eq]
    obtain ⟨hticks, hcount⟩ := fwd_forwards.iterate_of_zero n h0 hk
    exact ⟨hticks, hcount, endCycle_forwards.iterate_of_zero n h0 hk⟩
  · rcases s.runMicro_cases op with h | ⟨he, -⟩ | ⟨-, h⟩
    · rw [h]
      exact ⟨rfl, rfl⟩
    · exact absurd he hop
    · rw [h]
      exact ⟨rfl, rfl⟩

/-! ## The tick (43_driver_lifecycle.md R210, R211) -/

/-- A tick does not wait for a held command (43_driver_lifecycle.md R212; log 9). -/
theorem step_tick {s : State} {rest : List Input} (h : s.inputs = .tick :: rest) :
    step s = .next (State.tick { s with inputs := rest }) :=
  step_takeTurn h rfl

section
variable {s : State}

theorem State.tick_of_not_active (h : s.life ≠ .active) : s.tick = s := if_pos h

theorem State.tick_of_idle (hl : s.life = .active) (hp : s.phase = .idle) : s.tick = s.startCycle := by
  rw [State.tick, if_neg (not_not_intro hl), if_pos hp]

theorem State.tick_of_cycle (hl : s.life = .active) (hp : s.phase ≠ .idle) :
    s.tick = { s with tickpend := true, ovr := true } := by
  rw [State.tick, if_neg (not_not_intro hl), if_neg hp]
  split
  · rfl
  · next h => rw [← Bool.of_not_eq_false h]

end

/-- Settles O9: the cases of the tick, with the start of a cycle field by field. -/
theorem tickIsAcceptedHeldOrLost : Obligations.TickIsAcceptedHeldOrLost := by
  unfold Obligations.TickIsAcceptedHeldOrLost
  intro s rest hi
  rw [step_tick hi]
  let u : State := { s with inputs := rest }
  refine ⟨fun hl => congrArg _ (State.tick_of_not_active (s := u) hl), fun hl hp => ?_, fun hl hp _ => ?_,
    fun hl hp ht => ?_⟩
  · have htick : u.tick = u.begunAt u.startCycle := (State.tick_of_idle (s := u) hl hp).trans u.startCycle_eq
    exact ⟨u.startCycle.t0, u.startCycle.now, u.startCycle.draws, u.startCycle.tPre, u.startCycle.elapsed,
      Nat.le_add_right _ _, u.startCycle_t0_le, State.sinceStart_toNat u.startCycle, congrArg _ htick⟩
  · exact congrArg _ (State.tick_of_cycle (s := u) hl hp)
  · rw [State.tick_of_cycle (s := u) hl hp, ← ht]

/-! ## The lifecycle commands (43_driver_lifecycle.md R220 to R228) -/

/-- Tables of entries that are all as after reset. -/
theorem State.clearTables_eq (s : State) : s.clearTables = { s with
    slv := List.replicate s.nslave Slave.empty, dom := List.replicate s.ndom Domain.empty
    fld := List.replicate s.nfield Field.empty, fldcnt := 0 } := by
  simp only [State.clearTables, List.map_const', State.nslave, State.ndom, State.nfield]

/-- ACQUIRE and reset go back to the state after reset, but for the host registers, LOG, and the model's own fields
(43_driver_lifecycle.md R220). -/
theorem State.clearSession_eq (s : State) : s.clearSession = {
    State.initial s.par { nslave := s.nslave, ndom := s.ndom, nfield := s.nfield, ndg := s.ndg } with
    a0 := s.a0, a1 := s.a1, a2 := s.a2, a3 := s.a3, r0 := s.r0, r1 := s.r1, r2 := s.r2, r3 := s.r3
    log := s.log, hostTicks := s.hostTicks, rdata := s.rdata
    inputs := s.inputs, wire := s.wire, elapsed := s.elapsed, draws := s.draws, now := s.now } := by
  simp only [State.clearSession, State.clearTables_eq, List.map_const', State.initial, State.ndg]

/-- Settles O41: past the test, what `clearSession` leaves. -/
theorem acquireStartsASession : Obligations.AcquireStartsASession := by
  unfold Obligations.AcquireStartsASession
  intro s
  rw [exec_acquire]
  refine ⟨fun hl => ifLife_fails hl _, fun hl => ?_⟩
  rw [ifLife_passes hl, State.clearSession_eq]

/-- Settles O42: the tests in order. -/
theorem slaveSetWritesOneEntry : Obligations.SlaveSetWritesOneEntry := by
  unfold Obligations.SlaveSetWritesOneEntry
  intro i station s
  dsimp only
  rw [exec_slaveSet]
  refine ⟨fun hl => ifLife_fails hl _, fun hl hi => ?_, fun hl hi hsize => ?_, fun hl hi hrx htx => ?_⟩
  · rw [ifLife_passes hl, if_pos hi]
  · rw [ifLife_passes hl, if_neg (Nat.not_le_of_lt hi), if_pos hsize]
  · rw [ifLife_passes hl, if_neg (Nat.not_le_of_lt hi), if_neg (by omega)]
    rfl

/-- Settles O43: the tests in order, and the writes of `activated`. -/
theorem activateStartsCyclicOperation : Obligations.ActivateStartsCyclicOperation := by
  unfold Obligations.ActivateStartsCyclicOperation
  intro σ s
  rw [exec_activate]
  refine ⟨fun h => if_pos h, fun hl hf ha => ?_, fun hl hf ha => ?_⟩
  · rw [if_neg (by simp [hl, hf]), if_pos ha]
  · rw [if_neg (by simp [hl, hf]), if_neg ha]
    rfl

/-- Settles O44: DEACTIVATE and `Fatal()` are `halt`, and RELEASE clears the tables. -/
theorem deactivateAndRelease : Obligations.DeactivateAndRelease := by
  unfold Obligations.DeactivateAndRelease
  intro s
  rw [exec_deactivate, exec_release]
  refine ⟨fun hl => ifLife_fails hl _, fun hl => ?_, fun hl => ifLife_fails hl _, fun hl => ?_, rfl⟩
  · rw [ifLife_passes hl]
    rfl
  · rw [ifLife_passes hl, State.clearTables_eq]
    rfl

end Sys2Proof.Machine
end

section
/-! The proofs of the family of 60_exceptions.md: the precision of every error, the permission table, and the CMD write
during a hold. -/

namespace Sys2Proof.Machine

/-! ## How a command fails (60_exceptions.md R245, R246) -/

/-- The low byte of ERR is the number of the error, whatever it carries (10_state.md R27). -/
theorem errWord_code (code : Byte) (known : Bool) (info : Half) :
    (errWord code known info).toNat % 256 = code.toNat := by
  rw [errWord_toNat]
  split <;> omega

/-- A failed command has written ERR, and no more than that unless it is one of R245's two exceptions. -/
theorem Failed.precise {i : Instr} {s t : State} (h : Failed i s t) :
    t = { s with err := t.err } ∨
      (∃ q v e, i = .mbxFetch q v ∧ (t.err = 3 ∨ t.err.toNat % 256 = 4) ∧
        t = { s with err := t.err, log := s.log ++ [e] }) ∨
      (t.err = 9 ∧ firstFree s.dg = none ∧ t = { s.fatalStop with err := 9 }) := by
  cases h with
  | plain => exact .inl rfl
  | corrupt q v _ l => exact .inr (.inl ⟨q, v, l, rfl, .inl rfl, rfl⟩)
  | reply q v _ l k c => exact .inr (.inl ⟨q, v, l, rfl, .inr (errWord_code 4 k c), rfl⟩)
  | exhausted _ _ _ hf => exact .inr (.inr ⟨rfl, hf, rfl⟩)

/-- Settles O15: a command fails or has its effect (`exec_ends`), and past its effect ERR is 0. -/
theorem failingCommandIsPrecise : Obligations.FailingCommandIsPrecise := by
  unfold Obligations.FailingCommandIsPrecise
  intro i s
  cases exec_ends i s with
  | fails t hf ho => exact ⟨t, ho, fun _ => hf.precise⟩
  | succeeds u _ ho => exact ⟨u.succeed, ho, fun he => absurd u.succeed_err he⟩

/-! ## A CMD write during a hold (60_exceptions.md R262) -/

/-- The model refuses the write (log 10). -/
theorem presentCommand_of_held {s : State} {h : Held} (hh : s.held = some h) (w : Word) :
    presentCommand w s = .refused .commandWhileHeld := by simp [presentCommand, hh]

/-- Settles O7: the write waits exactly while the held command is due, else the command it presents is refused. -/
theorem secondCommandIsRefused : Obligations.SecondCommandIsRefused := by
  unfold Obligations.SecondCommandIsRefused
  intro s w rest h hi hh
  refine ⟨fun hp => ?_, fun hp => ?_⟩
  · have hw : s.accessWaits (.write 0x00 w) = false := by
      rcases hp with hp | hp | hp <;> simp [State.accessWaits, State.commandDue, State.accepting, hp]
    exact (step_takeTurn hi hw).trans (presentCommand_of_held (s := { s with inputs := rest }) hh w)
  · exact step_of_accessWaits hi (s.commandDue_iff.2 ⟨by simp [hh], hp⟩)

/-! ## The permission table (60_exceptions.md R242) -/

/-- The table permits the command, or it names an error, and the command ends with that error and changes nothing else. -/
def FollowsTable (i : Instr) (s : State) : Prop :=
  denial i s = none ∨ (denial i s = some .badState ∧ exec i s = failsWith s 10) ∨
    (denial i s = some .domainAlreadyActive ∧ exec i s = failsWith s 7)

section
variable {i : Instr} {s : State} {o : Answer}

/-- A command whose first test fails with BadState wherever the table does not permit it. -/
theorem FollowsTable.of_test {P Q : Prop} [Decidable P] [Decidable Q]
    (hd : denial i s = if P then none else some .badState) (he : exec i s = if Q then failsWith s 10 else o)
    (hPQ : ¬ P → Q) : FollowsTable i s := by
  by_cases hP : P
  · exact .inl (hd.trans (if_pos hP))
  · exact .inr (.inl ⟨hd.trans (if_neg hP), he.trans (if_pos (hPQ hP))⟩)

/-- The commands of one lifecycle state. -/
theorem FollowsTable.of_life {l : Life} (hd : denial i s = if s.life = l then none else some .badState)
    (he : exec i s = ifLife s l o) : FollowsTable i s := .of_test hd he id

/-- The commands of the mailbox engine, the sequencer and the slots: any phase while Active. -/
theorem FollowsTable.of_active (hd : denial i s = if s.life = .active then none else some .badState)
    (he : exec i s = ifActive s o) : FollowsTable i s := .of_life hd he

/-- The commands of the App window. -/
theorem FollowsTable.of_window (hd : denial i s = if s.life = .active ∧ s.phase = .app then none else some .badState)
    (he : exec i s = ifWindow s o) : FollowsTable i s := .of_test hd he not_and_or.1

/-- The commands that configure domains: while Active their error is DomainAlreadyActive. -/
theorem FollowsTable.of_configuring
    (hd : denial i s = if s.life = .configuring then none
      else if s.life = .active then some .domainAlreadyActive else some .badState)
    (he : exec i s = ifConfiguring s o) : FollowsTable i s := by
  rw [FollowsTable, hd, he]
  cases hl : s.life with
  | released => exact .inr (.inl ⟨rfl, ifConfiguring_released hl o⟩)
  | configuring => exact .inl rfl
  | active => exact .inr (.inr ⟨rfl, ifConfiguring_active hl o⟩)

end

/-- Row by row, by the first test of each command. -/
theorem followsTable (i : Instr) (s : State) : FollowsTable i s := by
  cases i with
  | acquire => exact .of_life rfl (exec_acquire s)
  | slaveSet n station => exact .of_life rfl (exec_slaveSet n station s)
  | activate σ =>
    exact .of_test rfl (exec_activate σ s) fun h => (not_and_or.1 h).imp_right Bool.eq_true_of_not_eq_false
  | deactivate => exact .of_life rfl (exec_deactivate s)
  | release => exact .of_life rfl (exec_release s)
  | appDone => exact .of_window rfl (exec_appDone s)
  | mbxPrepSend v size => exact .of_active rfl (exec_mbxPrepSend v size s)
  | mbxPrepCheck v => exact .of_active rfl (exec_mbxPrepCheck v s)
  | mbxCheck q => exact .of_active rfl (exec_mbxCheck q s)
  | mbxPrepFetch v => exact .of_active rfl (exec_mbxPrepFetch v s)
  | mbxFetch q v => exact .of_active rfl (exec_mbxFetch q v s)
  | mbxXfer q budget => exact .of_active rfl (exec_mbxXfer q budget s)
  | mbxXstat => exact .of_active rfl (exec_mbxXstat s)
  | mbxXrd n => exact .of_active rfl (exec_mbxXrd n s)
  | mbxXclr => exact .of_active rfl (exec_mbxXclr s)
  | domCreate d size => exact .of_configuring rfl (exec_domCreate d size s)
  | domRegField d off => exact .of_configuring rfl (exec_domRegField d off s)
  | fldRd n => exact .of_window rfl (exec_fldRd n s)
  | fldWr n => exact .of_window rfl (exec_fldWr n s)
  | dgRd q n => exact .of_active rfl (exec_dgRd q n s)
  | dgWr q n => exact .of_active rfl (exec_dgWr q n s)
  | dgStat q => exact .of_active rfl (exec_dgStat q s)

/-- Settles O14: the table has one entry for a command in a state, and the command follows it. -/
theorem permissionTable : Obligations.PermissionTable := by
  unfold Obligations.PermissionTable
  intro i s
  rcases followsTable i s with hd | ⟨hd, he⟩ | ⟨hd, he⟩ <;> rw [hd]
  · exact ⟨nofun, nofun, .inl rfl⟩
  · exact ⟨fun _ => he, nofun, .inr (.inl rfl)⟩
  · exact ⟨nofun, fun _ => he, .inr (.inr rfl)⟩

end Sys2Proof.Machine
end

section
/-! The proofs of the family of 70_reset_and_hazards.md: the state after reset, and the reset event. -/

namespace Sys2Proof.Machine

/-! ## The state after reset (70_reset_and_hazards.md R281) -/

section
variable (p : Config.Params) (z : Config.Sizes)

theorem State.initial_inflight : (State.initial p z).inflight = false :=
  List.any_replicate.trans (ite_self _)

/-- STATUS shows Released, Idle and no flag. -/
theorem State.initial_statusWord : (State.initial p z).statusWord = 0 := by
  rw [State.statusWord, State.initial_inflight]
  simp [State.cmderr, State.initial, Sequencer.empty, mxCode, strategyCode, phaseCode, lifeCode]

/-- The register map after reset: KDIV is the only register that does not read 0. -/
theorem State.initial_readReg (offset : Nat) :
    (State.initial p z).readReg offset = if offset = 0x3C then 1 else 0 := by
  by_cases hk : offset = 0x3C
  · rw [if_pos hk, hk]
    rfl
  · rw [if_neg hk, State.readReg_eq, if_neg hk, State.initial_statusWord]
    simp [State.initial, toWord]

end

section
variable {s : State}

/-- In Released the table permits ACQUIRE only (60_exceptions.md R242). -/
theorem denial_of_released (hl : s.life = .released) {i : Instr} (hi : i ≠ .acquire) :
    denial i s = some .badState := by
  cases i
  case acquire => exact absurd rfl hi
  all_goals simp [denial, hl]

/-- What the table does not permit in Released ends with BadState and changes nothing else. -/
theorem exec_of_released (hl : s.life = .released) {i : Instr} (hi : i ≠ .acquire) : exec i s = failsWith s 10 :=
  (permissionTable i s).1 (denial_of_released hl hi)

/-- ACQUIRE in Released succeeds and leads to Configuring (43_driver_lifecycle.md R220). -/
theorem acquire_of_released (hl : s.life = .released) :
    ∃ t, exec .acquire s = .next t ∧ t.err = 0 ∧ t.life = .configuring :=
  ⟨_, (acquireStartsASession s).2 hl, rfl, rfl⟩

/-- A tick while the driver is not installed is ignored (43_driver_lifecycle.md R210). -/
theorem step_tick_of_not_active {rest : List Input} (hi : s.inputs = .tick :: rest) (hl : s.life ≠ .active) :
    step s = .next { s with inputs := rest } :=
  (tickIsAcceptedHeldOrLost s rest hi).1 hl

end

/-- Settles O12: every table repeats its empty entry, and of the commands the permission table lets only ACQUIRE pass in
Released. -/
theorem afterResetOnlyAcquireSucceeds : Obligations.AfterResetOnlyAcquireSucceeds := by
  unfold Obligations.AfterResetOnlyAcquireSucceeds
  intro p z s
  have hl : s.life = .released := rfl
  have hslv : ∀ e ∈ s.slv, e = Slave.empty := fun _ he => List.eq_of_mem_replicate he
  have hdom : ∀ x ∈ s.dom, x = Domain.empty := fun _ hx => List.eq_of_mem_replicate hx
  have hfld : ∀ f ∈ s.fld, f = Field.empty := fun _ hf => List.eq_of_mem_replicate hf
  exact ⟨hl, rfl, (State.initial_stopped p z).dg, fun e he => congrArg Slave.valid (hslv e he),
    fun x hx => congrArg Domain.valid (hdom x hx), fun f hf => congrArg Field.valid (hfld f hf),
    State.initial_readReg p z, step_tick_of_not_active rfl nofun, acquire_of_released hl,
    fun _ hi => exec_of_released hl hi, fun _ hw => runWord_reserved hw s⟩

/-! ## The reset event (70_reset_and_hazards.md R280, R282) -/

/-- Reset does not wait for a held command (R282; log 9). -/
theorem step_reset {s : State} {rest : List Input} (h : s.inputs = .reset :: rest) :
    step s = .next (State.hardReset { s with inputs := rest }) :=
  step_takeTurn h rfl

/-- Reset leaves the state after reset of the same block, and the environment goes on. -/
theorem State.hardReset_eq (s : State) : s.hardReset = {
    State.initial s.par { nslave := s.nslave, ndom := s.ndom, nfield := s.nfield, ndg := s.ndg } with
    inputs := s.inputs, wire := s.wire, elapsed := s.elapsed, draws := s.draws, now := s.now } := by
  rw [State.hardReset, State.clearSession_eq]
  rfl

/-- Settles O13: reset takes its turn in any state, and what it leaves is `hardReset`. -/
theorem resetEventRestoresTheResetState : Obligations.ResetEventRestoresTheResetState := by
  unfold Obligations.ResetEventRestoresTheResetState
  intro s rest hi
  rw [step_reset hi, State.hardReset_eq]
  rfl

end Sys2Proof.Machine
end
